-- ==== Sys2Proof/Word.lean ====
section
/-! DEFINITION. The value types of SHACORE: Word, byte, operation word (spec/00_scope.md R7, R8; spec/30_encoding.md R80). -/

namespace Sys2Proof

/-- A Word: 32 bits, unsigned, arithmetic modulo 2^32 (R7). -/
abbrev Word := BitVec 32

/-- A byte: a value in `0 .. 255` (R8). -/
abbrev Byte := BitVec 8

/-- An encoded operation, `OPW`: one length, 16 bits (R80). -/
abbrev OpWord := BitVec 16

/-- `x[hi:lo]`, the value of bits `hi` down to `lo` of the natural number `x` (R7). -/
def slice (x hi lo : Nat) : Nat := x / 2 ^ lo % 2 ^ (hi - lo + 1)

end Sys2Proof
end

