-- ==== Sys2Proof/Config.lean ====
section
/-! DEFINITION. What is fixed for the machine and never changes as it runs: the two units, their sizes, the constant
tables, and one free value (spec/00_scope.md R4, R5; spec/10_state.md R31 to R35). -/

namespace Sys2Proof

/-- The two units of the CORE (R4): `S1` computes SHA-1, `S256` computes SHA-256. -/
inductive UnitId where
  | s1
  | s256
  deriving DecidableEq, Repr

namespace Config

/-- `NW(u)`: Words in the schedule (R4). -/
abbrev nw : UnitId → Nat
  | .s1 => 80
  | .s256 => 64

/-- `NS(u)`: Words in the State (R4). -/
abbrev ns : UnitId → Nat
  | .s1 => 5
  | .s256 => 8

/-- `NR(u)`: rounds in a block (R4). -/
abbrev nr : UnitId → Nat
  | .s1 => 80
  | .s256 => 64

/-- `DB(u)`: bytes of the raw digest (R4). -/
abbrev db : UnitId → Nat
  | .s1 => 20
  | .s256 => 32

/-- `HX(u)`: characters of the textual digest (R4). -/
abbrev hx : UnitId → Nat
  | .s1 => 40
  | .s256 => 64

/-- The least bit length that does not fit in the 64-bit length field (R188). -/
abbrev lengthLimit : Nat := 2 ^ 64

/-- The highest message address the host may use: a longer message cannot be hashed (R65, R71). -/
abbrev maxMsgAddr : Nat := 2 ^ 61 - 2

/-- A FREE VALUE: which way a unit goes where its next position depends on a number that has no value (`CHECKLEN` without `MLEN_u`,
`NEXTBLK` without `NBLK_u`; R39: "no defined result on the hardware"). Nothing is known of it (DESIGN CHOICE, log entry 23). -/
opaque freeBranch : UnitId → Nat → Bool

/-- `IV1[0..4]`, the initial State of unit `S1` (R31). -/
def iv1 : Vector Word 5 := #v[0x67452301, 0xEFCDAB89, 0x98BADCFE, 0x10325476, 0xC3D2E1F0]

/-- `K1[0..3]`, the round constants of unit `S1`, one for twenty rounds (R32). -/
def k1 : Vector Word 4 := #v[0x5A827999, 0x6ED9EBA1, 0x8F1BBCDC, 0xCA62C1D6]

/-- `IV256[0..7]`, the initial State of unit `S256` (R33). -/
def iv256 : Vector Word 8 :=
  #v[0x6A09E667, 0xBB67AE85, 0x3C6EF372, 0xA54FF53A, 0x510E527F, 0x9B05688C, 0x1F83D9AB, 0x5BE0CD19]

/-- The rows of the table of `K256` (R34), eight Words a row. -/
def k256Rows : List Word :=
  [0x428a2f98, 0x71374491, 0xb5c0fbcf, 0xe9b5dba5, 0x3956c25b, 0x59f111f1, 0x923f82a4, 0xab1c5ed5] ++
  [0xd807aa98, 0x12835b01, 0x243185be, 0x550c7dc3, 0x72be5d74, 0x80deb1fe, 0x9bdc06a7, 0xc19bf174] ++
  [0xe49b69c1, 0xefbe4786, 0x0fc19dc6, 0x240ca1cc, 0x2de92c6f, 0x4a7484aa, 0x5cb0a9dc, 0x76f988da] ++
  [0x983e5152, 0xa831c66d, 0xb00327c8, 0xbf597fc7, 0xc6e00bf3, 0xd5a79147, 0x06ca6351, 0x14292967] ++
  [0x27b70a85, 0x2e1b2138, 0x4d2c6dfc, 0x53380d13, 0x650a7354, 0x766a0abb, 0x81c2c92e, 0x92722c85] ++
  [0xa2bfe8a1, 0xa81a664b, 0xc24b8b70, 0xc76c51a3, 0xd192e819, 0xd6990624, 0xf40e3585, 0x106aa070] ++
  [0x19a4c116, 0x1e376c08, 0x2748774c, 0x34b0bcb5, 0x391c0cb3, 0x4ed8aa4a, 0x5b9cca4f, 0x682e6ff3] ++
  [0x748f82ee, 0x78a5636f, 0x84c87814, 0x8cc70208, 0x90befffa, 0xa4506ceb, 0xbef9a3f7, 0xc67178f2]

/-- `K256[0..63]`, the round constants of unit `S256`, one a round (R34). -/
def k256 : Vector Word 64 := ⟨⟨k256Rows⟩, rfl⟩

/-- `IV(u)`: the initial State of unit `u` (R31, R33). -/
def iv : (u : UnitId) → Vector Word (ns u)
  | .s1 => iv1
  | .s256 => iv256

end Config

end Sys2Proof
end

