-- ==== Sys2Proof/Syntax.lean ====
section
/-! DEFINITION. The operations: one constructor per row of spec/opcode_table.json (spec/30_encoding.md R83). -/

namespace Sys2Proof

/-- An operation of the CORE. The operand of `WLOAD`, `WEXP` and `ROUND` is the index of the `idx` field, used as it stands (R84). -/
inductive Instr where
  | sha1Start
  | sha1Checklen
  | sha1Init
  | sha1Pad
  | sha1Wload (j : Nat)
  | sha1Wexp (i : Nat)
  | sha1Loadv
  | sha1Round (t : Nat)
  | sha1Addh
  | sha1Nextblk
  | sha1Serialize
  | sha1Hexenc
  | sha256Start
  | sha256Checklen
  | sha256Init
  | sha256Pad
  | sha256Wload (j : Nat)
  | sha256Wexp (i : Nat)
  | sha256Loadv
  | sha256Round (t : Nat)
  | sha256Addh
  | sha256Nextblk
  | sha256Serialize
  | sha256Hexenc
  deriving DecidableEq, Repr

namespace Instr

/-- The `START` of unit `u`, the one operation a host may issue (R86). -/
def start : UnitId → Instr
  | .s1 => .sha1Start
  | .s256 => .sha256Start

/-- The unit whose state the operation reads and writes (R82). -/
def unit : Instr → UnitId
  | .sha1Start => .s1
  | .sha1Checklen => .s1
  | .sha1Init => .s1
  | .sha1Pad => .s1
  | .sha1Wload _ => .s1
  | .sha1Wexp _ => .s1
  | .sha1Loadv => .s1
  | .sha1Round _ => .s1
  | .sha1Addh => .s1
  | .sha1Nextblk => .s1
  | .sha1Serialize => .s1
  | .sha1Hexenc => .s1
  | .sha256Start => .s256
  | .sha256Checklen => .s256
  | .sha256Init => .s256
  | .sha256Pad => .s256
  | .sha256Wload _ => .s256
  | .sha256Wexp _ => .s256
  | .sha256Loadv => .s256
  | .sha256Round _ => .s256
  | .sha256Addh => .s256
  | .sha256Nextblk => .s256
  | .sha256Serialize => .s256
  | .sha256Hexenc => .s256

end Instr

end Sys2Proof
end

