-- ==== Sys2Proof/WellFormed.lean ====
section
/-! DEFINITION. The legal index of each operation (spec/30_encoding.md R84). -/

namespace Sys2Proof

/-- The index lies in the range R84 gives the operation; an operation without an index is always well-formed. -/
def WellFormed : Instr → Bool
  | .sha1Wload j => decide (j ≤ 15)
  | .sha1Wexp i => decide (16 ≤ i ∧ i ≤ 79)
  | .sha1Round t => decide (t ≤ 79)
  | .sha256Wload j => decide (j ≤ 15)
  | .sha256Wexp i => decide (16 ≤ i ∧ i ≤ 63)
  | .sha256Round t => decide (t ≤ 63)
  | .sha1Start => true
  | .sha1Checklen => true
  | .sha1Init => true
  | .sha1Pad => true
  | .sha1Loadv => true
  | .sha1Addh => true
  | .sha1Nextblk => true
  | .sha1Serialize => true
  | .sha1Hexenc => true
  | .sha256Start => true
  | .sha256Checklen => true
  | .sha256Init => true
  | .sha256Pad => true
  | .sha256Loadv => true
  | .sha256Addh => true
  | .sha256Nextblk => true
  | .sha256Serialize => true
  | .sha256Hexenc => true

end Sys2Proof
end

