-- ==== Sys2Proof/Decode.lean ====
section
/-! DEFINITION. The decoder, total on all 65536 operation words, and the encoder (spec/30_encoding.md R81 to R87). -/

namespace Sys2Proof

/-- Why a word is reserved (R85). -/
inductive ReservedWhy where
  /-- bits 14:12 are not `000` -/
  | zeroField
  /-- `op` is `0x0`, `0xD`, `0xE` or `0xF` -/
  | op
  /-- `idx` is outside the range of R84 -/
  | idx
  deriving DecidableEq, Repr

/-- What a word decodes to: an operation, or `reserved`, which has no semantics (R85). -/
inductive Decoded where
  | op (i : Instr)
  | reserved (why : ReservedWhy)
  deriving DecidableEq, Repr

/-- The `idx` check of R84: the operation if the index is legal, else reserved. -/
def checkIdx (i : Instr) : Decoded := if WellFormed i then .op i else .reserved .idx

/-- The `idx` check for an operation whose `idx` must be `0x00` (R84). -/
def zeroIdx (idx : Nat) (i : Instr) : Decoded := if idx = 0 then .op i else .reserved .idx

/-- The opcode map (R83), by unit. -/
def decodeOp : UnitId → Nat → Nat → Decoded
  | .s1, 0x1, idx => zeroIdx idx .sha1Start
  | .s1, 0x2, idx => zeroIdx idx .sha1Checklen
  | .s1, 0x3, idx => zeroIdx idx .sha1Init
  | .s1, 0x4, idx => zeroIdx idx .sha1Pad
  | .s1, 0x5, idx => checkIdx (.sha1Wload idx)
  | .s1, 0x6, idx => checkIdx (.sha1Wexp idx)
  | .s1, 0x7, idx => zeroIdx idx .sha1Loadv
  | .s1, 0x8, idx => checkIdx (.sha1Round idx)
  | .s1, 0x9, idx => zeroIdx idx .sha1Addh
  | .s1, 0xA, idx => zeroIdx idx .sha1Nextblk
  | .s1, 0xB, idx => zeroIdx idx .sha1Serialize
  | .s1, 0xC, idx => zeroIdx idx .sha1Hexenc
  | .s256, 0x1, idx => zeroIdx idx .sha256Start
  | .s256, 0x2, idx => zeroIdx idx .sha256Checklen
  | .s256, 0x3, idx => zeroIdx idx .sha256Init
  | .s256, 0x4, idx => zeroIdx idx .sha256Pad
  | .s256, 0x5, idx => checkIdx (.sha256Wload idx)
  | .s256, 0x6, idx => checkIdx (.sha256Wexp idx)
  | .s256, 0x7, idx => zeroIdx idx .sha256Loadv
  | .s256, 0x8, idx => checkIdx (.sha256Round idx)
  | .s256, 0x9, idx => zeroIdx idx .sha256Addh
  | .s256, 0xA, idx => zeroIdx idx .sha256Nextblk
  | .s256, 0xB, idx => zeroIdx idx .sha256Serialize
  | .s256, 0xC, idx => zeroIdx idx .sha256Hexenc
  | _, _, _ => .reserved .op

/-- The unit of an `alg` bit (R81). -/
def algUnit (alg : Nat) : UnitId := if alg = 0 then .s1 else .s256

/-- Decoding (R87): `alg = w[15]`, `zero = w[14:12]`, `op = w[11:8]`, `idx = w[7:0]`. -/
def decode (w : OpWord) : Decoded :=
  if slice w.toNat 14 12 ≠ 0 then .reserved .zeroField
  else decodeOp (algUnit (slice w.toNat 15 15)) (slice w.toNat 11 8) (slice w.toNat 7 0)

/-- The `alg` bit of a unit (R81). -/
def unitAlg : UnitId → Nat
  | .s1 => 0
  | .s256 => 1

/-- The `op` and `idx` fields of an operation (R83, R84). -/
def opIdx : Instr → Nat × Nat
  | .sha1Start => (0x1, 0)
  | .sha1Checklen => (0x2, 0)
  | .sha1Init => (0x3, 0)
  | .sha1Pad => (0x4, 0)
  | .sha1Wload j => (0x5, j)
  | .sha1Wexp i => (0x6, i)
  | .sha1Loadv => (0x7, 0)
  | .sha1Round t => (0x8, t)
  | .sha1Addh => (0x9, 0)
  | .sha1Nextblk => (0xA, 0)
  | .sha1Serialize => (0xB, 0)
  | .sha1Hexenc => (0xC, 0)
  | .sha256Start => (0x1, 0)
  | .sha256Checklen => (0x2, 0)
  | .sha256Init => (0x3, 0)
  | .sha256Pad => (0x4, 0)
  | .sha256Wload j => (0x5, j)
  | .sha256Wexp i => (0x6, i)
  | .sha256Loadv => (0x7, 0)
  | .sha256Round t => (0x8, t)
  | .sha256Addh => (0x9, 0)
  | .sha256Nextblk => (0xA, 0)
  | .sha256Serialize => (0xB, 0)
  | .sha256Hexenc => (0xC, 0)

/-- Encoding: `OPW = alg*2^15 + op*2^8 + idx` (R81). -/
def encode (i : Instr) : OpWord :=
  BitVec.ofNat 16 (unitAlg i.unit * 2 ^ 15 + (opIdx i).1 * 2 ^ 8 + (opIdx i).2)

/-- The operation the decoder reads from a table word `w` of `nbits` bits: operations have one length, 16 bits (R80), so a
number that is no 16-bit word is refused. -/
def decodeTableWord (nbits w : Nat) : Option Instr :=
  if w < 2 ^ nbits ∧ w < 2 ^ 16 then
    match decode (BitVec.ofNat 16 w) with
    | .op i => some i
    | .reserved _ => none
  else none

end Sys2Proof
end

