-- ==== Sys2Proof/Machine/State.lean ====
section
/-! DEFINITION. The state of SHACORE as plain data, the reasons a step can stop, and the state after reset
(spec/10_state.md R20 to R30, R38; spec/20_memory.md R50 to R54; spec/60_exceptions.md R235). -/

namespace Sys2Proof.Machine

/-- The phases of a sequencer (R25). -/
inductive Phase where
  | idle
  | start
  | padding
  | processingBlock
  | finalizing
  | finalized
  | failed
  deriving DecidableEq, Repr

/-- The sequencer position `pos_u = (phase_u, blk_u, step_u)` (R24); the CORE has no program counter. -/
structure Pos where
  phase : Phase
  blk : Nat
  step : Nat
  deriving DecidableEq, Repr

/-- A piece of state whose content may be `NOVAL`, or a register that only answers `NOVAL`: what a read found without a value. -/
inductive Store where
  | mlen
  | nblk
  | msg
  | pm
  | dig
  | hex
  | w
  | v
  | h
  | cmd
  deriving DecidableEq, Repr

/-- Why the machine stops with a fault: for no reason. The one exception of the CORE is taken (R227), there is no other (R224), and
the fault `ReadOfNoValue` of R235 a is recorded and kept in the state (`UnitState.noValueRead`), as that rule says, while the machine goes on. -/
inductive Fault where
  deriving DecidableEq, Repr

/-- Why the machine gives no next state. -/
inductive Refusal where
  /-- An operation that has no meaning yet: raised by an arm of `exec` only. Safe. -/
  | notModelled (mnemonic : String)
  /-- An operation executed when its precondition on `pos_u` does not hold (R235 b, U14). Raised by every meaning; `step`
  never reaches it. Safe. -/
  | outOfSequence
  /-- `PAD` with `8*MLEN_u >= 2^64`, outside its precondition (R104), where the padded message is undefined (R107). Raised by
  the two `PAD` meanings in states no run reaches. Safe. -/
  | lengthNotLegal
  /-- A busy unit at a position where the microprogram is undefined (R200). Raised by `step` in states no run reaches. Safe. -/
  | noMicroOperation
  /-- The microprogram gave a reserved word, which has no semantics (R85). Raised by `step`; never happens (R224). Safe. -/
  | reservedWord
  /-- No unit has an enabled step and no host access waits: the end of a run, not a fault (R201, U10). Raised by `step`. Safe. -/
  | noStep
  deriving DecidableEq, Repr

/-- One byte-addressed space: its written bytes as (address, byte) pairs, addresses strictly rising. An address not listed
holds `NOVAL` (R17, R50). -/
abbrev Memory := List Host.Cell

/-- The canonical form of a space: addresses strictly rising. An unlisted address holds no value, so no entry can equal what
an unlisted address reads as. -/
abbrev Memory.wf (m : Memory) : Prop := m.Pairwise (fun x y => x.1 < y.1)

/-- A register file of `n` Words, each a Word or `NOVAL` (R17). -/
abbrev Cells (n : Nat) := Vector (Option Word) n

/-- State no host access may reach (R71): the padded message, schedule, working registers, State and constant tables. -/
inductive Internal where
  | pm (a : Nat)
  | w (i : Nat)
  | v (i : Nat)
  | h (i : Nat)
  | iv (i : Nat)
  | k (i : Nat)
  deriving DecidableEq, Repr

/-- A host write, by the place it names (R71): control registers 0 `STATUS`, 1 `MLEN`, 2 `NBLK`, 3 `CMD`, `otherReg n` for
number `4 + n`, which does not exist (R29), a byte of a space, or internal state. -/
inductive HostWrite where
  | msg (j : Nat) (b : Byte)
  | mlen (n : Nat)
  | cmd (w : OpWord)
  | status (v : BitVec 8)
  | nblk (n : Nat)
  | otherReg (n v : Nat)
  | dig (j : Nat) (b : Byte)
  | hex (j : Nat) (b : Byte)
  | internal (loc : Internal) (v : Word)
  deriving DecidableEq, Repr

/-- A host read, by the place it names (R71). -/
inductive HostRead where
  | status
  | mlen
  | nblk
  | cmd
  | otherReg (n : Nat)
  | msg (j : Nat)
  | dig (j : Nat)
  | hex (j : Nat)
  | internal (loc : Internal)
  deriving DecidableEq, Repr

/-- One access of the host to a unit. -/
inductive HostOp where
  | write (w : HostWrite)
  | read (r : HostRead)
  deriving DecidableEq, Repr

/-- What an access was answered (R71). -/
inductive HostReply where
  /-- a write took effect -/
  | accepted
  /-- a write waits for a ready phase -/
  | held
  /-- an access never takes effect -/
  | refused
  /-- a read of `STATUS_u` -/
  | status (v : BitVec 8)
  /-- a read of `MLEN_u` or `NBLK_u` -/
  | number (n : Nat)
  /-- a read of one byte of a space -/
  | byte (b : Byte)
  /-- a read that met `NOVAL`: it is given no value (R71, R235 a) -/
  | noValue
  deriving DecidableEq, Repr

/-- All the state of unit `u` (R20), and the model's own fields: its host port (`inbox`, `reply`), the record R235 a asks a model to
keep (`noValueRead`), and the counter of the free value (`draws`). -/
structure UnitState (u : UnitId) where
  /-- `pos_u` (R24) -/
  pos : Pos
  /-- `NBLK_u` (R26); `none` is `NOVAL` -/
  nblk : Option Nat
  /-- `MLEN_u` (R28), an unbounded natural number (R5); `none` is `NOVAL` -/
  mlen : Option Nat
  /-- `ERR_u`, 2 bits (R30) -/
  err : BitVec 2
  /-- `MSG_u` (R51) -/
  msg : Memory
  /-- `PM_u` (R52) -/
  pm : Memory
  /-- `DIG_u` (R53) -/
  dig : Memory
  /-- `HEX_u` (R54) -/
  hex : Memory
  /-- the schedule `W_u` (R23) -/
  w : Cells (Config.nw u)
  /-- the working registers `V_u`: `a, b, c, ...` in order (R21) -/
  v : Cells (Config.ns u)
  /-- the State `H_u` (R22) -/
  h : Cells (Config.ns u)
  /-- the one held host write (R71, R187) -/
  held : Option HostWrite
  /-- the host's accesses to this unit still to come, the next one first: the model's input -/
  inbox : List HostOp
  /-- what the last access to this unit was answered: the model's output -/
  reply : Option HostReply
  /-- the model fault `ReadOfNoValue` (R39, R235 a, U1, U2), recorded and kept: what the first read of `NOVAL` by or from this unit
  met since reset, none if there was none -/
  noValueRead : Option Store
  /-- how many free values (`Config.freeBranch`) the unit has used -/
  draws : Nat
  deriving DecidableEq, Repr

/-- A choice of what moves next (R201): a unit's own step, the next host access to a unit, or a reset from outside (R250). -/
inductive Move where
  | unit (u : UnitId)
  | host (u : UnitId)
  | reset
  deriving DecidableEq, Repr

/-- The whole CORE: two disjoint units (R20), and the model's schedule of moves to come. -/
structure State where
  s1 : UnitState .s1
  s256 : UnitState .s256
  sched : List Move
  deriving DecidableEq, Repr

/-- Every entry `NOVAL`. -/
def Cells.noval (n : Nat) : Cells n := Vector.ofFn fun _ => none

/-- A unit after reset (R38). -/
def UnitState.reset (u : UnitId) : UnitState u where
  pos := ⟨.idle, 0, 0⟩
  nblk := none
  mlen := none
  err := 0
  msg := []
  pm := []
  dig := []
  hex := []
  w := Cells.noval _
  v := Cells.noval _
  h := Cells.noval _
  held := none
  inbox := []
  reply := none
  noValueRead := none
  draws := 0

/-- The machine right after reset (R38, R250): both sequencers in `Idle`, `ERR_u = 0`, everything else `NOVAL`. -/
def State.reset : State where
  s1 := UnitState.reset .s1
  s256 := UnitState.reset .s256
  sched := []

end Sys2Proof.Machine
end

