-- ==== Sys2Proof/Machine/Flags.lean ====
section
/-! DEFINITION. The status register and the error flag (spec/10_state.md R25, R27, R30; spec/60_exceptions.md R220). There are
no condition codes, no carry, no overflow and no zero flag (R30). -/

namespace Sys2Proof.Machine

/-- The 3-bit code of a phase (R25). -/
def phaseCode : Phase → Nat
  | .idle => 0
  | .start => 1
  | .padding => 2
  | .processingBlock => 3
  | .finalizing => 4
  | .finalized => 5
  | .failed => 6

/-- The busy phases (R25): the other three are the ready phases. -/
def busy : Phase → Bool
  | .idle => false
  | .start => true
  | .padding => true
  | .processingBlock => true
  | .finalizing => true
  | .finalized => false
  | .failed => false

/-- `ERR_u` of no error (R220). -/
def errNone : BitVec 2 := 0

/-- `ERR_u` of `MessageTooLarge` (R220). -/
def errMessageTooLarge : BitVec 2 := 1

/-- `ERR_u` of `IllegalCommand` (R220). -/
def errIllegalCommand : BitVec 2 := 2

/-- `STATUS_u` (R27): `PHASE` bits 2:0, `BUSY` bit 3, `DONE` bit 4, `ERR` bits 6:5, bit 7 zero. -/
def statusByte (ph : Phase) (err : BitVec 2) : BitVec 8 :=
  BitVec.ofNat 8 (phaseCode ph + (if busy ph then 2 ^ 3 else 0) + (if ph = .finalized then 2 ^ 4 else 0) + err.toNat * 2 ^ 5)

/-- `STATUS_u` of a unit (R27): it holds no state of its own. -/
def UnitState.status {u : UnitId} (x : UnitState u) : BitVec 8 := statusByte x.pos.phase x.err

end Sys2Proof.Machine
end

