-- ==== Sys2Proof/Machine/Operands.lean ====
section
/-! DEFINITION. The arithmetic on Words and bytes every meaning uses (spec/00_scope.md R10 to R15), the logical functions of
the scheduler and the compressor (spec/41_scheduler.md, spec/42_compressor.md), the padding bytes (spec/40_padder.md) and the
hex characters (spec/43_finalizer.md). -/

namespace Sys2Proof.Machine

/-- `add32(x1, ..., xk) = (x1 + ... + xk) mod 2^32` (R10). -/
def add32 (xs : List Word) : Word := BitVec.ofNat 32 (xs.map BitVec.toNat).sum

/-- `rotl32(x, s)` (R11). -/
def rotl32 (x : Word) (s : Nat) : Word :=
  if s % 32 = 0 then x
  else BitVec.ofNat 32 (x.toNat * 2 ^ (s % 32) % 2 ^ 32 + x.toNat / 2 ^ (32 - s % 32))

/-- `rotr32(x, s)` (R12). -/
def rotr32 (x : Word) (s : Nat) : Word :=
  if s % 32 = 0 then x
  else BitVec.ofNat 32 (x.toNat / 2 ^ (s % 32) + x.toNat * 2 ^ (32 - s % 32) % 2 ^ 32)

/-- `shr32(x, s)`, the logical right shift (R13). -/
def shr32 (x : Word) (s : Nat) : Word := BitVec.ofNat 32 (x.toNat / 2 ^ (s % 32))

/-- `be32(b0, b1, b2, b3)`: the first byte is the most significant (R15). -/
def be32 (b0 b1 b2 b3 : Byte) : Word :=
  BitVec.ofNat 32 (b0.toNat * 2 ^ 24 + b1.toNat * 2 ^ 16 + b2.toNat * 2 ^ 8 + b3.toNat)

/-- `byte_k(x)`: byte `k` counted from the most significant (R15). -/
def byteOf (k : Nat) (x : Word) : Byte := BitVec.ofNat 8 (x.toNat / 2 ^ (8 * (3 - k)) % 256)

/-- The four bytes of a Word, most significant first (R58). -/
def wordBytes (x : Word) : List Byte := [byteOf 0 x, byteOf 1 x, byteOf 2 x, byteOf 3 x]

/-- `ssig0(x)` (R125). -/
def ssig0 (x : Word) : Word := rotr32 x 7 ^^^ rotr32 x 18 ^^^ shr32 x 3

/-- `ssig1(x)` (R126). -/
def ssig1 (x : Word) : Word := rotr32 x 17 ^^^ rotr32 x 19 ^^^ shr32 x 10

/-- `bsig1(x)` (R147). -/
def bsig1 (x : Word) : Word := rotr32 x 6 ^^^ rotr32 x 11 ^^^ rotr32 x 25

/-- `bsig0(x)` (R148). -/
def bsig0 (x : Word) : Word := rotr32 x 2 ^^^ rotr32 x 13 ^^^ rotr32 x 22

/-- `ch(e, f, g)` (R149). -/
def ch (e f g : Word) : Word := (e &&& f) ^^^ (~~~e &&& g)

/-- `maj(a, b, c)` (R150). -/
def maj (a b c : Word) : Word := (a &&& b) ^^^ (a &&& c) ^^^ (b &&& c)

/-- The SHA-1 logical function `f1(t, b, c, d)` (R143). -/
def f1 (t : Nat) (b c d : Word) : Word :=
  if t ≤ 19 then (b &&& c) ||| (~~~b &&& d)
  else if t ≤ 39 then b ^^^ c ^^^ d
  else if t ≤ 59 then (b &&& c) ||| (b &&& d) ||| (c &&& d)
  else b ^^^ c ^^^ d

/-- The SHA-1 round constant `k1(t) = K1[floor(t / 20)]`, for `t` in `0 .. 79` (R144). -/
def k1 (t : Nat) : Word :=
  if h : t / 20 < 4 then Config.k1.get ⟨t / 20, h⟩ else Config.k1.get 3

/-- The SHA-256 round constant `K256[t]`, for `t` in `0 .. 63` (R34, R151). -/
def k256 (t : Nat) : Word :=
  if h : t < 64 then Config.k256.get ⟨t, h⟩ else Config.k256.get 63

/-- The SHA-1 schedule recurrence on its four sources `W[i-3], W[i-8], W[i-14], W[i-16]` (R122, R123). -/
def expandS1 (w3 w8 w14 w16 : Word) : Word := rotl32 (w3 ^^^ w8 ^^^ w14 ^^^ w16) 1

/-- The SHA-256 schedule recurrence on its four sources `W[i-16], W[i-15], W[i-7], W[i-2]` (R124, R127). -/
def expandS256 (w16 w15 w7 w2 : Word) : Word := add32 [w16, ssig0 w15, w7, ssig1 w2]

/-- `temp` of a SHA-1 round (R145). -/
def tempS1 (t : Nat) (wt a b c d e : Word) : Word := add32 [rotl32 a 5, f1 t b c d, e, wt, k1 t]

/-- `temp1` of a SHA-256 round (R151). -/
def temp1S256 (t : Nat) (wt e f g h : Word) : Word := add32 [h, bsig1 e, ch e f g, k256 t, wt]

/-- `temp2` of a SHA-256 round (R151). -/
def temp2S256 (a b c : Word) : Word := add32 [bsig0 a, maj a b c]

/-- One SHA-1 round: the new `(a, b, c, d, e)` from the old registers, all assigned at once (R145). -/
def roundS1 (t : Nat) (wt : Word) (r : Vector Word 5) : Vector Word 5 :=
  let a := r.get 0
  let b := r.get 1
  let c := r.get 2
  let d := r.get 3
  let e := r.get 4
  #v[tempS1 t wt a b c d e, a, rotl32 b 30, c, d]

/-- One SHA-256 round: the new `(a, ..., h)` from the old registers, all assigned at once (R151). -/
def roundS256 (t : Nat) (wt : Word) (r : Vector Word 8) : Vector Word 8 :=
  let a := r.get 0
  let b := r.get 1
  let c := r.get 2
  let d := r.get 3
  let e := r.get 4
  let f := r.get 5
  let g := r.get 6
  let h := r.get 7
  let temp1 := temp1S256 t wt e f g h
  let temp2 := temp2S256 a b c
  #v[add32 [temp1, temp2], a, b, c, add32 [d, temp1], e, f, g]

/-- One round of unit `u` (R145, R151). -/
def roundOf : (u : UnitId) → Nat → Word → Vector Word (Config.ns u) → Vector Word (Config.ns u)
  | .s1, t, wt, r => roundS1 t wt r
  | .s256, t, wt, r => roundS256 t wt r

/-- Component-wise `add32` of two tuples (R153): no carry passes from one Word to the next. -/
def addWords {n : Nat} (x y : Vector Word n) : Vector Word n := Vector.ofFn fun k => add32 [x.get k, y.get k]

/-- The number of blocks of a message of `n` bytes: `N = floor((n + 8) / 64) + 1` (R101). -/
def blockCount (n : Nat) : Nat := (n + 8) / 64 + 1

/-- `PMbyte(j)` past the message, `n <= j < P` (R103): the byte `0x80`, the zero bytes, and the big-endian bit length. -/
def padByte (n j : Nat) : Byte :=
  let p := 64 * blockCount n
  if j = n then 0x80
  else if j < p - 8 then 0x00
  else BitVec.ofNat 8 (8 * n / 2 ^ (8 * (p - 1 - j)) % 256)

/-- `hexchar(v)`: the ASCII byte of one lowercase hexadecimal digit (R173). -/
def hexchar (v : Nat) : Byte := if v ≤ 9 then BitVec.ofNat 8 (0x30 + v) else BitVec.ofNat 8 (0x61 + (v - 10))

/-- The two characters of a byte, the high four bits first (R174). -/
def hexByte (d : Byte) : List Byte := [hexchar (d.toNat / 16), hexchar (d.toNat % 16)]

end Sys2Proof.Machine
end

