-- ==== Sys2Proof/Machine/Ops.lean ====
section
/-! DEFINITION. The shared operations: memory primitives (spec/00_scope.md R18), recording a read of `NOVAL` (R17, R39), the
position (spec/44_sequencer.md R196), taking the one exception and recovering from it (spec/60_exceptions.md R227, R229). -/

namespace Sys2Proof.Machine

/-- The outcome of one micro-operation on one unit. -/
abbrev UnitOutcome (u : UnitId) := Host.Outcome (UnitState u) Fault Refusal

/-- The byte at an address of a space, `none` for `NOVAL`. -/
def Memory.read : Memory → Nat → Option Byte
  | [], _ => none
  | (b, x) :: m, a => if b = a then some x else Memory.read m a

/-- Write one byte, keeping the addresses strictly rising. -/
def Memory.write : Memory → Nat → Byte → Memory
  | [], a, x => [(a, x)]
  | (b, y) :: m, a, x =>
    if a < b then (a, x) :: (b, y) :: m
    else if a = b then (a, x) :: m
    else (b, y) :: Memory.write m a x

/-- Make the byte at an address this content: a byte is written, `NOVAL` is what an unlisted address holds. -/
def Memory.put (m : Memory) (a : Nat) : Option Byte → Memory
  | none => m.filter fun e => e.1 ≠ a
  | some x => Memory.write m a x

/-- `MemRead(S, a, k)`: the contents of `k` bytes from address `a`, lowest address first (R18). -/
def Memory.readBytes (m : Memory) (a k : Nat) : List (Option Byte) := (List.range k).map fun i => Memory.read m (a + i)

/-- `MemWrite(S, a, k, v)` with `k` the length of `v`: lowest address first (R18). -/
def Memory.putBytes (m : Memory) (a : Nat) : List (Option Byte) → Memory
  | [] => m
  | o :: os => Memory.put (Memory.putBytes m (a + 1) os) a o

/-- The big-endian Word of the four bytes from an address (R56), `NOVAL` if one of them is. -/
def Memory.readWord (m : Memory) (a : Nat) : Option Word :=
  match Memory.read m a, Memory.read m (a + 1), Memory.read m (a + 2), Memory.read m (a + 3) with
  | some b0, some b1, some b2, some b3 => some (be32 b0 b1 b2 b3)
  | _, _, _, _ => none

/-- Entry `i` of a register file: `none` for `NOVAL`, and for an index outside it, which no rule uses. -/
def Cells.at {n : Nat} (r : Cells n) (i : Nat) : Option Word := if h : i < n then r.get ⟨i, h⟩ else none

/-- Make entry `i` of a register file this content. -/
def Cells.put {n : Nat} (r : Cells n) (i : Nat) (x : Option Word) : Cells n :=
  Vector.ofFn fun k => if k.val = i then x else r.get k

/-- A register file that holds the Words `x`. -/
def Cells.full {n : Nat} (x : Vector Word n) : Cells n := Vector.ofFn fun k => some (x.get k)

/-- An entry of a register file is `NOVAL`. -/
def Cells.missing {n : Nat} (r : Cells n) : Bool := decide (∃ k, r.get k = none)

/-- A byte of a list is `NOVAL`. -/
def missingByte (bs : List (Option Byte)) : Bool := bs.any Option.isNone

/-- Record the model fault `ReadOfNoValue` (R39, R235 a) if a read was of `NOVAL`; the first one is kept (log entry 25). -/
def UnitState.record {u : UnitId} (x : UnitState u) (what : Store) (missing : Bool) : UnitState u :=
  { x with noValueRead := x.noValueRead.or (if missing then some what else none) }

/-- Use up one free value. -/
def UnitState.drawn {u : UnitId} (x : UnitState u) : UnitState u := { x with draws := x.draws + 1 }

/-- The precondition of a micro-operation on `pos_u`; where it does not hold the model refuses (R235 b). -/
def atPosition {u : UnitId} (x : UnitState u) (ph : Phase) (st : Nat) (k : UnitOutcome u) : UnitOutcome u :=
  if x.pos.phase = ph ∧ x.pos.step = st then k else .refused .outOfSequence

/-- `step_u <- step_u + 1` (R196). -/
def UnitState.advance {u : UnitId} (x : UnitState u) : UnitState u :=
  { x with pos := { x.pos with step := x.pos.step + 1 } }

/-- `pos_u <- (phase, blk, 0)` (R196). -/
def UnitState.goto {u : UnitId} (x : UnitState u) (ph : Phase) (blk : Nat) : UnitState u :=
  { x with pos := ⟨ph, blk, 0⟩ }

/-- Taking the exception `MessageTooLarge` (R227): `ERR_u <- 1`, `pos_u <- (Failed, 0, 0)`, nothing saved. -/
def UnitState.raiseMessageTooLarge {u : UnitId} (x : UnitState u) : UnitState u :=
  ({ x with err := errMessageTooLarge }).goto .failed 0

/-- What an accepted `START` does (R186); there is no return from the exception but this (R229): `ERR_u` cleared, everything of
an earlier computation `NOVAL`, the position at the beginning of a computation. -/
def UnitState.beginComputation {u : UnitId} (x : UnitState u) : UnitState u :=
  ({ x with
      err := errNone
      nblk := none
      pm := []
      w := Cells.noval _
      v := Cells.noval _
      h := Cells.noval _
      dig := []
      hex := [] }).goto .start 0

/-- A unit of the CORE (R20). -/
def State.unit (s : State) : (u : UnitId) → UnitState u
  | .s1 => s.s1
  | .s256 => s.s256

/-- Put a unit's state back; the other unit is untouched (R20). -/
def State.setUnit (s : State) : (u : UnitId) → UnitState u → State
  | .s1, x => { s with s1 := x }
  | .s256, x => { s with s256 := x }

/-- Run a micro-operation of unit `u` (R82). -/
def State.onUnit (s : State) (u : UnitId) (f : UnitState u → UnitOutcome u) : Host.Outcome State Fault Refusal :=
  match f (s.unit u) with
  | .next x => .next (s.setUnit u x)
  | .fault r => .fault r
  | .refused r => .refused r

end Sys2Proof.Machine
end

