-- ==== Sys2Proof/Machine/Compressor.lean ====
section
/-! DEFINITION. `INIT`, `LOADV`, `ROUND` and `ADDH` (spec/42_compressor.md R141, R142, R145, R151, R153). -/

namespace Sys2Proof.Machine

/-- `INIT` (R141): `H_u` from the constant table. -/
def initUnit {u : UnitId} (x : UnitState u) : UnitOutcome u :=
  atPosition x .start 1 <| .next (({ x with h := Cells.full (Config.iv u) }).goto .padding 0)

/-- `LOADV` (R142): the incoming State copied into the working registers, Word by Word. -/
def loadvUnit {u : UnitId} (x : UnitState u) : UnitOutcome u :=
  atPosition x .processingBlock (Config.nw u) <| .next <| ({ x.record .h x.h.missing with v := x.h }).advance

/-- A SHA-1 round on registers that may be `NOVAL` (R145): what is made of `NOVAL` is `NOVAL` (DESIGN CHOICE, log entry 24). -/
def roundCellsS1 (t : Nat) (wt : Option Word) (r : Cells 5) : Cells 5 :=
  let temp := do return tempS1 t (← wt) (← r.get 0) (← r.get 1) (← r.get 2) (← r.get 3) (← r.get 4)
  #v[temp, r.get 0, (r.get 1).map (rotl32 · 30), r.get 2, r.get 3]

/-- A SHA-256 round on registers that may be `NOVAL` (R151; DESIGN CHOICE, log entry 24). -/
def roundCellsS256 (t : Nat) (wt : Option Word) (r : Cells 8) : Cells 8 :=
  let temp1 := do return temp1S256 t (← wt) (← r.get 4) (← r.get 5) (← r.get 6) (← r.get 7)
  let temp2 := do return temp2S256 (← r.get 0) (← r.get 1) (← r.get 2)
  let newA := do return add32 [← temp1, ← temp2]
  let newE := do return add32 [← r.get 3, ← temp1]
  #v[newA, r.get 0, r.get 1, r.get 2, newE, r.get 4, r.get 5, r.get 6]

/-- A round of unit `u` on registers that may be `NOVAL`. -/
def roundCells : (u : UnitId) → Nat → Option Word → Cells (Config.ns u) → Cells (Config.ns u)
  | .s1, t, wt, r => roundCellsS1 t wt r
  | .s256, t, wt, r => roundCellsS256 t wt r

/-- `ROUND t`, `0 <= t <= NR(u) - 1` (R145, R151). -/
def roundUnit {u : UnitId} (t : Nat) (x : UnitState u) : UnitOutcome u :=
  if t < Config.nr u then
    atPosition x .processingBlock (Config.nw u + 1 + t) <| .next <|
      ({ (x.record .v x.v.missing).record .w (x.w.at t).isNone with v := roundCells u t (x.w.at t) x.v }).advance
  else .refused .outOfSequence

/-- The sum of two Words that may be `NOVAL` (DESIGN CHOICE, log entry 24). -/
def addCell : Option Word → Option Word → Option Word
  | some a, some b => some (add32 [a, b])
  | _, _ => none

/-- `ADDH` (R153): the rounds' result added into the State, Word by Word. -/
def addhUnit {u : UnitId} (x : UnitState u) : UnitOutcome u :=
  atPosition x .processingBlock (Config.nw u + 1 + Config.nr u) <| .next <|
    ({ (x.record .h x.h.missing).record .v x.v.missing with
      h := Vector.ofFn fun k => addCell (x.h.get k) (x.v.get k) }).advance

/-- `SHA1.INIT` (R141). -/
def execSha1Init (s : State) : Host.Outcome State Fault Refusal := s.onUnit .s1 initUnit

/-- `SHA256.INIT` (R141). -/
def execSha256Init (s : State) : Host.Outcome State Fault Refusal := s.onUnit .s256 initUnit

/-- `SHA1.LOADV` (R142). -/
def execSha1Loadv (s : State) : Host.Outcome State Fault Refusal := s.onUnit .s1 loadvUnit

/-- `SHA256.LOADV` (R142). -/
def execSha256Loadv (s : State) : Host.Outcome State Fault Refusal := s.onUnit .s256 loadvUnit

/-- `SHA1.ROUND t` (R145). -/
def execSha1Round (t : Nat) (s : State) : Host.Outcome State Fault Refusal := s.onUnit .s1 (roundUnit t)

/-- `SHA256.ROUND t` (R151). -/
def execSha256Round (t : Nat) (s : State) : Host.Outcome State Fault Refusal := s.onUnit .s256 (roundUnit t)

/-- `SHA1.ADDH` (R153). -/
def execSha1Addh (s : State) : Host.Outcome State Fault Refusal := s.onUnit .s1 addhUnit

/-- `SHA256.ADDH` (R153). -/
def execSha256Addh (s : State) : Host.Outcome State Fault Refusal := s.onUnit .s256 addhUnit

end Sys2Proof.Machine
end

