-- ==== Sys2Proof/Machine/Control.lean ====
section
/-! DEFINITION. `START`, `CHECKLEN` and `NEXTBLK` (spec/44_sequencer.md R186, R188, R192). -/

namespace Sys2Proof.Machine

/-- `START`, executed when the host's write is accepted, in a ready phase only (R186, R187). -/
def startUnit {u : UnitId} (x : UnitState u) : UnitOutcome u :=
  if busy x.pos.phase then .refused .outOfSequence else .next x.beginComputation

/-- `CHECKLEN` (R188): the product `8*n` is a natural number and is not reduced. Without a length the read is recorded (R39) and which way
it goes is free (DESIGN CHOICE, log entry 23). -/
def checklenUnit {u : UnitId} (x : UnitState u) : UnitOutcome u :=
  atPosition x .start 0 <| .next <|
    match x.mlen with
    | some n => if Config.lengthLimit ≤ 8 * n then x.raiseMessageTooLarge else x.advance
    | none =>
      let y := (x.record .mlen true).drawn
      if Config.freeBranch u x.draws then y.raiseMessageTooLarge else y.advance

/-- `NEXTBLK` (R192): `W_u` and `V_u` become `NOVAL`; loop while blocks remain. Without a block count the read is recorded (R39) and
which way it goes is free (DESIGN CHOICE, log entry 23). -/
def nextblkUnit {u : UnitId} (x : UnitState u) : UnitOutcome u :=
  atPosition x .processingBlock (Config.nw u + Config.nr u + 2) <| .next <|
    let y := { x with w := Cells.noval _, v := Cells.noval _ }
    match x.nblk with
    | some n => if x.pos.blk + 1 < n then y.goto .processingBlock (x.pos.blk + 1) else y.goto .finalizing 0
    | none =>
      let z := (y.record .nblk true).drawn
      if Config.freeBranch u x.draws then z.goto .processingBlock (x.pos.blk + 1) else z.goto .finalizing 0

/-- `SHA1.START` (R186). -/
def execSha1Start (s : State) : Host.Outcome State Fault Refusal := s.onUnit .s1 startUnit

/-- `SHA256.START` (R186). -/
def execSha256Start (s : State) : Host.Outcome State Fault Refusal := s.onUnit .s256 startUnit

/-- `SHA1.CHECKLEN` (R188). -/
def execSha1Checklen (s : State) : Host.Outcome State Fault Refusal := s.onUnit .s1 checklenUnit

/-- `SHA256.CHECKLEN` (R188). -/
def execSha256Checklen (s : State) : Host.Outcome State Fault Refusal := s.onUnit .s256 checklenUnit

/-- `SHA1.NEXTBLK` (R192). -/
def execSha1Nextblk (s : State) : Host.Outcome State Fault Refusal := s.onUnit .s1 nextblkUnit

/-- `SHA256.NEXTBLK` (R192). -/
def execSha256Nextblk (s : State) : Host.Outcome State Fault Refusal := s.onUnit .s256 nextblkUnit

end Sys2Proof.Machine
end

