-- ==== Sys2Proof/Machine/Finalizer.lean ====
section
/-! DEFINITION. `SERIALIZE` and `HEXENC` (spec/43_finalizer.md R171, R174). -/

namespace Sys2Proof.Machine

/-- The bytes of the State, each Word in order as 4 big-endian bytes (R171). -/
def rawBytes {n : Nat} (h : Vector Word n) : List Byte := h.toList.flatMap wordBytes

/-- The characters of a byte sequence, two to a byte (R174). -/
def hexText (bs : List Byte) : List Byte := bs.flatMap hexByte

/-- The bytes of a State whose Words may be `NOVAL` (DESIGN CHOICE, log entry 24). -/
def cellBytes {n : Nat} (h : Cells n) : List (Option Byte) :=
  h.toList.flatMap fun o => [o.map (byteOf 0), o.map (byteOf 1), o.map (byteOf 2), o.map (byteOf 3)]

/-- The characters of bytes that may be `NOVAL` (DESIGN CHOICE, log entry 24). -/
def hexCells (bs : List (Option Byte)) : List (Option Byte) :=
  bs.flatMap fun o => [o.map fun d => hexchar (d.toNat / 16), o.map fun d => hexchar (d.toNat % 16)]

/-- `SERIALIZE` (R171). -/
def serializeUnit {u : UnitId} (x : UnitState u) : UnitOutcome u :=
  atPosition x .finalizing 0 <| .next <|
    ({ x.record .h x.h.missing with dig := Memory.putBytes x.dig 0 (cellBytes x.h) }).advance

/-- `HEXENC` (R174). -/
def hexencUnit {u : UnitId} (x : UnitState u) : UnitOutcome u :=
  atPosition x .finalizing 1 <| .next <|
    let bs := Memory.readBytes x.dig 0 (Config.db u)
    ({ x.record .dig (missingByte bs) with hex := Memory.putBytes x.hex 0 (hexCells bs) }).goto .finalized 0

/-- `SHA1.SERIALIZE` (R171). -/
def execSha1Serialize (s : State) : Host.Outcome State Fault Refusal := s.onUnit .s1 serializeUnit

/-- `SHA256.SERIALIZE` (R171). -/
def execSha256Serialize (s : State) : Host.Outcome State Fault Refusal := s.onUnit .s256 serializeUnit

/-- `SHA1.HEXENC` (R174). -/
def execSha1Hexenc (s : State) : Host.Outcome State Fault Refusal := s.onUnit .s1 hexencUnit

/-- `SHA256.HEXENC` (R174). -/
def execSha256Hexenc (s : State) : Host.Outcome State Fault Refusal := s.onUnit .s256 hexencUnit

end Sys2Proof.Machine
end

