-- ==== Sys2Proof/Machine/Padder.lean ====
section
/-! DEFINITION. `PAD` (spec/40_padder.md R101, R103, R104). -/

namespace Sys2Proof.Machine

/-- `PMbyte(j)` (R103), the message byte read from `MSG_u`; `none` where that byte is `NOVAL`. -/
def pmByte (msg : Memory) (n j : Nat) : Option Byte := if j < n then Memory.read msg j else some (padByte n j)

/-- The padded message of `n` bytes of `MSG_u`, byte by byte (R103). -/
def pmBytes (msg : Memory) (n : Nat) : List (Option Byte) := (List.range (64 * blockCount n)).map (pmByte msg n)

/-- `PAD` (R104): its precondition asks for a legal length. A message byte without a value is recorded (R39) and stays without one in
`PM_u`; without a length neither the number of blocks nor any byte of `PM_u` has a value (DESIGN CHOICE, log entry 24). -/
def padUnit {u : UnitId} (x : UnitState u) : UnitOutcome u :=
  atPosition x .padding 0 <|
    match x.mlen with
    | some n =>
      if Config.lengthLimit ≤ 8 * n then .refused .lengthNotLegal
      else
        let bs := pmBytes x.msg n
        .next (({ x.record .msg (missingByte bs) with
          nblk := some (blockCount n), pm := Memory.putBytes x.pm 0 bs }).goto .processingBlock 0)
    | none => .next (({ x.record .mlen true with nblk := none, pm := [] }).goto .processingBlock 0)

/-- `SHA1.PAD` (R104). -/
def execSha1Pad (s : State) : Host.Outcome State Fault Refusal := s.onUnit .s1 padUnit

/-- `SHA256.PAD` (R104). -/
def execSha256Pad (s : State) : Host.Outcome State Fault Refusal := s.onUnit .s256 padUnit

end Sys2Proof.Machine
end

