-- ==== Sys2Proof/Machine/Scheduler.lean ====
section
/-! DEFINITION. `WLOAD` and `WEXP` (spec/41_scheduler.md R121, R123, R127). -/

namespace Sys2Proof.Machine

/-- A Word made of four that may be `NOVAL` (DESIGN CHOICE, log entry 24). -/
def fromFour (f : Word → Word → Word → Word → Word) : Option Word → Option Word → Option Word → Option Word → Option Word
  | some a, some b, some c, some d => some (f a b c d)
  | _, _, _, _ => none

/-- Write schedule entry `i` and advance; an entry made of `NOVAL` is `NOVAL`, and the read that met it is recorded (R39; DESIGN CHOICE,
log entry 24). -/
def UnitState.schedule {u : UnitId} (x : UnitState u) (i : Nat) (source : Store) (y : Option Word) : UnitState u :=
  ({ x.record source y.isNone with w := x.w.put i y }).advance

/-- `WLOAD j`, `0 <= j <= 15` (R121). It reads `blk_u` and `PM_u` and no `NBLK_u`, as R37 and R121 say; R26 names `WLOAD` (bounds) among the
readers of `NBLK_u` (DESIGN CHOICE, log entry 26). -/
def wloadUnit {u : UnitId} (j : Nat) (x : UnitState u) : UnitOutcome u :=
  if j ≤ 15 then
    atPosition x .processingBlock j <| .next <| x.schedule j .pm (Memory.readWord x.pm (64 * x.pos.blk + 4 * j))
  else .refused .outOfSequence

/-- `SHA1.WEXP i`, `16 <= i <= 79` (R123). -/
def wexpS1 (i : Nat) (x : UnitState .s1) : UnitOutcome .s1 :=
  if 16 ≤ i ∧ i ≤ 79 then
    atPosition x .processingBlock i <| .next <|
      x.schedule i .w (fromFour expandS1 (x.w.at (i - 3)) (x.w.at (i - 8)) (x.w.at (i - 14)) (x.w.at (i - 16)))
  else .refused .outOfSequence

/-- `SHA256.WEXP i`, `16 <= i <= 63` (R127). -/
def wexpS256 (i : Nat) (x : UnitState .s256) : UnitOutcome .s256 :=
  if 16 ≤ i ∧ i ≤ 63 then
    atPosition x .processingBlock i <| .next <|
      x.schedule i .w (fromFour expandS256 (x.w.at (i - 16)) (x.w.at (i - 15)) (x.w.at (i - 7)) (x.w.at (i - 2)))
  else .refused .outOfSequence

/-- `SHA1.WLOAD j` (R121). -/
def execSha1Wload (j : Nat) (s : State) : Host.Outcome State Fault Refusal := s.onUnit .s1 (wloadUnit j)

/-- `SHA256.WLOAD j` (R121). -/
def execSha256Wload (j : Nat) (s : State) : Host.Outcome State Fault Refusal := s.onUnit .s256 (wloadUnit j)

/-- `SHA1.WEXP i` (R123). -/
def execSha1Wexp (i : Nat) (s : State) : Host.Outcome State Fault Refusal := s.onUnit .s1 (wexpS1 i)

/-- `SHA256.WEXP i` (R127). -/
def execSha256Wexp (i : Nat) (s : State) : Host.Outcome State Fault Refusal := s.onUnit .s256 (wexpS256 i)

end Sys2Proof.Machine
end

