-- ==== Sys2Proof/Machine/Dispatch.lean ====
section
/-! DEFINITION. One arm per operation. -/

namespace Sys2Proof.Machine

def exec (i : Instr) (s : State) : Host.Outcome State Fault Refusal :=
  match i with
  | .sha1Start => Sys2Proof.Machine.execSha1Start s
  | .sha1Checklen => Sys2Proof.Machine.execSha1Checklen s
  | .sha1Init => Sys2Proof.Machine.execSha1Init s
  | .sha1Pad => Sys2Proof.Machine.execSha1Pad s
  | .sha1Wload j => Sys2Proof.Machine.execSha1Wload j s
  | .sha1Wexp k => Sys2Proof.Machine.execSha1Wexp k s
  | .sha1Loadv => Sys2Proof.Machine.execSha1Loadv s
  | .sha1Round t => Sys2Proof.Machine.execSha1Round t s
  | .sha1Addh => Sys2Proof.Machine.execSha1Addh s
  | .sha1Nextblk => Sys2Proof.Machine.execSha1Nextblk s
  | .sha1Serialize => Sys2Proof.Machine.execSha1Serialize s
  | .sha1Hexenc => Sys2Proof.Machine.execSha1Hexenc s
  | .sha256Start => Sys2Proof.Machine.execSha256Start s
  | .sha256Checklen => Sys2Proof.Machine.execSha256Checklen s
  | .sha256Init => Sys2Proof.Machine.execSha256Init s
  | .sha256Pad => Sys2Proof.Machine.execSha256Pad s
  | .sha256Wload j => Sys2Proof.Machine.execSha256Wload j s
  | .sha256Wexp k => Sys2Proof.Machine.execSha256Wexp k s
  | .sha256Loadv => Sys2Proof.Machine.execSha256Loadv s
  | .sha256Round t => Sys2Proof.Machine.execSha256Round t s
  | .sha256Addh => Sys2Proof.Machine.execSha256Addh s
  | .sha256Nextblk => Sys2Proof.Machine.execSha256Nextblk s
  | .sha256Serialize => Sys2Proof.Machine.execSha256Serialize s
  | .sha256Hexenc => Sys2Proof.Machine.execSha256Hexenc s

end Sys2Proof.Machine
end

