-- ==== Sys2Proof/Machine/Microprogram.lean ====
section
/-! DEFINITION. The microprogram and a unit's own step (spec/44_sequencer.md R191, R200, R201). -/

namespace Sys2Proof.Machine

/-- `A` of R200, the `alg` bit of the unit's operation words. -/
def algBase (u : UnitId) : Nat := unitAlg u * 2 ^ 15

/-- The microprogram `uop(u, phase, step)` (R200); `none` where it is undefined. -/
def uop (u : UnitId) (ph : Phase) (st : Nat) : Option OpWord :=
  let word (n : Nat) : Option OpWord := some (BitVec.ofNat 16 (algBase u + n))
  match ph with
  | .start => if st = 0 then word 0x0200 else if st = 1 then word 0x0300 else none
  | .padding => if st = 0 then word 0x0400 else none
  | .processingBlock =>
    if st ≤ 15 then word (0x0500 + st)
    else if st ≤ Config.nw u - 1 then word (0x0600 + st)
    else if st = Config.nw u then word 0x0700
    else if st ≤ Config.nw u + Config.nr u then word (0x0800 + (st - (Config.nw u + 1)))
    else if st = Config.nw u + Config.nr u + 1 then word 0x0900
    else if st = Config.nw u + Config.nr u + 2 then word 0x0A00
    else none
  | .finalizing => if st = 0 then word 0x0B00 else if st = 1 then word 0x0C00 else none
  | .idle => none
  | .finalized => none
  | .failed => none

/-- The operation of an operation word that has a meaning; a reserved word has none (R85). -/
def execWord (w : OpWord) (s : State) : Host.Outcome State Fault Refusal :=
  match decode w with
  | .op i => exec i s
  | .reserved _ => .refused .reservedWord

/-- The step of a busy unit: the micro-operation at its position (R201). -/
def sequencerStep (u : UnitId) (s : State) : Host.Outcome State Fault Refusal :=
  match uop u (s.unit u).pos.phase (s.unit u).pos.step with
  | none => .refused .noMicroOperation
  | some w => execWord w s

/-- The position at which the microprogram issues an operation (R191, R200); `START` is issued by the host only. -/
def positionOf : Instr → Option (Phase × Nat)
  | .sha1Start => none
  | .sha1Checklen => some (.start, 0)
  | .sha1Init => some (.start, 1)
  | .sha1Pad => some (.padding, 0)
  | .sha1Wload j => some (.processingBlock, j)
  | .sha1Wexp i => some (.processingBlock, i)
  | .sha1Loadv => some (.processingBlock, 80)
  | .sha1Round t => some (.processingBlock, 81 + t)
  | .sha1Addh => some (.processingBlock, 161)
  | .sha1Nextblk => some (.processingBlock, 162)
  | .sha1Serialize => some (.finalizing, 0)
  | .sha1Hexenc => some (.finalizing, 1)
  | .sha256Start => none
  | .sha256Checklen => some (.start, 0)
  | .sha256Init => some (.start, 1)
  | .sha256Pad => some (.padding, 0)
  | .sha256Wload j => some (.processingBlock, j)
  | .sha256Wexp i => some (.processingBlock, i)
  | .sha256Loadv => some (.processingBlock, 64)
  | .sha256Round t => some (.processingBlock, 65 + t)
  | .sha256Addh => some (.processingBlock, 129)
  | .sha256Nextblk => some (.processingBlock, 130)
  | .sha256Serialize => some (.finalizing, 0)
  | .sha256Hexenc => some (.finalizing, 1)

end Sys2Proof.Machine
end

