-- ==== Sys2Proof/Machine/HostPort.lean ====
section
/-! DEFINITION. What the host may do to a unit, by phase (spec/20_memory.md R65, R71; spec/30_encoding.md R86;
spec/44_sequencer.md R187; spec/60_exceptions.md R223). -/

namespace Sys2Proof.Machine

/-- Record what an access was answered. -/
def UnitState.answer {u : UnitId} (x : UnitState u) (r : HostReply) : UnitState u := { x with reply := some r }

/-- The writes that are held while the unit is busy (R71): the message, its length, and a command. -/
def holdable : HostWrite → Bool
  | .msg j _ => decide (j ≤ Config.maxMsgAddr)
  | .mlen _ => true
  | .cmd _ => true
  | .status _ => false
  | .nblk _ => false
  | .otherReg _ _ => false
  | .dig _ _ => false
  | .hex _ _ => false
  | .internal _ _ => false

/-- A word accepted for consideration by `CMD_u` in a ready phase (R86, R223): the unit's own `START` executes; any other word is
an illegal command, `ERR_u <- 2` and nothing else. -/
def command (u : UnitId) (w : OpWord) (s : State) : Host.Outcome State Fault Refusal :=
  if decode w = .op (Instr.start u) then exec (Instr.start u) (s.setUnit u ((s.unit u).answer .accepted))
  else .next (s.setUnit u (({ s.unit u with err := errIllegalCommand }).answer .refused))

/-- A host write taking effect in a ready phase (R71). -/
def writeEffect (u : UnitId) (w : HostWrite) (s : State) : Host.Outcome State Fault Refusal :=
  let x := s.unit u
  let refuse : Host.Outcome State Fault Refusal := .next (s.setUnit u (x.answer .refused))
  match w with
  | .msg j b =>
    if j ≤ Config.maxMsgAddr then .next (s.setUnit u (({ x with msg := Memory.write x.msg j b }).answer .accepted))
    else refuse
  | .mlen n => .next (s.setUnit u (({ x with mlen := some n }).answer .accepted))
  | .cmd c => command u c s
  | .status _ => refuse
  | .nblk _ => refuse
  | .otherReg _ _ => refuse
  | .dig _ _ => refuse
  | .hex _ _ => refuse
  | .internal _ _ => refuse

/-- A host write (R71): in a busy phase it is held, or refused where it never takes effect. -/
def hostWrite (u : UnitId) (w : HostWrite) (s : State) : Host.Outcome State Fault Refusal :=
  let x := s.unit u
  if busy x.pos.phase then
    if holdable w then .next (s.setUnit u (({ x with held := some w }).answer .held))
    else .next (s.setUnit u (x.answer .refused))
  else writeEffect u w s

/-- The phases in which the host reads a value from `NBLK_u` (R26). -/
def nblkReadable : Phase → Bool
  | .processingBlock => true
  | .finalizing => true
  | .finalized => true
  | .idle => false
  | .start => false
  | .padding => false
  | .failed => false

/-- Answer a host read with what the place holds; a read of `NOVAL` is recorded and given no value (R71, R235 a, U2). -/
def UnitState.answerRead {u : UnitId} (x : UnitState u) (what : Store) (r : Option HostReply) : UnitState u :=
  (x.record what r.isNone).answer (r.getD .noValue)

/-- A byte of the digest, raw or textual, that the host reads (R71): a value only in `Finalized`. -/
def readDigest {u : UnitId} (x : UnitState u) (what : Store) (m : Memory) (size j : Nat) : UnitState u :=
  if j < size then x.answerRead what (if x.pos.phase = .finalized then (Memory.read m j).map .byte else none)
  else x.answer .refused

/-- A host read (R71): it changes nothing of the CORE (R63). A read of `CMD_u` returns `NOVAL` (R29, R71). -/
def hostRead {u : UnitId} (r : HostRead) (x : UnitState u) : UnitState u :=
  match r with
  | .status => x.answer (.status x.status)
  | .mlen => x.answerRead .mlen (x.mlen.map .number)
  | .nblk => x.answerRead .nblk (if nblkReadable x.pos.phase then x.nblk.map .number else none)
  | .cmd => x.answerRead .cmd none
  | .otherReg _ => x.answer .refused
  | .msg j => if j ≤ Config.maxMsgAddr then x.answerRead .msg ((Memory.read x.msg j).map .byte) else x.answer .refused
  | .dig j => readDigest x .dig x.dig (Config.db u) j
  | .hex j => readDigest x .hex x.hex (Config.hx u) j
  | .internal _ => x.answer .refused

/-- One access of the host to unit `u`. -/
def hostAccess (u : UnitId) (op : HostOp) (s : State) : Host.Outcome State Fault Refusal :=
  match op with
  | .write w => hostWrite u w s
  | .read r => .next (s.setUnit u (hostRead r (s.unit u)))

end Sys2Proof.Machine
end

