-- ==== Sys2Proof/Machine/Moves.lean ====
section
/-! DEFINITION. The moves of the CORE and which of them is next (spec/44_sequencer.md R187, R201; spec/70_reset_and_hazards.md
R250), and where an operation word is placed to be the next to run. -/

namespace Sys2Proof.Machine

/-- A unit can step when it is busy (R201), and when a held write waits for the ready phase it is now in (R71). -/
def unitEnabled {u : UnitId} (x : UnitState u) : Bool := busy x.pos.phase || x.held.isSome

/-- The host can access a unit when an access waits and no write to that unit is held (R187). -/
def hostEnabled {u : UnitId} (x : UnitState u) : Bool := !x.inbox.isEmpty && x.held.isNone

/-- A move that can be made in this state. -/
def enabled (s : State) : Move → Bool
  | .unit u => unitEnabled (s.unit u)
  | .host u => hostEnabled (s.unit u)
  | .reset => true

/-- A unit's own step: its micro-operation if it is busy (R201), else its held write taking effect (R71). -/
def unitMove (u : UnitId) (s : State) : Host.Outcome State Fault Refusal :=
  if busy (s.unit u).pos.phase then sequencerStep u s
  else
    match (s.unit u).held with
    | none => .refused .noStep
    | some w => writeEffect u w (s.setUnit u { s.unit u with held := none })

/-- The next host access to a unit. -/
def hostMove (u : UnitId) (s : State) : Host.Outcome State Fault Refusal :=
  match (s.unit u).inbox with
  | [] => .refused .noStep
  | op :: rest => hostAccess u op (s.setUnit u { s.unit u with inbox := rest })

/-- A unit after a reset from outside (R250): every piece of state at its reset value; the accesses the host has yet to make
and the count of free values used are no state of the CORE and stay. -/
def UnitState.afterReset {u : UnitId} (x : UnitState u) : UnitState u :=
  { UnitState.reset u with inbox := x.inbox, draws := x.draws }

/-- Reset acts on both units at once (R250). -/
def resetMove (s : State) : State := { s with s1 := s.s1.afterReset, s256 := s.s256.afterReset }

/-- Make a move. -/
def perform (m : Move) (s : State) : Host.Outcome State Fault Refusal :=
  match m with
  | .unit u => unitMove u s
  | .host u => hostMove u s
  | .reset => .next (resetMove s)

/-- The order in which moves are tried when the schedule does not choose one. -/
def defaultMoves : List Move := [.unit .s1, .unit .s256, .host .s1, .host .s256]

/-- The move the state makes next (R201): the one the schedule names if it can be made, else the first that can. -/
def nextMove (s : State) : Option Move := (s.sched.take 1 ++ defaultMoves).find? (enabled s)

/-- Make the next move; the schedule's entry is used up. -/
def stepMove (s : State) : Host.Outcome State Fault Refusal :=
  match nextMove s with
  | none => .refused .noStep
  | some m => perform m { s with sched := s.sched.tail }

/-- Place a micro-operation of unit `u` to be the next to run: the sequencer at its position, and the unit chosen to move. -/
def placeMicroOp (s : State) (u : UnitId) (ph : Phase) (st : Nat) : State :=
  let x := s.unit u
  let blk := if ph = .processingBlock ∧ x.pos.phase = .processingBlock then x.pos.blk else 0
  { s.setUnit u { x with pos := ⟨ph, blk, st⟩ } with sched := .unit u :: s.sched }

/-- Place a word to be the next that the host writes to `CMD_u`, with the unit ready to consider it. -/
def placeCommand (s : State) (u : UnitId) (w : OpWord) : State :=
  let x := s.unit u
  let pos : Pos := if busy x.pos.phase then ⟨.idle, 0, 0⟩ else x.pos
  { s.setUnit u { x with pos := pos, held := none, inbox := .write (.cmd w) :: x.inbox } with sched := .host u :: s.sched }

/-- Place an operation word to be the next to run: a micro-operation at the sequencer's position, any other word at `CMD_u`. -/
def placeWord (s : State) (nbits w : Nat) : State :=
  let word := BitVec.ofNat 16 (w % 2 ^ nbits)
  match decodeTableWord nbits w with
  | none => placeCommand s (algUnit (slice word.toNat 15 15)) word
  | some i =>
    match positionOf i with
    | none => placeCommand s i.unit word
    | some p => placeMicroOp s i.unit p.1 p.2

end Sys2Proof.Machine
end

