-- ==== Sys2Proof/Machine/Step.lean ====
section
/-! DEFINITION. One step of the CORE (spec/44_sequencer.md R201), and a state whose next step runs a given operation word. -/

namespace Sys2Proof.Machine

/-- One step: one move of one unit, of the host, or of reset (R201). -/
def step (s : State) : Host.Outcome State Fault Refusal := stepMove s

/-- The state with an operation word placed so that the very next step runs it: for a micro-operation the sequencer's position
and the choice of its unit, for `START` (and any word that is no operation) a host write to `CMD_u`. -/
def State.withFetchWord (s : State) (nbits w : Nat) : State := placeWord s nbits w

end Sys2Proof.Machine
end

