-- ==== Sys2Proof/Machine/Contracts.lean ====
section
/-! DEFINITION. The document's contracts as functions (spec/30_encoding.md R89): `PADMSG` (R107), `EXPAND` (R129), `COMPRESS`
(R155), `FINALIZE` (R175) and `DIGEST` (R205). The machine's steps do not call these; claims compare them with what the steps do. -/

namespace Sys2Proof.Machine

/-- Word `i` of a sequence of Words (the rules name no index outside it). -/
def wordAt {n : Nat} (w : Vector Word n) (i : Nat) : Word := if h : i < n then w.get ⟨i, h⟩ else 0

/-- `PADMSG(m)` (R107): byte `j` is `PMbyte(j)` of R103. R107 leaves it undefined when `8*len(m) >= 2^64`; that it is then the same
formula, its length field modulo `2^64`, is the model's choice (DESIGN CHOICE, log entry 21). -/
def padmsg (m : List Byte) : List Byte :=
  (List.range (64 * blockCount m.length)).map fun j => (m[j]?).getD (padByte m.length j)

/-- Block `i` of a padded message: the 64 bytes from `64*i` (R52). -/
def blockOf (p : List Byte) (i : Nat) : List Byte := (p.drop (64 * i)).take 64

/-- Word `j` of a block, big-endian (R56); bytes beyond a shorter block, which no rule has, count as 0 (log entry 17). -/
def blockWord (b : List Byte) (j : Nat) : Word :=
  be32 (b.getD (4 * j) 0) (b.getD (4 * j + 1) 0) (b.getD (4 * j + 2) 0) (b.getD (4 * j + 3) 0)

/-- The recurrence of unit `u` at position `i` (R122, R124). -/
def expandWord : (u : UnitId) → Vector Word (Config.nw u) → Nat → Word
  | .s1, w, i => expandS1 (wordAt w (i - 3)) (wordAt w (i - 8)) (wordAt w (i - 14)) (wordAt w (i - 16))
  | .s256, w, i => expandS256 (wordAt w (i - 16)) (wordAt w (i - 15)) (wordAt w (i - 7)) (wordAt w (i - 2))

/-- The schedule after the 16 Words of the block and `k` entries more. -/
def expandSteps (u : UnitId) (b : List Byte) : Nat → Vector Word (Config.nw u)
  | 0 => Vector.ofFn fun k => if k.val < 16 then blockWord b k.val else 0
  | k + 1 =>
    let w := expandSteps u b k
    Vector.ofFn fun j => if j.val = 16 + k then expandWord u w (16 + k) else w.get j

/-- `EXPAND_u(B)` (R129). -/
def expand (u : UnitId) (b : List Byte) : Vector Word (Config.nw u) := expandSteps u b (Config.nw u - 16)

/-- `v_t`: the tuple after `t` rounds from the State `s` over the schedule `w` (R155). -/
def roundsFrom (u : UnitId) (s : Vector Word (Config.ns u)) (w : Vector Word (Config.nw u)) :
    Nat → Vector Word (Config.ns u)
  | 0 => s
  | t + 1 => roundOf u t (wordAt w t) (roundsFrom u s w t)

/-- `COMPRESS_u(s, w)` (R155). -/
def compress (u : UnitId) (s : Vector Word (Config.ns u)) (w : Vector Word (Config.nw u)) : Vector Word (Config.ns u) :=
  addWords s (roundsFrom u s w (Config.nr u))

/-- The State after `i` blocks of the padded message `p` (R156). -/
def stateAfter (u : UnitId) (p : List Byte) : Nat → Vector Word (Config.ns u)
  | 0 => Config.iv u
  | i + 1 => compress u (stateAfter u p i) (expand u (blockOf p i))

/-- `FINALIZE`: `RAW_u(s)` and `TEXT_u(s)` (R175). -/
def finalize {n : Nat} (s : Vector Word n) : List Byte × List Byte := (rawBytes s, hexText (rawBytes s))

/-- `DIGEST_u(m)` (R205); `none` is the failure `MessageTooLarge`. -/
def digest (u : UnitId) (m : List Byte) : Option (List Byte × List Byte) :=
  if Config.lengthLimit ≤ 8 * m.length then none
  else some (finalize (stateAfter u (padmsg m) (blockCount m.length)))

end Sys2Proof.Machine
end

