-- ==== Sys2Proof/Safety.lean ====
section
/-! DEFINITION. What counts as a safe state: the invariant every step keeps, and the one thing a host can forget before a
computation (spec/10_state.md R24 to R30, R38, R39; spec/20_memory.md R50 to R54; spec/44_sequencer.md R191, R200, R204). -/

namespace Sys2Proof.Machine

/-- The space holds a byte at exactly the addresses `0 .. k-1`. -/
def Memory.Fills (m : Memory) (k : Nat) : Prop := ∀ a, (Memory.read m a).isSome = true ↔ a < k

/-- The space holds no byte at or above `k`. -/
def Memory.Within (m : Memory) (k : Nat) : Prop := ∀ a, (Memory.read m a).isSome = true → a < k

/-- The positions of R200, and of the ready phases (R24, R191). -/
def legalPos (u : UnitId) (p : Pos) : Prop :=
  match p.phase with
  | .idle => p.blk = 0 ∧ p.step = 0
  | .start => p.blk = 0 ∧ p.step ≤ 1
  | .padding => p.blk = 0 ∧ p.step = 0
  | .processingBlock => p.step ≤ Config.nw u + Config.nr u + 2
  | .finalizing => p.blk = 0 ∧ p.step ≤ 1
  | .finalized => p.blk = 0 ∧ p.step = 0
  | .failed => p.blk = 0 ∧ p.step = 0

/-- The values of `ERR_u` in a phase (R204, R228): no busy phase shows an error, only `Failed` can show `MessageTooLarge`. -/
def legalErr (ph : Phase) (err : BitVec 2) : Prop :=
  match ph with
  | .idle => err = errNone ∨ err = errIllegalCommand
  | .start => err = errNone
  | .padding => err = errNone
  | .processingBlock => err = errNone
  | .finalizing => err = errNone
  | .finalized => err = errNone ∨ err = errIllegalCommand
  | .failed => err = errMessageTooLarge ∨ err = errIllegalCommand

/-- The positions that only a computation whose `CHECKLEN` passed reaches and the host cannot change `MLEN_u` in (R71, R188). -/
def lengthChecked (p : Pos) : Prop :=
  match p.phase with
  | .idle => False
  | .start => p.step = 1
  | .padding => True
  | .processingBlock => True
  | .finalizing => True
  | .finalized => False
  | .failed => False

/-- The phases in which `H_u` holds the State: from `INIT` to the next `START` (R22, R141; in `Finalized`: log entry 22). -/
def hasChain : Phase → Bool
  | .idle => false
  | .start => false
  | .padding => true
  | .processingBlock => true
  | .finalizing => true
  | .finalized => true
  | .failed => false

/-- The positions at which `DIG_u` holds the digest: after `SERIALIZE` (R171). -/
def hasRaw (p : Pos) : Bool := (p.phase = .finalizing ∧ p.step = 1) ∨ p.phase = .finalized

/-- What a unit holds at its position where no read has met `NOVAL` since reset: every value the rules write up to there (R39). In
`Finalized` it says of `H_u` and `PM_u` what R204 does not say of an implementation: that they keep their contents (DESIGN CHOICE, log
entry 22). -/
structure UnitComplete {u : UnitId} (x : UnitState u) : Prop where
  length : lengthChecked x.pos → x.mlen ≠ none
  /-- `NBLK_u` and `PM_u` from `PAD` to the next `START` (R26, R52; `PM_u` in `Finalized`: log entry 22) -/
  blocks : nblkReadable x.pos.phase = true → ∃ n, x.nblk = some n ∧ Memory.Fills x.pm (64 * n)
  /-- `H_u` holds the State (R22; in `Finalized`: log entry 22) -/
  chain : hasChain x.pos.phase = true → ∀ k, (x.h.get k).isSome = true
  /-- the schedule entries written so far in this block (R23, R259) -/
  schedule : x.pos.phase = .processingBlock → ∀ k, k.val < x.pos.step → (x.w.get k).isSome = true
  /-- the working registers from `LOADV` to `NEXTBLK` (R21) -/
  working : x.pos.phase = .processingBlock → Config.nw u < x.pos.step → ∀ k, (x.v.get k).isSome = true
  raw : hasRaw x.pos = true → Memory.Fills x.dig (Config.db u)
  text : x.pos.phase = .finalized → Memory.Fills x.hex (Config.hx u)

/-- The invariant of one unit: which of its state can hold a value at its position, which values those can be, and that nothing is
missing unless a read of `NOVAL` is recorded. -/
structure UnitInv {u : UnitId} (x : UnitState u) : Prop where
  /-- every space is in canonical form -/
  msgWf : Memory.wf x.msg
  pmWf : Memory.wf x.pm
  digWf : Memory.wf x.dig
  hexWf : Memory.wf x.hex
  /-- `MSG_u` has no byte above its last address (R65) -/
  msgBound : Memory.Within x.msg (Config.maxMsgAddr + 1)
  pos : legalPos u x.pos
  err : legalErr x.pos.phase x.err
  length : lengthChecked x.pos → ∀ n, x.mlen = some n → 8 * n < Config.lengthLimit
  /-- a block count is in range, bounds the padded message and the block being processed (R26, R52, R65) -/
  blocks : ∀ n, x.nblk = some n → nblkReadable x.pos.phase = true ∧ 1 ≤ n ∧ n ≤ 2 ^ 55 + 1 ∧ Memory.Within x.pm (64 * n) ∧
    (x.pos.phase = .processingBlock → x.pos.blk < n)
  noBlocks : x.nblk = none → x.pm = []
  /-- values outside the positions the rules give them do not exist (R21, R22, R23, R53, R54) -/
  chain : hasChain x.pos.phase = false → ∀ k, x.h.get k = none
  schedule : ∀ k, (x.w.get k).isSome = true → x.pos.phase = .processingBlock ∧ k.val < x.pos.step
  working : ∀ k, (x.v.get k).isSome = true → x.pos.phase = .processingBlock ∧ Config.nw u < x.pos.step
  raw : Memory.Within x.dig (if hasRaw x.pos then Config.db u else 0)
  text : Memory.Within x.hex (if x.pos.phase = .finalized then Config.hx u else 0)
  /-- only a write that can be held is held (R71) -/
  heldOk : ∀ w, x.held = some w → holdable w = true
  /-- nothing is missing unless a read of `NOVAL` is recorded (R39) -/
  complete : x.noValueRead = none → UnitComplete x

/-- The invariant of the CORE. -/
def Inv (s : State) : Prop := ∀ u, UnitInv (s.unit u)

/-- The host wrote what R252 asks before `START`: the length, and every byte of the message. -/
def HostReady {u : UnitId} (x : UnitState u) : Prop :=
  ∃ n, x.mlen = some n ∧ ∀ j, j < n → (Memory.read x.msg j).isSome = true

/-- The bytes of `m` are the message of the unit: `MLEN_u` is their number and `MSG_u[j]` is byte `j` (R51). -/
def HasMessage {u : UnitId} (x : UnitState u) (m : List Byte) : Prop :=
  x.mlen = some m.length ∧ ∀ j, j < m.length → Memory.read x.msg j = m[j]?

/-- The unit holds the digest `d`: raw in `DIG_u`, text in `HEX_u` (R53, R54, R205). -/
def HoldsDigest {u : UnitId} (x : UnitState u) (d : List Byte × List Byte) : Prop :=
  (∀ j, j < Config.db u → Memory.read x.dig j = d.1[j]?) ∧ (∀ j, j < Config.hx u → Memory.read x.hex j = d.2[j]?)

/-- `k` steps of unit `u` alone (R201): its micro-operations, one after the other. -/
def unitSteps (u : UnitId) : Nat → State → Host.Outcome State Fault Refusal
  | 0, s => .next s
  | k + 1, s =>
    match unitMove u s with
    | .next t => unitSteps u k t
    | .fault r => .fault r
    | .refused r => .refused r

/-- Two units that agree in everything the CORE holds but the message memory, of which no byte past the length matters (R51, U4); the
model's own fields may differ too. -/
def SameComputation {u : UnitId} (x y : UnitState u) : Prop :=
  y = { x with msg := y.msg, inbox := y.inbox, reply := y.reply, noValueRead := y.noValueRead, draws := y.draws }

end Sys2Proof.Machine
end

