-- ==== Sys2Proof/Certificates/Slice0/Obligations.lean ====
section
/-! DEFINITION. The statements for the provers. Each docstring names the rule of spec/ it formalises. -/

open Sys2Proof Sys2Proof.Machine

/-! ### Encoding -/

/-- One word of each family, written out from the fields of R81 (`alg` bit 15, `000`, `op` bits 11:8, `idx` bits 7:0). -/
def Obligations.SampleWordsDecode : Prop :=
  decode 0b0000000100000000 = .op .sha1Start ∧ decode 0b1000001000000000 = .op .sha256Checklen ∧
  decode 0b0000010000000000 = .op .sha1Pad ∧ decode 0b1000010100001111 = .op (.sha256Wload 15) ∧
  decode 0b0000011001001111 = .op (.sha1Wexp 79) ∧ decode 0b1000100000111111 = .op (.sha256Round 63) ∧
  decode 0b1000110000000000 = .op .sha256Hexenc ∧ decode 0b0000010100010000 = .reserved .idx ∧
  decode 0 = .reserved .op ∧ decode 0xFFFF = .reserved .zeroField

/-- Every well-formed operation, with every index the encoding admits, is read back from its word (R81, R84, R87). -/
def Obligations.DecodeReturnsEncodedOperation : Prop :=
  ∀ i : Instr, WellFormed i = true → decode (encode i) = .op i

/-- A word that spells an operation is that operation's encoding, and the operation is well-formed (R81, R84): no two words
spell one operation and no word spells an index out of range. -/
def Obligations.DecodedWordIsTheEncoding : Prop :=
  ∀ (w : OpWord) (i : Instr), decode w = .op i → WellFormed i = true ∧ encode i = w

/-- The reserved words are exactly those of R85: bits 14:12 not `000`, `op` one of `0x0`, `0xD`, `0xE`, `0xF`, or `idx` outside
the range of R84 for the unit and the operation. -/
def Obligations.ReservedWordsAreExactlyThese : Prop :=
  ∀ w : OpWord,
    let alg := w.toNat / 2 ^ 15
    let op := w.toNat / 2 ^ 8 % 16
    let idx := w.toNat % 2 ^ 8
    (∃ why, decode w = .reserved why) ↔
      (w.toNat / 2 ^ 12 % 8 ≠ 0 ∨ op = 0x0 ∨ op = 0xD ∨ op = 0xE ∨ op = 0xF ∨
        (op = 0x5 ∧ 15 < idx) ∨
        (op = 0x6 ∧ (idx < 16 ∨ (if alg = 0 then 79 else 63) < idx)) ∨
        (op = 0x8 ∧ (if alg = 0 then 79 else 63) < idx) ∨
        (op ≠ 0x5 ∧ op ≠ 0x6 ∧ op ≠ 0x8 ∧ idx ≠ 0))

/-! ### Words and bytes -/

/-- The rotations and the shift of R11 to R13, given there by arithmetic on natural numbers, are the rotations and the logical
shift of 32-bit vectors, with the amount taken modulo 32. -/
def Obligations.RotationsAreBitRotations : Prop :=
  ∀ (x : Word) (s : Nat),
    rotl32 x s = x.rotateLeft s ∧ rotr32 x s = x.rotateRight s ∧ shr32 x s = x >>> (s % 32)

/-- `be32` assembles the four bytes of a Word back into it, and `byte_k` takes them apart again (R15). -/
def Obligations.BigEndianBytesRecoverTheWord : Prop :=
  (∀ x : Word, be32 (byteOf 0 x) (byteOf 1 x) (byteOf 2 x) (byteOf 3 x) = x) ∧
  ∀ b0 b1 b2 b3 : Byte, wordBytes (be32 b0 b1 b2 b3) = [b0, b1, b2, b3]

/-- The SHA-1 functions of rounds 0 to 19 and 40 to 59 (R143) are the SHA-256 functions `ch` and `maj` (R149, R150), and each of their
bits is chosen as those rules say: by the bit of the first Word, and by the majority of the three. -/
def Obligations.LogicalFunctionsChooseAndVote : Prop :=
  ∀ x y z : Word,
    (∀ t ≤ 19, f1 t x y z = ch x y z) ∧ (∀ t, 40 ≤ t → t ≤ 59 → f1 t x y z = maj x y z) ∧
    (∀ k < 32, (ch x y z).getLsbD k = if x.getLsbD k then y.getLsbD k else z.getLsbD k) ∧
    (∀ k < 32, (maj x y z).getLsbD k = decide (2 ≤ (x.getLsbD k).toNat + (y.getLsbD k).toNat + (z.getLsbD k).toNat))

/-- The derivation of the SHA-256 constants (R33, R34): `IV256[k]` is the first 32 bits of the fractional part of the square root
of the `k`-th prime, and `K256[t]` those of the cube root of the `t`-th prime. The primes are written out; the last clauses say
that they are the primes below 312, in order. -/
def Obligations.Sha256ConstantsAreRootFractions : Prop :=
  let primes : List Nat :=
    [2, 3, 5, 7, 11, 13, 17, 19, 23, 29, 31, 37, 41, 43, 47, 53] ++
    [59, 61, 67, 71, 73, 79, 83, 89, 97, 101, 103, 107, 109, 113, 127, 131] ++
    [137, 139, 149, 151, 157, 163, 167, 173, 179, 181, 191, 193, 197, 199, 211, 223] ++
    [227, 229, 233, 239, 241, 251, 257, 263, 269, 271, 277, 281, 283, 293, 307, 311]
  (∀ k : Fin 8, ∃ n < 5,
    let r := n * 2 ^ 32 + (Config.iv256.get k).toNat
    r ^ 2 ≤ primes.getD k.val 0 * 2 ^ 64 ∧ primes.getD k.val 0 * 2 ^ 64 < (r + 1) ^ 2) ∧
  (∀ t : Fin 64, ∃ n < 7,
    let r := n * 2 ^ 32 + (Config.k256.get t).toNat
    r ^ 3 ≤ primes.getD t.val 0 * 2 ^ 96 ∧ primes.getD t.val 0 * 2 ^ 96 < (r + 1) ^ 3) ∧
  (∀ p < 312, p ∈ primes ↔ Nat.Prime p) ∧ (∀ p ∈ primes, p < 312) ∧ primes.Pairwise (· < ·)

/-! ### Padding as a function -/

/-- The padded message as the document states it (R102): the message, the byte `0x80`, `z` zero bytes and the bit length as
8 big-endian bytes, where `8*z + 7` is the least `k` that makes `L + 1 + k` congruent to 448 modulo 512; that length is the `64*N` of R101.
For a message of 2^64 bits or more `PADMSG` is undefined (R107) and what is said of it here is the model's choice (log entry 21). -/
def Obligations.PaddedMessageIsMessageMarkerZerosLength : Prop :=
  ∀ m : List Byte,
    let n := m.length
    let z := 64 * blockCount n - n - 9
    let k := 8 * z + 7
    padmsg m = m ++ [(0x80 : Byte)] ++ List.replicate z (0 : Byte) ++
        [56, 48, 40, 32, 24, 16, 8, 0].map (fun e => BitVec.ofNat 8 (8 * n / 2 ^ e)) ∧
      (8 * n + 1 + k) % 512 = 448 ∧ (∀ k' < k, (8 * n + 1 + k') % 512 ≠ 448) ∧ 8 * n + 1 + k + 64 = 512 * blockCount n

/-- The padding adds at least 9 and at most 72 bytes, to a whole number of blocks (R105 a, b), between one and `2^55 + 1` blocks for a
legal length (R101), and the map from legal messages to padded messages is injective (R105 d). For a message of 2^64 bits or more `PADMSG`
is undefined (R107) and what is said of it here is the model's choice (log entry 21). -/
def Obligations.PaddingIsWholeBlocksAndInjective : Prop :=
  (∀ m : List Byte,
    (padmsg m).length = 64 * ((m.length + 8) / 64 + 1) ∧
    m.length + 9 ≤ (padmsg m).length ∧ (padmsg m).length ≤ m.length + 72 ∧
    (m.length ≤ 2 ^ 61 - 1 → (padmsg m).length ≤ 64 * (2 ^ 55 + 1))) ∧
  ∀ m m' : List Byte, 8 * m.length < 2 ^ 64 → 8 * m'.length < 2 ^ 64 → padmsg m = padmsg m' → m = m'

/-! ### What each operation does. Every equation gives the whole next state, so it is the operation's frame too. -/

/-- `START` in a ready phase (R186): the error cleared, everything of an earlier computation `NOVAL`, `MSG_u` and `MLEN_u` kept,
the position at the beginning of a computation; its encodings. -/
def Obligations.StartBeginsAComputation : Prop :=
  (encode .sha1Start = 0x0100 ∧ ∀ s : State, busy s.s1.pos.phase = false →
    exec .sha1Start s = .next { s with s1 := { s.s1 with
      err := 0, nblk := none, pm := [], w := Cells.noval 80, v := Cells.noval 5, h := Cells.noval 5, dig := [], hex := [],
      pos := ⟨.start, 0, 0⟩ } }) ∧
  (encode .sha256Start = 0x8100 ∧ ∀ s : State, busy s.s256.pos.phase = false →
    exec .sha256Start s = .next { s with s256 := { s.s256 with
      err := 0, nblk := none, pm := [], w := Cells.noval 64, v := Cells.noval 8, h := Cells.noval 8, dig := [], hex := [],
      pos := ⟨.start, 0, 0⟩ } })

/-- `CHECKLEN` on a legal length (R188): `step_u <- 1` and nothing else, up to `n = 2^61 - 1`. -/
def Obligations.ChecklenPassesLegalLength : Prop :=
  encode .sha1Checklen = 0x0200 ∧ encode .sha256Checklen = 0x8200 ∧
  (∀ (s : State) (n : Nat), s.s1.pos.phase = .start → s.s1.pos.step = 0 → s.s1.mlen = some n → n ≤ 2 ^ 61 - 1 →
    exec .sha1Checklen s = .next { s with s1 := { s.s1 with pos := ⟨.start, s.s1.pos.blk, 1⟩ } }) ∧
  (∀ (s : State) (n : Nat), s.s256.pos.phase = .start → s.s256.pos.step = 0 → s.s256.mlen = some n → n ≤ 2 ^ 61 - 1 →
    exec .sha256Checklen s = .next { s with s256 := { s.s256 with pos := ⟨.start, s.s256.pos.blk, 1⟩ } })

/-- `CHECKLEN` on a length whose bits do not fit (R188, R221): the exception entry of R227, `ERR_u <- 1` and
`pos_u <- (Failed, 0, 0)`, nothing else written; the host then reads `0x26` from `STATUS_u`. -/
def Obligations.ChecklenRaisesMessageTooLarge : Prop :=
  (∀ (s : State) (n : Nat), s.s1.pos.phase = .start → s.s1.pos.step = 0 → s.s1.mlen = some n → 2 ^ 64 ≤ 8 * n →
    exec .sha1Checklen s = .next { s with s1 := { s.s1 with err := 1, pos := ⟨.failed, 0, 0⟩ } } ∧
    statusByte .failed 1 = 0x26) ∧
  (∀ (s : State) (n : Nat), s.s256.pos.phase = .start → s.s256.pos.step = 0 → s.s256.mlen = some n → 2 ^ 64 ≤ 8 * n →
    exec .sha256Checklen s = .next { s with s256 := { s.s256 with err := 1, pos := ⟨.failed, 0, 0⟩ } })

/-- `INIT` (R141): `H_u` from the constants, `pos_u <- (Padding, 0, 0)`; its encodings. -/
def Obligations.InitLoadsTheInitialState : Prop :=
  (encode .sha1Init = 0x0300 ∧ ∀ s : State, s.s1.pos.phase = .start → s.s1.pos.step = 1 →
    exec .sha1Init s = .next { s with s1 := { s.s1 with
      h := #v[some 0x67452301, some 0xEFCDAB89, some 0x98BADCFE, some 0x10325476, some 0xC3D2E1F0],
      pos := ⟨.padding, 0, 0⟩ } }) ∧
  (encode .sha256Init = 0x8300 ∧ ∀ s : State, s.s256.pos.phase = .start → s.s256.pos.step = 1 →
    exec .sha256Init s = .next { s with s256 := { s.s256 with
      h := #v[some 0x6A09E667, some 0xBB67AE85, some 0x3C6EF372, some 0xA54FF53A,
              some 0x510E527F, some 0x9B05688C, some 0x1F83D9AB, some 0x5BE0CD19],
      pos := ⟨.padding, 0, 0⟩ } })

/-- `PAD` on a legal message every byte of which the host wrote (R104): `NBLK_u <- N`, every byte of `PM_u[0 .. 64*N-1]` as R103
gives it, every other address of `PM_u` as before, `pos_u <- (ProcessingBlock, 0, 0)`, and nothing else written; its encodings. -/
def Obligations.PadWritesThePaddedMessage : Prop :=
  encode .sha1Pad = 0x0400 ∧ encode .sha256Pad = 0x8400 ∧
  (∀ (s : State) (n : Nat), s.s1.pos.phase = .padding → s.s1.pos.step = 0 → s.s1.mlen = some n → 8 * n < 2 ^ 64 →
    (∀ j, j < n → (Memory.read s.s1.msg j).isSome = true) →
    ∃ pm : Memory,
      exec .sha1Pad s = .next { s with s1 := { s.s1 with
        nblk := some ((n + 8) / 64 + 1), pm := pm, pos := ⟨.processingBlock, 0, 0⟩ } } ∧
      ∀ j, Memory.read pm j =
        if j < n then Memory.read s.s1.msg j
        else if j = n then some 0x80
        else if j < 64 * ((n + 8) / 64 + 1) - 8 then some 0x00
        else if j < 64 * ((n + 8) / 64 + 1) then
          some (BitVec.ofNat 8 (8 * n / 2 ^ (8 * (64 * ((n + 8) / 64 + 1) - 1 - j)) % 256))
        else Memory.read s.s1.pm j) ∧
  (∀ (s : State) (n : Nat), s.s256.pos.phase = .padding → s.s256.pos.step = 0 → s.s256.mlen = some n → 8 * n < 2 ^ 64 →
    (∀ j, j < n → (Memory.read s.s256.msg j).isSome = true) →
    ∃ pm : Memory,
      exec .sha256Pad s = .next { s with s256 := { s.s256 with
        nblk := some ((n + 8) / 64 + 1), pm := pm, pos := ⟨.processingBlock, 0, 0⟩ } } ∧
      ∀ j, Memory.read pm j =
        if j < n then Memory.read s.s256.msg j
        else if j = n then some 0x80
        else if j < 64 * ((n + 8) / 64 + 1) - 8 then some 0x00
        else if j < 64 * ((n + 8) / 64 + 1) then
          some (BitVec.ofNat 8 (8 * n / 2 ^ (8 * (64 * ((n + 8) / 64 + 1) - 1 - j)) % 256))
        else Memory.read s.s256.pm j)

/-- `WLOAD j` (R121): `W_u[j]` is the big-endian Word of the four bytes at `64*blk_u + 4*j` of `PM_u`, every other entry as before, `step_u
<- step_u + 1`, nothing else written; its encodings. That it reads no `NBLK_u` (R26 says `WLOAD` does, R37 and R121 do not) is the model's
choice (log entry 26). -/
def Obligations.WloadReadsABigEndianWord : Prop :=
  (∀ j ≤ 15, encode (.sha1Wload j) = BitVec.ofNat 16 (0x0500 + j) ∧ encode (.sha256Wload j) = BitVec.ofNat 16 (0x8500 + j)) ∧
  (∀ (s : State) (j : Nat) (hj : j ≤ 15) (b0 b1 b2 b3 : Byte),
    s.s1.pos.phase = .processingBlock → s.s1.pos.step = j →
    Memory.read s.s1.pm (64 * s.s1.pos.blk + 4 * j) = some b0 → Memory.read s.s1.pm (64 * s.s1.pos.blk + 4 * j + 1) = some b1 →
    Memory.read s.s1.pm (64 * s.s1.pos.blk + 4 * j + 2) = some b2 → Memory.read s.s1.pm (64 * s.s1.pos.blk + 4 * j + 3) = some b3 →
    exec (.sha1Wload j) s = .next { s with s1 := { s.s1 with
      w := s.s1.w.set j (some (be32 b0 b1 b2 b3)) (show j < 80 by omega),
      pos := ⟨.processingBlock, s.s1.pos.blk, j + 1⟩ } }) ∧
  (∀ (s : State) (j : Nat) (hj : j ≤ 15) (b0 b1 b2 b3 : Byte),
    s.s256.pos.phase = .processingBlock → s.s256.pos.step = j →
    Memory.read s.s256.pm (64 * s.s256.pos.blk + 4 * j) = some b0 → Memory.read s.s256.pm (64 * s.s256.pos.blk + 4 * j + 1) = some b1 →
    Memory.read s.s256.pm (64 * s.s256.pos.blk + 4 * j + 2) = some b2 → Memory.read s.s256.pm (64 * s.s256.pos.blk + 4 * j + 3) = some b3 →
    exec (.sha256Wload j) s = .next { s with s256 := { s.s256 with
      w := s.s256.w.set j (some (be32 b0 b1 b2 b3)) (show j < 64 by omega),
      pos := ⟨.processingBlock, s.s256.pos.blk, j + 1⟩ } })

/-- `SHA1.WEXP i` (R123): `W[i] <- rotl32(W[i-3] ^ W[i-8] ^ W[i-14] ^ W[i-16], 1)`, every other entry as before,
`step <- step + 1`, nothing else written; its encodings. -/
def Obligations.Sha1WexpFollowsTheRecurrence : Prop :=
  (∀ i, 16 ≤ i → i ≤ 79 → encode (.sha1Wexp i) = BitVec.ofNat 16 (0x0600 + i)) ∧
  ∀ (s : State) (i : Nat) (_ : 16 ≤ i) (h : i ≤ 79) (w3 w8 w14 w16 : Word),
    s.s1.pos.phase = .processingBlock → s.s1.pos.step = i →
    s.s1.w.get ⟨i - 3, show i - 3 < 80 by omega⟩ = some w3 → s.s1.w.get ⟨i - 8, show i - 8 < 80 by omega⟩ = some w8 →
    s.s1.w.get ⟨i - 14, show i - 14 < 80 by omega⟩ = some w14 → s.s1.w.get ⟨i - 16, show i - 16 < 80 by omega⟩ = some w16 →
    exec (.sha1Wexp i) s = .next { s with s1 := { s.s1 with
      w := s.s1.w.set i (some (rotl32 (w3 ^^^ w8 ^^^ w14 ^^^ w16) 1)) (show i < 80 by omega),
      pos := ⟨.processingBlock, s.s1.pos.blk, i + 1⟩ } }

/-- `SHA256.WEXP i` (R127): `W[i] <- add32(W[i-16], ssig0(W[i-15]), W[i-7], ssig1(W[i-2]))` with `ssig0`, `ssig1` of R125 and
R126, every other entry as before, `step <- step + 1`, nothing else written; its encodings. -/
def Obligations.Sha256WexpFollowsTheRecurrence : Prop :=
  (∀ i, 16 ≤ i → i ≤ 63 → encode (.sha256Wexp i) = BitVec.ofNat 16 (0x8600 + i)) ∧
  ∀ (s : State) (i : Nat) (_ : 16 ≤ i) (h : i ≤ 63) (w16 w15 w7 w2 : Word),
    s.s256.pos.phase = .processingBlock → s.s256.pos.step = i →
    s.s256.w.get ⟨i - 16, show i - 16 < 64 by omega⟩ = some w16 → s.s256.w.get ⟨i - 15, show i - 15 < 64 by omega⟩ = some w15 →
    s.s256.w.get ⟨i - 7, show i - 7 < 64 by omega⟩ = some w7 → s.s256.w.get ⟨i - 2, show i - 2 < 64 by omega⟩ = some w2 →
    exec (.sha256Wexp i) s = .next { s with s256 := { s.s256 with
      w := s.s256.w.set i
        (some (w16 + (rotr32 w15 7 ^^^ rotr32 w15 18 ^^^ shr32 w15 3) + w7 + (rotr32 w2 17 ^^^ rotr32 w2 19 ^^^ shr32 w2 10)))
        (show i < 64 by omega),
      pos := ⟨.processingBlock, s.s256.pos.blk, i + 1⟩ } }

/-- `LOADV` (R142): the working registers are a copy of the State, `step_u <- step_u + 1`, nothing else written; its encodings. -/
def Obligations.LoadvCopiesTheState : Prop :=
  (encode .sha1Loadv = 0x0700 ∧ ∀ s : State, s.s1.pos.phase = .processingBlock → s.s1.pos.step = 80 →
    (∀ k, (s.s1.h.get k).isSome = true) →
    exec .sha1Loadv s = .next { s with s1 := { s.s1 with v := s.s1.h, pos := ⟨.processingBlock, s.s1.pos.blk, 81⟩ } }) ∧
  (encode .sha256Loadv = 0x8700 ∧ ∀ s : State, s.s256.pos.phase = .processingBlock → s.s256.pos.step = 64 →
    (∀ k, (s.s256.h.get k).isSome = true) →
    exec .sha256Loadv s = .next { s with s256 := { s.s256 with v := s.s256.h, pos := ⟨.processingBlock, s.s256.pos.blk, 65⟩ } })

/-- `SHA1.ROUND t` (R145), with `f1` of R143 and the round constant of R144: all five registers assigned at once from the old
ones, `step <- step + 1`, nothing else written; its encodings. -/
def Obligations.Sha1RoundRotatesTheTuple : Prop :=
  (∀ t ≤ 79, encode (.sha1Round t) = BitVec.ofNat 16 (0x0800 + t)) ∧
  ∀ (s : State) (t : Nat) (h : t ≤ 79) (a b c d e wt : Word),
    s.s1.pos.phase = .processingBlock → s.s1.pos.step = 81 + t →
    s.s1.v = #v[some a, some b, some c, some d, some e] → s.s1.w.get ⟨t, show t < 80 by omega⟩ = some wt →
    exec (.sha1Round t) s = .next { s with s1 := { s.s1 with
      v := #v[
        some (rotl32 a 5 +
          (if t ≤ 19 then (b &&& c) ||| (~~~b &&& d)
            else if t ≤ 39 then b ^^^ c ^^^ d
            else if t ≤ 59 then (b &&& c) ||| (b &&& d) ||| (c &&& d)
            else b ^^^ c ^^^ d) +
          e + wt +
          (if t ≤ 19 then 0x5A827999 else if t ≤ 39 then 0x6ED9EBA1 else if t ≤ 59 then 0x8F1BBCDC else 0xCA62C1D6)),
        some a, some (rotl32 b 30), some c, some d],
      pos := ⟨.processingBlock, s.s1.pos.blk, 81 + t + 1⟩ } }

/-- `SHA256.ROUND t` (R151), with the functions of R147 to R150 written out: all eight registers assigned at once from the old
ones, `step <- step + 1`, nothing else written; its encodings. -/
def Obligations.Sha256RoundRotatesTheTuple : Prop :=
  (∀ t ≤ 63, encode (.sha256Round t) = BitVec.ofNat 16 (0x8800 + t)) ∧
  ∀ (s : State) (t : Nat) (ht : t ≤ 63) (a b c d e f g h wt : Word),
    s.s256.pos.phase = .processingBlock → s.s256.pos.step = 65 + t →
    s.s256.v = #v[some a, some b, some c, some d, some e, some f, some g, some h] →
    s.s256.w.get ⟨t, show t < 64 by omega⟩ = some wt →
    let temp1 := h + (rotr32 e 6 ^^^ rotr32 e 11 ^^^ rotr32 e 25) + ((e &&& f) ^^^ (~~~e &&& g)) +
      Config.k256.get ⟨t, by omega⟩ + wt
    let temp2 := (rotr32 a 2 ^^^ rotr32 a 13 ^^^ rotr32 a 22) + ((a &&& b) ^^^ (a &&& c) ^^^ (b &&& c))
    exec (.sha256Round t) s = .next { s with s256 := { s.s256 with
      v := #v[some (temp1 + temp2), some a, some b, some c, some (d + temp1), some e, some f, some g],
      pos := ⟨.processingBlock, s.s256.pos.blk, 65 + t + 1⟩ } }

/-- `ADDH` (R153): each Word of the State is the sum modulo 2^32 of the State Word and the working register of its place,
`step_u <- step_u + 1`, nothing else written; its encodings. -/
def Obligations.AddhAddsWordByWord : Prop :=
  encode .sha1Addh = 0x0900 ∧ encode .sha256Addh = 0x8900 ∧
  (∀ (s : State) (x y : Vector Word 5), s.s1.pos.phase = .processingBlock → s.s1.pos.step = 161 →
    (∀ k, s.s1.h.get k = some (x.get k)) → (∀ k, s.s1.v.get k = some (y.get k)) →
    ∃ h : Cells 5, (∀ k, h.get k = some (BitVec.ofNat 32 (((x.get k).toNat + (y.get k).toNat) % 2 ^ 32))) ∧
      exec .sha1Addh s = .next { s with s1 := { s.s1 with h := h, pos := ⟨.processingBlock, s.s1.pos.blk, 162⟩ } }) ∧
  (∀ (s : State) (x y : Vector Word 8), s.s256.pos.phase = .processingBlock → s.s256.pos.step = 129 →
    (∀ k, s.s256.h.get k = some (x.get k)) → (∀ k, s.s256.v.get k = some (y.get k)) →
    ∃ h : Cells 8, (∀ k, h.get k = some (BitVec.ofNat 32 (((x.get k).toNat + (y.get k).toNat) % 2 ^ 32))) ∧
      exec .sha256Addh s = .next { s with s256 := { s.s256 with h := h, pos := ⟨.processingBlock, s.s256.pos.blk, 130⟩ } })

/-- `NEXTBLK` (R192): the schedule and the working registers become `NOVAL`, the position moves to the next block while blocks
remain and to the finalizer after the last, `H_u` and everything else kept; its encodings. -/
def Obligations.NextblkLoopsWhileBlocksRemain : Prop :=
  (encode .sha1Nextblk = 0x0A00 ∧ ∀ (s : State) (n : Nat), s.s1.pos.phase = .processingBlock → s.s1.pos.step = 162 →
    s.s1.nblk = some n →
    exec .sha1Nextblk s = .next { s with s1 := { s.s1 with
      w := Cells.noval 80, v := Cells.noval 5,
      pos := if s.s1.pos.blk + 1 < n then ⟨.processingBlock, s.s1.pos.blk + 1, 0⟩ else ⟨.finalizing, 0, 0⟩ } }) ∧
  (encode .sha256Nextblk = 0x8A00 ∧ ∀ (s : State) (n : Nat), s.s256.pos.phase = .processingBlock → s.s256.pos.step = 130 →
    s.s256.nblk = some n →
    exec .sha256Nextblk s = .next { s with s256 := { s.s256 with
      w := Cells.noval 64, v := Cells.noval 8,
      pos := if s.s256.pos.blk + 1 < n then ⟨.processingBlock, s.s256.pos.blk + 1, 0⟩ else ⟨.finalizing, 0, 0⟩ } })

/-- `SERIALIZE` (R171): `DIG_u[4*k + m]` is byte `m` of `H_u[k]` counted from the most significant, every address above the digest as
before, `step_u <- step_u + 1`, nothing else written; its encodings. -/
def Obligations.SerializeWritesBigEndianWords : Prop :=
  encode .sha1Serialize = 0x0B00 ∧ encode .sha256Serialize = 0x8B00 ∧
  (∀ (s : State) (x : Vector Word 5), s.s1.pos.phase = .finalizing → s.s1.pos.step = 0 →
    (∀ k, s.s1.h.get k = some (x.get k)) →
    ∃ dig : Memory,
      exec .sha1Serialize s = .next { s with s1 := { s.s1 with dig := dig, pos := ⟨.finalizing, s.s1.pos.blk, 1⟩ } } ∧
      (∀ (k : Fin 5) (m : Fin 4), Memory.read dig (4 * k.val + m.val) =
        some (BitVec.ofNat 8 ((x.get k).toNat / 2 ^ (8 * (3 - m.val)) % 256))) ∧
      ∀ a, 20 ≤ a → Memory.read dig a = Memory.read s.s1.dig a) ∧
  (∀ (s : State) (x : Vector Word 8), s.s256.pos.phase = .finalizing → s.s256.pos.step = 0 →
    (∀ k, s.s256.h.get k = some (x.get k)) →
    ∃ dig : Memory,
      exec .sha256Serialize s = .next { s with s256 := { s.s256 with dig := dig, pos := ⟨.finalizing, s.s256.pos.blk, 1⟩ } } ∧
      (∀ (k : Fin 8) (m : Fin 4), Memory.read dig (4 * k.val + m.val) =
        some (BitVec.ofNat 8 ((x.get k).toNat / 2 ^ (8 * (3 - m.val)) % 256))) ∧
      ∀ a, 32 ≤ a → Memory.read dig a = Memory.read s.s256.dig a)

/-- `HEXENC` (R174): the two characters of byte `j` of the digest stand at `HEX_u[2*j]` (the high four bits) and `HEX_u[2*j + 1]`, in the
lowercase ASCII of R173, every address above the text as before, `pos_u <- (Finalized, 0, 0)`, nothing else written; its encodings. -/
def Obligations.HexencWritesLowercaseHex : Prop :=
  encode .sha1Hexenc = 0x0C00 ∧ encode .sha256Hexenc = 0x8C00 ∧
  (∀ v : Fin 16, hexchar v.val = if v.val ≤ 9 then BitVec.ofNat 8 (0x30 + v.val) else BitVec.ofNat 8 (0x61 + (v.val - 10))) ∧
  (∀ (s : State) (d : Vector Byte 20), s.s1.pos.phase = .finalizing → s.s1.pos.step = 1 →
    (∀ j : Fin 20, Memory.read s.s1.dig j.val = some (d.get j)) →
    ∃ hex : Memory,
      exec .sha1Hexenc s = .next { s with s1 := { s.s1 with hex := hex, pos := ⟨.finalized, 0, 0⟩ } } ∧
      (∀ j : Fin 20, Memory.read hex (2 * j.val) = some (hexchar ((d.get j).toNat / 16)) ∧
        Memory.read hex (2 * j.val + 1) = some (hexchar ((d.get j).toNat % 16))) ∧
      ∀ a, 40 ≤ a → Memory.read hex a = Memory.read s.s1.hex a) ∧
  (∀ (s : State) (d : Vector Byte 32), s.s256.pos.phase = .finalizing → s.s256.pos.step = 1 →
    (∀ j : Fin 32, Memory.read s.s256.dig j.val = some (d.get j)) →
    ∃ hex : Memory,
      exec .sha256Hexenc s = .next { s with s256 := { s.s256 with hex := hex, pos := ⟨.finalized, 0, 0⟩ } } ∧
      (∀ j : Fin 32, Memory.read hex (2 * j.val) = some (hexchar ((d.get j).toNat / 16)) ∧
        Memory.read hex (2 * j.val + 1) = some (hexchar ((d.get j).toNat % 16))) ∧
      ∀ a, 64 ≤ a → Memory.read hex a = Memory.read s.s256.hex a)

/-! ### Reads of `NOVAL`, and where an operation stops -/

/-- `CHECKLEN` without a length and `NEXTBLK` without a block count: the fault `ReadOfNoValue` is recorded (R39, R235 a) and the unit goes
on, which with keeping the first record is the model's reading (log entry 25). That it then takes one of the two ways its rule has (R188,
R192) is the model's choice, and which of the two is a free value (log entry 23): nothing here says it. -/
def Obligations.NovalNumbersLeaveTheWayFree : Prop :=
  ∀ (s : State) (u : UnitId),
    let x := s.unit u
    let checklen : UnitId → Instr := fun | .s1 => .sha1Checklen | .s256 => .sha256Checklen
    let nextblk : UnitId → Instr := fun | .s1 => .sha1Nextblk | .s256 => .sha256Nextblk
    (x.pos.phase = .start → x.pos.step = 0 → x.mlen = none →
      ∃ (err : BitVec 2) (pos : Pos),
        ((err = 1 ∧ pos = ⟨.failed, 0, 0⟩) ∨ (err = x.err ∧ pos = ⟨.start, x.pos.blk, 1⟩)) ∧
        exec (checklen u) s = .next (s.setUnit u { x with
          err := err, pos := pos, noValueRead := x.noValueRead.or (some .mlen), draws := x.draws + 1 })) ∧
    (x.pos.phase = .processingBlock → x.pos.step = Config.nw u + Config.nr u + 2 → x.nblk = none →
      ∃ pos : Pos, (pos = ⟨.processingBlock, x.pos.blk + 1, 0⟩ ∨ pos = ⟨.finalizing, 0, 0⟩) ∧
        exec (nextblk u) s = .next (s.setUnit u { x with
          w := Cells.noval _, v := Cells.noval _, pos := pos,
          noValueRead := x.noValueRead.or (some .nblk), draws := x.draws + 1 }))

/-- A micro-operation that reads `NOVAL` (R39, R235 a): the fault `ReadOfNoValue` is recorded, the first one of the run kept (log entry 25),
and the read is given no value, neither zero nor another. That what the operation makes of it then holds `NOVAL` too, while every other
effect of its rule happens, is the model's choice (log entry 24). `PAD` (no length; a message byte missing), `WLOAD` (which reads no
`NBLK_u`: log entry 26), `WEXP` and `LOADV`. -/
def Obligations.NovalIsRecordedAndNeverBecomesAValue : Prop :=
  ∀ (s : State) (u : UnitId),
    let x := s.unit u
    let pad : UnitId → Instr := fun | .s1 => .sha1Pad | .s256 => .sha256Pad
    let wload : UnitId → Nat → Instr := fun | .s1 => .sha1Wload | .s256 => .sha256Wload
    let loadv : UnitId → Instr := fun | .s1 => .sha1Loadv | .s256 => .sha256Loadv
    (x.pos.phase = .padding → x.pos.step = 0 → x.mlen = none →
      exec (pad u) s = .next (s.setUnit u { x with
        nblk := none, pm := [], pos := ⟨.processingBlock, 0, 0⟩, noValueRead := x.noValueRead.or (some .mlen) })) ∧
    (∀ n j, x.pos.phase = .padding → x.pos.step = 0 → x.mlen = some n → 8 * n < 2 ^ 64 → j < n → Memory.read x.msg j = none →
      ∃ pm : Memory,
        exec (pad u) s = .next (s.setUnit u { x with
          nblk := some ((n + 8) / 64 + 1), pm := pm, pos := ⟨.processingBlock, 0, 0⟩,
          noValueRead := x.noValueRead.or (some .msg) }) ∧
        (∀ a, a < n → Memory.read pm a = Memory.read x.msg a) ∧
        (∀ a, n ≤ a → a < 64 * ((n + 8) / 64 + 1) → Memory.read pm a = some (padByte n a)) ∧
        ∀ a, 64 * ((n + 8) / 64 + 1) ≤ a → Memory.read pm a = Memory.read x.pm a) ∧
    (∀ j m, j ≤ 15 → x.pos.phase = .processingBlock → x.pos.step = j → m < 4 →
      Memory.read x.pm (64 * x.pos.blk + 4 * j + m) = none →
      exec (wload u j) s = .next (s.setUnit u { x with
        w := x.w.put j none, pos := ⟨.processingBlock, x.pos.blk, j + 1⟩, noValueRead := x.noValueRead.or (some .pm) })) ∧
    (x.pos.phase = .processingBlock → x.pos.step = Config.nw u → (∃ k, x.h.get k = none) →
      exec (loadv u) s = .next (s.setUnit u { x with
        v := x.h, pos := ⟨.processingBlock, x.pos.blk, Config.nw u + 1⟩, noValueRead := x.noValueRead.or (some .h) })) ∧
    (∀ i d, 16 ≤ i → i ≤ 79 → d ∈ [3, 8, 14, 16] → s.s1.pos.phase = .processingBlock → s.s1.pos.step = i →
      s.s1.w.at (i - d) = none →
      exec (.sha1Wexp i) s = .next { s with s1 := { s.s1 with
        w := s.s1.w.put i none, pos := ⟨.processingBlock, s.s1.pos.blk, i + 1⟩,
        noValueRead := s.s1.noValueRead.or (some .w) } }) ∧
    ∀ i d, 16 ≤ i → i ≤ 63 → d ∈ [16, 15, 7, 2] → s.s256.pos.phase = .processingBlock → s.s256.pos.step = i →
      s.s256.w.at (i - d) = none →
      exec (.sha256Wexp i) s = .next { s with s256 := { s.s256 with
        w := s.s256.w.put i none, pos := ⟨.processingBlock, s.s256.pos.blk, i + 1⟩,
        noValueRead := s.s256.noValueRead.or (some .w) } }

/-- The same of the rounds, `ADDH` and the finalizer (R39, R235 a; the model's choice, log entries 24 and 25): the registers a round only
moves are moved, of the two it computes each is `NOVAL` if one of its sources is and else the sum the rule gives it; `ADDH`, `SERIALIZE` and
`HEXENC` do so Word by Word and byte by byte. -/
def Obligations.NovalStaysInItsPlace : Prop :=
  (∀ (s : State) (t : Nat), t ≤ 79 → s.s1.pos.phase = .processingBlock → s.s1.pos.step = 81 + t →
    ((∃ k, s.s1.v.get k = none) ∨ s.s1.w.at t = none) →
    exec (.sha1Round t) s = .next { s with s1 := { s.s1 with
      v := #v[none, s.s1.v.get 0, (s.s1.v.get 1).map (rotl32 · 30), s.s1.v.get 2, s.s1.v.get 3],
      pos := ⟨.processingBlock, s.s1.pos.blk, 81 + t + 1⟩,
      noValueRead := s.s1.noValueRead.or (some (if ∃ k, s.s1.v.get k = none then .v else .w)) } }) ∧
  (∀ (s : State) (t : Nat), t ≤ 63 → s.s256.pos.phase = .processingBlock → s.s256.pos.step = 65 + t →
    ((∃ k, s.s256.v.get k = none) ∨ s.s256.w.at t = none) →
    ∃ newA newE : Option Word,
      ((∃ k, k ≠ 3 ∧ s.s256.v.get k = none) ∨ s.s256.w.at t = none → newA = none) ∧
      ((∃ k, 3 ≤ k.val ∧ s.s256.v.get k = none) ∨ s.s256.w.at t = none → newE = none) ∧
      (∀ a b c e f g h wt, s.s256.v.get 0 = some a → s.s256.v.get 1 = some b → s.s256.v.get 2 = some c → s.s256.v.get 4 = some e →
        s.s256.v.get 5 = some f → s.s256.v.get 6 = some g → s.s256.v.get 7 = some h → s.s256.w.at t = some wt →
        newA = some (temp1S256 t wt e f g h + temp2S256 a b c)) ∧
      (∀ d e f g h wt, s.s256.v.get 3 = some d → s.s256.v.get 4 = some e → s.s256.v.get 5 = some f → s.s256.v.get 6 = some g →
        s.s256.v.get 7 = some h → s.s256.w.at t = some wt → newE = some (d + temp1S256 t wt e f g h)) ∧
      exec (.sha256Round t) s = .next { s with s256 := { s.s256 with
        v := #v[newA, s.s256.v.get 0, s.s256.v.get 1, s.s256.v.get 2, newE, s.s256.v.get 4, s.s256.v.get 5, s.s256.v.get 6],
        pos := ⟨.processingBlock, s.s256.pos.blk, 65 + t + 1⟩,
        noValueRead := s.s256.noValueRead.or (some (if ∃ k, s.s256.v.get k = none then .v else .w)) } }) ∧
  ∀ (s : State) (u : UnitId),
    let x := s.unit u
    let addh : UnitId → Instr := fun | .s1 => .sha1Addh | .s256 => .sha256Addh
    let serialize : UnitId → Instr := fun | .s1 => .sha1Serialize | .s256 => .sha256Serialize
    let hexenc : UnitId → Instr := fun | .s1 => .sha1Hexenc | .s256 => .sha256Hexenc
    (x.pos.phase = .processingBlock → x.pos.step = Config.nw u + 1 + Config.nr u →
      ((∃ k, x.h.get k = none) ∨ ∃ k, x.v.get k = none) →
      ∃ h : Cells (Config.ns u),
        (∀ k, h.get k = (x.h.get k).bind fun a => (x.v.get k).map fun b => a + b) ∧
        exec (addh u) s = .next (s.setUnit u { x with
          h := h, pos := ⟨.processingBlock, x.pos.blk, Config.nw u + Config.nr u + 2⟩,
          noValueRead := x.noValueRead.or (some (if ∃ k, x.h.get k = none then .h else .v)) })) ∧
    (x.pos.phase = .finalizing → x.pos.step = 0 → (∃ k, x.h.get k = none) →
      ∃ dig : Memory,
        (∀ (k : Fin (Config.ns u)) (m : Fin 4), Memory.read dig (4 * k.val + m.val) = (x.h.get k).map (byteOf m.val)) ∧
        (∀ a, Config.db u ≤ a → Memory.read dig a = Memory.read x.dig a) ∧
        exec (serialize u) s = .next (s.setUnit u { x with
          dig := dig, pos := ⟨.finalizing, x.pos.blk, 1⟩, noValueRead := x.noValueRead.or (some .h) })) ∧
    (∀ j, x.pos.phase = .finalizing → x.pos.step = 1 → j < Config.db u → Memory.read x.dig j = none →
      ∃ hex : Memory,
        (∀ i, i < Config.db u →
          Memory.read hex (2 * i) = (Memory.read x.dig i).map (fun d => hexchar (d.toNat / 16)) ∧
          Memory.read hex (2 * i + 1) = (Memory.read x.dig i).map (fun d => hexchar (d.toNat % 16))) ∧
        (∀ a, Config.hx u ≤ a → Memory.read hex a = Memory.read x.hex a) ∧
        exec (hexenc u) s = .next (s.setUnit u { x with
          hex := hex, pos := ⟨.finalized, 0, 0⟩, noValueRead := x.noValueRead.or (some .dig) }))

/-- A micro-operation executed anywhere but at the position the microprogram gives it, its precondition on `pos_u`, is refused (R235 b).
That `exec` refuses a `START` in a busy phase (the port holds it there, R187) and an index out of range (no word spells it, R84) in the same
way is the model's choice (log entry 12). Elsewhere an operation completes, whatever the registers and memories hold: a `START` in a ready
phase, and a well-formed micro-operation at its position, `PAD` with a length that is legal (R104) or has no value. That it completes also
where it reads `NOVAL`, `PAD` without a length included, is the model's choice (log entries 23, 24 and 25). Of `PAD` with an illegal length
nothing is said here (log entry 13). -/
def Obligations.OutOfSequenceIsRefused : Prop :=
  (∀ (i : Instr) (s : State),
    (WellFormed i = false ∨
      (∃ p, positionOf i = some p ∧ ((s.unit i.unit).pos.phase, (s.unit i.unit).pos.step) ≠ p) ∨
      (positionOf i = none ∧ busy (s.unit i.unit).pos.phase = true)) →
    exec i s = .refused .outOfSequence) ∧
  ∀ (i : Instr) (s : State), WellFormed i = true →
    (∀ p, positionOf i = some p → ((s.unit i.unit).pos.phase, (s.unit i.unit).pos.step) = p) →
    (positionOf i = none → busy (s.unit i.unit).pos.phase = false) →
    (i ∈ [.sha1Pad, .sha256Pad] → ∀ n, (s.unit i.unit).mlen = some n → 8 * n < 2 ^ 64) →
    ∃ t : State, exec i s = .next t

/-! ### Frames and whole-machine rules -/

/-- No operation of one unit writes any state of the other, nor the schedule of moves, and what it does is the same whatever the
other unit holds (R20, R82). -/
def Obligations.OperationsTouchOnlyTheirUnit : Prop :=
  ∀ (i : Instr) (s t : State), exec i s = .next t →
    (∀ u, u ≠ i.unit → t.unit u = s.unit u) ∧ t.sched = s.sched ∧
    ∀ s' : State, s'.unit i.unit = s.unit i.unit →
      ∃ t', exec i s' = .next t' ∧ t'.unit i.unit = t.unit i.unit

/-- The write column of the access summary (R37), with R28, R51: which operations can change each piece of state of their unit; `MSG_u`,
`MLEN_u` and the host port are changed by none, and a recorded `ReadOfNoValue` is kept (R235 a). That a `START` keeps it too, and that what
is kept is the first one, is the model's choice (log entry 25). The free values used are the model's own count (log entry 23). -/
def Obligations.OnlyListedOperationsWrite : Prop :=
  ∀ (i : Instr) (s t : State), exec i s = .next t →
    let x := s.unit i.unit
    let y := t.unit i.unit
    (∀ p, x.noValueRead = some p → y.noValueRead = some p) ∧
    (y.draws ≠ x.draws → i ∈ [.sha1Checklen, .sha256Checklen, .sha1Nextblk, .sha256Nextblk]) ∧
    y.mlen = x.mlen ∧ y.held = x.held ∧ y.inbox = x.inbox ∧ y.reply = x.reply ∧
    (∀ a, Memory.read y.msg a = Memory.read x.msg a) ∧
    (y.err ≠ x.err → i ∈ [.sha1Start, .sha256Start, .sha1Checklen, .sha256Checklen]) ∧
    (y.nblk ≠ x.nblk → i ∈ [.sha1Start, .sha256Start, .sha1Pad, .sha256Pad]) ∧
    (∀ a, Memory.read y.pm a ≠ Memory.read x.pm a → i ∈ [.sha1Start, .sha256Start, .sha1Pad, .sha256Pad]) ∧
    (∀ a, Memory.read y.dig a ≠ Memory.read x.dig a → i ∈ [.sha1Start, .sha256Start, .sha1Serialize, .sha256Serialize]) ∧
    (∀ a, Memory.read y.hex a ≠ Memory.read x.hex a → i ∈ [.sha1Start, .sha256Start, .sha1Hexenc, .sha256Hexenc]) ∧
    (∀ k, y.h.get k ≠ x.h.get k → i ∈ [.sha1Start, .sha256Start, .sha1Init, .sha256Init, .sha1Addh, .sha256Addh]) ∧
    (∀ k, y.v.get k ≠ x.v.get k → (∃ n, i = .sha1Round n ∨ i = .sha256Round n) ∨
      i ∈ [.sha1Start, .sha256Start, .sha1Loadv, .sha256Loadv, .sha1Nextblk, .sha256Nextblk]) ∧
    (∀ k, y.w.get k ≠ x.w.get k →
      (i = .sha1Wload k.val ∨ i = .sha256Wload k.val ∨ i = .sha1Wexp k.val ∨ i = .sha256Wexp k.val) ∨
      i ∈ [.sha1Start, .sha256Start, .sha1Nextblk, .sha256Nextblk])

/-! ### The microprogram and the step -/

/-- The microprogram (R200): at the position of a micro-operation it gives that operation's word, and at every position where
it gives a word, the word is that of a micro-operation of the unit which stands at that position. -/
def Obligations.MicroprogramIssuesEachOperationAtItsPosition : Prop :=
  (∀ (i : Instr) (ph : Phase) (st : Nat), WellFormed i = true → positionOf i = some (ph, st) →
    uop i.unit ph st = some (encode i)) ∧
  ∀ (u : UnitId) (ph : Phase) (st : Nat) (w : OpWord), uop u ph st = some w →
    ∃ i : Instr, decode w = .op i ∧ i.unit = u ∧ WellFormed i = true ∧ positionOf i = some (ph, st) ∧ busy ph = true

/-- A step runs the decoded operation (R201). When the move is a busy unit's and the word at its position decodes to `i`, step
is `exec i`, with one entry of the schedule used up. When the move is the host's, its access is a word written to `CMD_u` of a
ready unit and the word decodes to the unit's `START`, step is `exec` of it, with the access taken from the inbox and answered.
The schedule, the inbox and the answer are the model's own (log entries 5 and 6). -/
def Obligations.StepRunsTheDecodedOperation : Prop :=
  (∀ (s : State) (u : UnitId) (w : OpWord) (i : Instr),
    nextMove s = some (.unit u) → busy (s.unit u).pos.phase = true →
    uop u (s.unit u).pos.phase (s.unit u).pos.step = some w → decode w = .op i →
    step s = exec i { s with sched := s.sched.tail }) ∧
  ∀ (s : State) (u : UnitId) (w : OpWord) (rest : List HostOp),
    nextMove s = some (.host u) → busy (s.unit u).pos.phase = false →
    (s.unit u).inbox = .write (.cmd w) :: rest → decode w = .op (Instr.start u) →
    step s = exec (Instr.start u)
      (State.setUnit { s with sched := s.sched.tail } u { s.unit u with inbox := rest, reply := some .accepted })

/-- A well-formed operation's word placed in any state is the very next operation to run (the model's interface; log entry 16). -/
def Obligations.PlacedWordRunsNext : Prop :=
  ∀ (i : Instr) (s : State), WellFormed i = true →
    ∃ s' : State, step (s.withFetchWord 16 (encode i).toNat) = exec i s' ∧ s'.sched = s.sched ∧
      (∀ u, u ≠ i.unit → s'.unit u = s.unit u) ∧
      ∃ (pos : Pos) (held : Option HostWrite) (reply : Option HostReply),
        s'.unit i.unit = { s.unit i.unit with pos := pos, held := held, reply := reply } ∧
        (∀ p, positionOf i = some p → (pos.phase, pos.step) = p) ∧ (positionOf i = none → busy pos.phase = false)

/-- The edges of the state machine (R185), and no others: whatever the step, a unit's phase stays, or moves along one of them; only a reset
leads back to `Idle`. That a unit keeps to them also where `MLEN_u` or `NBLK_u` has no value is the model's choice (log entry 23). -/
def Obligations.PhasesMoveAlongTheListedEdges : Prop :=
  ∀ (s t : State) (u : UnitId), step s = .next t →
    let p := (s.unit u).pos.phase
    let q := (t.unit u).pos.phase
    p = q ∨ (busy p = false ∧ q = .start) ∨ (p = .start ∧ q = .failed) ∨ (p = .start ∧ q = .padding) ∨
      (p = .padding ∧ q = .processingBlock) ∨ (p = .processingBlock ∧ q = .finalizing) ∨
      (p = .finalizing ∧ q = .finalized) ∨ (nextMove s = some .reset ∧ q = .idle)

/-- The two units' steps commute (R69): made one after the other in either order they lead to the same state. -/
def Obligations.UnitStepsCommute : Prop :=
  ∀ s a b : State, unitMove .s1 s = .next a → unitMove .s256 s = .next b →
    ∃ t : State, unitMove .s256 a = .next t ∧ unitMove .s1 b = .next t

/-! ### The host -/

/-- `STATUS_u` (R27): `PHASE` in bits 2:0 with the codes of R25, `BUSY` bit 3, `DONE` bit 4, `ERR` in bits 6:5, bit 7 zero; a
host read of it answers that byte in every phase and changes nothing else. -/
def Obligations.StatusShowsPhaseAndError : Prop :=
  (∀ (ph : Phase) (err : BitVec 2),
    (statusByte ph err).toNat % 8 = (match ph with
      | .idle => 0 | .start => 1 | .padding => 2 | .processingBlock => 3 | .finalizing => 4 | .finalized => 5 | .failed => 6) ∧
    ((statusByte ph err).getLsbD 3 = true ↔ ph ∈ [.start, .padding, .processingBlock, .finalizing]) ∧
    ((statusByte ph err).getLsbD 4 = true ↔ ph = .finalized) ∧
    (statusByte ph err).toNat / 32 % 4 = err.toNat ∧ (statusByte ph err).getLsbD 7 = false) ∧
  ∀ (u : UnitId) (s : State), hostAccess u (.read .status) s =
    .next (s.setUnit u { s.unit u with reply := some (.status (statusByte (s.unit u).pos.phase (s.unit u).err)) })

/-- A word written to `CMD_u` in a ready phase (R86, R223): the unit's own `START` is accepted and executes; any other word is
refused, `ERR_u <- 2` and nothing else changes but the answer. The accepted words are `0x0100` and `0x8100`. -/
def Obligations.OnlyStartIsAcceptedByCmd : Prop :=
  (∀ w : OpWord, (decode w = .op (Instr.start .s1) ↔ w = 0x0100) ∧ (decode w = .op (Instr.start .s256) ↔ w = 0x8100)) ∧
  ∀ (u : UnitId) (w : OpWord) (s : State), busy (s.unit u).pos.phase = false →
    (decode w ≠ .op (Instr.start u) → hostAccess u (.write (.cmd w)) s =
      .next (s.setUnit u { s.unit u with err := 2, reply := some .refused })) ∧
    (decode w = .op (Instr.start u) → hostAccess u (.write (.cmd w)) s =
      exec (Instr.start u) (s.setUnit u { s.unit u with reply := some .accepted }))

/-- While a unit is busy and holds no write yet (R187), a host write to `MSG_u` (in range), `MLEN_u` or `CMD_u` is held: it waits, and
nothing of the computation changes (R71, R255). That a held write takes effect as a move of the unit's own, made in a ready phase, is the
model's choice (log entry 9): R71 and R187 say only that it takes effect when the unit is next in one. -/
def Obligations.BusyWritesAreHeld : Prop :=
  (∀ (u : UnitId) (w : HostWrite) (s : State), busy (s.unit u).pos.phase = true → (s.unit u).held = none →
    ((∃ j b, w = .msg j b ∧ j ≤ 2 ^ 61 - 2) ∨ (∃ n, w = .mlen n) ∨ (∃ c, w = .cmd c)) →
    hostAccess u (.write w) s = .next (s.setUnit u { s.unit u with held := some w, reply := some .held })) ∧
  (∀ (s : State) (u : UnitId), (s.unit u).held ≠ none → nextMove s ≠ some (.host u)) ∧
  ∀ (u : UnitId) (w : HostWrite) (s : State), busy (s.unit u).pos.phase = false → (s.unit u).held = some w →
    unitMove u s = hostAccess u (.write w) (s.setUnit u { s.unit u with held := none })

/-- In a ready phase a host write to the message or its length takes effect at once (R71): the byte, or the length, and nothing else
but the answer. That every natural number is stored whole as the length is the model's choice (log entry 2): R5 leaves the width `LENW`
of `MLEN_u` open and R28 makes only the lengths that fit in it legal. -/
def Obligations.ReadyWritesTakeEffect : Prop :=
  ∀ (u : UnitId) (s : State), busy (s.unit u).pos.phase = false →
    (∀ n, hostAccess u (.write (.mlen n)) s = .next (s.setUnit u { s.unit u with mlen := some n, reply := some .accepted })) ∧
    ∀ j b, j ≤ 2 ^ 61 - 2 → ∃ msg : Memory,
      hostAccess u (.write (.msg j b)) s = .next (s.setUnit u { s.unit u with msg := msg, reply := some .accepted }) ∧
      ∀ a, Memory.read msg a = if a = j then some b else Memory.read (s.unit u).msg a

/-- Host accesses that are refused in every phase change nothing but the answer (R71, R65): writes to `STATUS_u` and `NBLK_u`, any
access to a control register numbered 4 or above, to internal state and the constants, and to an address outside a space. That a host
write to `DIG_u` or `HEX_u`, at any address, is refused is the model's choice (log entry 8): R71 has no row for it. -/
def Obligations.RefusedAccessesChangeNothing : Prop :=
  ∀ (u : UnitId) (op : HostOp) (s : State),
    ((∃ v, op = .write (.status v)) ∨ (∃ n, op = .write (.nblk n)) ∨ (∃ n v, op = .write (.otherReg n v)) ∨
      (∃ n, op = .read (.otherReg n)) ∨ (∃ l v, op = .write (.internal l v)) ∨ (∃ l, op = .read (.internal l)) ∨
      (∃ j b, op = .write (.msg j b) ∧ 2 ^ 61 - 2 < j) ∨ (∃ j, op = .read (.msg j) ∧ 2 ^ 61 - 2 < j) ∨
      (∃ j, op = .read (.dig j) ∧ Config.db u ≤ j) ∨ (∃ j, op = .read (.hex j) ∧ Config.hx u ≤ j) ∨
      (∃ j b, op = .write (.dig j b)) ∨ (∃ j b, op = .write (.hex j b))) →
    hostAccess u op s = .next (s.setUnit u { s.unit u with reply := some .refused })

/-- The digest is read only in `Finalized` (R256, R71): there a read answers the byte, and in every other phase it is given no value and the
fault `ReadOfNoValue` is recorded (R235 a, U2), the first one of the run kept (log entry 25); nothing else changes. -/
def Obligations.DigestIsReadOnlyWhenFinalized : Prop :=
  ∀ (u : UnitId) (s : State),
    (∀ j b, j < Config.db u → (s.unit u).pos.phase = .finalized → Memory.read (s.unit u).dig j = some b →
      hostAccess u (.read (.dig j)) s = .next (s.setUnit u { s.unit u with reply := some (.byte b) })) ∧
    (∀ j b, j < Config.hx u → (s.unit u).pos.phase = .finalized → Memory.read (s.unit u).hex j = some b →
      hostAccess u (.read (.hex j)) s = .next (s.setUnit u { s.unit u with reply := some (.byte b) })) ∧
    (∀ j, j < Config.db u → ((s.unit u).pos.phase ≠ .finalized ∨ Memory.read (s.unit u).dig j = none) →
      hostAccess u (.read (.dig j)) s = .next (s.setUnit u { s.unit u with
        reply := some .noValue, noValueRead := (s.unit u).noValueRead.or (some .dig) })) ∧
    ∀ j, j < Config.hx u → ((s.unit u).pos.phase ≠ .finalized ∨ Memory.read (s.unit u).hex j = none) →
      hostAccess u (.read (.hex j)) s = .next (s.setUnit u { s.unit u with
        reply := some .noValue, noValueRead := (s.unit u).noValueRead.or (some .hex) })

/-- Host reads of the length, the block count, the message and the command (R71, R26, R28, R29): they answer the stored value and change
nothing else, `NBLK_u` in `ProcessingBlock`, `Finalizing` and `Finalized` only; where the place holds `NOVAL`, and for the write-only
`CMD_u`, the read is given no value and the fault `ReadOfNoValue` is recorded (R235 a, U2), the first one of the run kept (log entry 25).
That a busy unit answers the reads of `MSG_u`, `MLEN_u` and `NBLK_u` is the model's choice (log entry 14: R71 and R26, against R67), and so
is taking the refused read of `CMD_u` as such a read (log entry 20). -/
def Obligations.HostReadsAnswerTheStoredValue : Prop :=
  ∀ (u : UnitId) (s : State),
    let none' : Store → Host.Outcome State Fault Refusal := fun what => .next (s.setUnit u { s.unit u with
      reply := some .noValue, noValueRead := (s.unit u).noValueRead.or (some what) })
    (∀ n, (s.unit u).mlen = some n →
      hostAccess u (.read .mlen) s = .next (s.setUnit u { s.unit u with reply := some (.number n) })) ∧
    ((s.unit u).mlen = none → hostAccess u (.read .mlen) s = none' .mlen) ∧
    (∀ j b, j ≤ 2 ^ 61 - 2 → Memory.read (s.unit u).msg j = some b →
      hostAccess u (.read (.msg j)) s = .next (s.setUnit u { s.unit u with reply := some (.byte b) })) ∧
    (∀ j, j ≤ 2 ^ 61 - 2 → Memory.read (s.unit u).msg j = none → hostAccess u (.read (.msg j)) s = none' .msg) ∧
    (∀ n, (s.unit u).pos.phase ∈ [.processingBlock, .finalizing, .finalized] → (s.unit u).nblk = some n →
      hostAccess u (.read .nblk) s = .next (s.setUnit u { s.unit u with reply := some (.number n) })) ∧
    ((s.unit u).pos.phase ∈ [.idle, .start, .padding, .failed] ∨ (s.unit u).nblk = none →
      hostAccess u (.read .nblk) s = none' .nblk) ∧
    hostAccess u (.read .cmd) s = none' .cmd

/-- No step of the host disturbs a running computation (R67, R225, R255): whichever unit `v` the host accesses, a busy unit `u` keeps
everything but, where it is itself the one accessed, the held write, the accesses still to come, the answer and the record of a read of
`NOVAL`; every unit the host did not access keeps everything. -/
def Obligations.HostCannotDisturbABusyUnit : Prop :=
  ∀ (s t : State) (u v : UnitId), nextMove s = some (.host v) → busy (s.unit u).pos.phase = true → step s = .next t →
    (∃ (held : Option HostWrite) (inbox : List HostOp) (reply : Option HostReply) (rec : Option Store),
      t.unit u = { s.unit u with held := held, inbox := inbox, reply := reply, noValueRead := rec }) ∧
    ∀ w, w ≠ v → t.unit w = s.unit w

/-- A length that does not fit (R227, R226, R202): from a state that meets the invariant the unit at the beginning of a computation fails
in one step. `ERR_u <- 1` and `pos_u <- (Failed, 0, 0)`; nothing else of the unit changes, so everything `START` invalidated is `NOVAL` and
no result exists; the host reads `ERR = 1` and `PHASE = 6` from `STATUS_u`; the other unit is unaffected. -/
def Obligations.OversizedMessageFailsInOneStep : Prop :=
  ∀ (s : State) (u : UnitId) (n : Nat), Inv s → nextMove s = some (.unit u) → (s.unit u).pos = ⟨.start, 0, 0⟩ →
    (s.unit u).mlen = some n → 2 ^ 64 ≤ 8 * n →
    ∃ t : State, step s = .next t ∧ t.unit u = { s.unit u with err := 1, pos := ⟨.failed, 0, 0⟩ } ∧
      (t.unit u).status = 0x26 ∧ (∀ v, v ≠ u → t.unit v = s.unit v) ∧
      (t.unit u).nblk = none ∧ (∀ k, (t.unit u).h.get k = none ∧ (t.unit u).v.get k = none) ∧ (∀ k, (t.unit u).w.get k = none) ∧
      ∀ a, Memory.read (t.unit u).pm a = none ∧ Memory.read (t.unit u).dig a = none ∧ Memory.read (t.unit u).hex a = none

/-- The error flag is sticky (R228, R30): a step changes it only by an accepted `START` (to 0), a refused command (to 2, the phase
unchanged), the raise of `CHECKLEN` (to 1, entering `Failed`), or a reset. The raise of a `CHECKLEN` without a length is the model's choice
(log entry 23). -/
def Obligations.ErrorFlagIsSticky : Prop :=
  ∀ (s t : State) (u : UnitId), step s = .next t → (t.unit u).err ≠ (s.unit u).err →
    ((t.unit u).err = 0 ∧ busy (s.unit u).pos.phase = false ∧ (t.unit u).pos = ⟨.start, 0, 0⟩) ∨
    ((t.unit u).err = 2 ∧ busy (s.unit u).pos.phase = false ∧ (t.unit u).pos = (s.unit u).pos) ∨
    ((t.unit u).err = 1 ∧ (s.unit u).pos.phase = .start ∧ (t.unit u).pos = ⟨.failed, 0, 0⟩) ∨
    nextMove s = some .reset

/-- A finished digest stays (R194): a step from `Finalized` keeps every byte of `DIG_u` and `HEX_u` and the phase, unless it accepts
a `START` or is a reset. That a host write cannot change a digest byte is the model's choice (log entry 8). -/
def Obligations.FinishedDigestStays : Prop :=
  ∀ (s t : State) (u : UnitId), step s = .next t → (s.unit u).pos.phase = .finalized →
    ((t.unit u).pos = (s.unit u).pos ∧
      ∀ a, Memory.read (t.unit u).dig a = Memory.read (s.unit u).dig a ∧
        Memory.read (t.unit u).hex a = Memory.read (s.unit u).hex a) ∨
    (t.unit u).pos = ⟨.start, 0, 0⟩ ∨ nextMove s = some .reset

/-! ### Reset and the invariant -/

/-- What reset leaves (R38, R250), from any state: both sequencers in `Idle` with `ERR_u = 0`, every other register and memory `NOVAL`.
That no write is held (log entry 9), that the accesses the host has yet to make stay (log entry 11) and that the record of a read of
`NOVAL` ends with a reset (log entry 25) are the model's choice. -/
def Obligations.ResetLeavesEverythingNoval : Prop :=
  ∀ s : State, nextMove s = some .reset → ∃ t : State, step s = .next t ∧ ∀ u,
    let x := t.unit u
    x.pos = ⟨.idle, 0, 0⟩ ∧ x.err = 0 ∧ x.status = 0x00 ∧ x.mlen = none ∧ x.nblk = none ∧ x.held = none ∧
    (∀ a, Memory.read x.msg a = none ∧ Memory.read x.pm a = none ∧ Memory.read x.dig a = none ∧ Memory.read x.hex a = none) ∧
    (∀ k, x.w.get k = none) ∧ (∀ k, x.v.get k = none ∧ x.h.get k = none) ∧ x.inbox = (s.unit u).inbox ∧ x.noValueRead = none

/-- The invariant holds after reset. -/
def Obligations.ResetMeetsTheInvariant : Prop := Inv State.reset

/-- Every step keeps the invariant: memories in canonical form, legal positions and error codes, and at each position no value the rules do
not put there, and every value they do unless a read of `NOVAL` is recorded. That `H_u`, `PM_u` and `NBLK_u` still hold their values in
`Finalized` is, for `H_u` and `PM_u`, the model's choice (log entry 22): R204 does not say it of an implementation. What a step leaves after
a read of `NOVAL` is the model's choice (log entries 23, 24 and 25). -/
def Obligations.EveryStepKeepsTheInvariant : Prop := ∀ s t : State, Inv s → step s = .next t → Inv t

/-- From a state that meets the invariant a busy unit always has its step (R201), and it reads `NOVAL` only where the host forgot `MLEN_u`
or a message byte (R39): otherwise nothing is recorded. That it has its step also where it reads `NOVAL` is the model's choice (log entries
23, 24 and 25). -/
def Obligations.BusyUnitsNeverStop : Prop :=
  ∀ (s : State) (u : UnitId), Inv s → nextMove s = some (.unit u) → busy (s.unit u).pos.phase = true →
    ∃ t : State, step s = .next t ∧
      (((s.unit u).pos = ⟨.start, 0, 0⟩ → (s.unit u).mlen ≠ none) → ((s.unit u).pos.phase = .padding → HostReady (s.unit u)) →
        (s.unit u).noValueRead = none → (t.unit u).noValueRead = none)

/-- From a state that meets the invariant, step refuses only when nothing can move (R201, U10): both units ready with no held write, and no
host access waiting. That the end of a run is the refusal `noStep` is log entry 7. That a read of `NOVAL` stops no unit is the model's
choice (log entries 23, 24 and 25). -/
def Obligations.StepRefusesOnlyAtTheEnd : Prop :=
  ∀ (s : State) (r : Refusal), Inv s → step s = .refused r →
    r = .noStep ∧ ∀ u, busy (s.unit u).pos.phase = false ∧ (s.unit u).held = none ∧ (s.unit u).inbox = []

/-! ### The contracts -/

/-- `EXPAND_u(B)` is the sequence R129 describes: the block's Words big-endian in entries 0 to 15, then the recurrence of R122 or
R124 at every later entry. -/
def Obligations.ExpandMeetsItsRecurrence : Prop :=
  ∀ (b : List Byte) (h : b.length = 64),
    (∀ j : Fin 16,
      let x := be32 (b[4 * j.val]'(by omega)) (b[4 * j.val + 1]'(by omega)) (b[4 * j.val + 2]'(by omega)) (b[4 * j.val + 3]'(by omega))
      wordAt (expand .s1 b) j.val = x ∧ wordAt (expand .s256 b) j.val = x) ∧
    (∀ i, 16 ≤ i → i < 80 → wordAt (expand .s1 b) i =
      rotl32 (wordAt (expand .s1 b) (i - 3) ^^^ wordAt (expand .s1 b) (i - 8) ^^^ wordAt (expand .s1 b) (i - 14) ^^^
        wordAt (expand .s1 b) (i - 16)) 1) ∧
    ∀ i, 16 ≤ i → i < 64 → wordAt (expand .s256 b) i =
      wordAt (expand .s256 b) (i - 16) + ssig0 (wordAt (expand .s256 b) (i - 15)) + wordAt (expand .s256 b) (i - 7) +
        ssig1 (wordAt (expand .s256 b) (i - 2))

/-- Executing `WLOAD 0 .. 15, WEXP 16 .. NW(u)-1` leaves `W_u = EXPAND_u` of the current block and touches nothing else (R129, R90). That
`NBLK_u` plays no part is the model's choice (log entry 26). -/
def Obligations.SchedulerStepsComputeExpand : Prop :=
  ∀ (u : UnitId) (s : State) (b : List Byte) (rest : List Move),
    b.length = 64 → (∀ m, m < 64 → Memory.read (s.unit u).pm (64 * (s.unit u).pos.blk + m) = b[m]?) →
    (s.unit u).pos.phase = .processingBlock → (s.unit u).pos.step = 0 →
    s.sched = List.replicate (Config.nw u) (.unit u) ++ rest →
    Host.Core.run Sys2Proof.core (Config.nw u) s = .next (State.setUnit { s with sched := rest } u
      { s.unit u with
        w := Cells.full (expand u b)
        pos := ⟨.processingBlock, (s.unit u).pos.blk, Config.nw u⟩ })

/-- Executing `LOADV, ROUND 0 .. NR(u)-1, ADDH` leaves `H_u = COMPRESS_u(H_u before, W_u)` (R155), the rounds' tuple in `V_u`, and
touches nothing else. -/
def Obligations.CompressorStepsComputeCompress : Prop :=
  ∀ (u : UnitId) (s : State) (h : Vector Word (Config.ns u)) (w : Vector Word (Config.nw u)) (rest : List Move),
    (s.unit u).h = Cells.full h → (s.unit u).w = Cells.full w →
    (s.unit u).pos.phase = .processingBlock → (s.unit u).pos.step = Config.nw u →
    s.sched = List.replicate (Config.nr u + 2) (.unit u) ++ rest →
    Host.Core.run Sys2Proof.core (Config.nr u + 2) s = .next (State.setUnit { s with sched := rest } u
      { s.unit u with
        h := Cells.full (compress u h w)
        v := Cells.full (roundsFrom u h w (Config.nr u))
        pos := ⟨.processingBlock, (s.unit u).pos.blk, Config.nw u + Config.nr u + 2⟩ })

/-- Executing `SERIALIZE, HEXENC` leaves `DIG_u = RAW_u(H_u)` and `HEX_u = TEXT_u(H_u)`, with `H_u` unchanged (R175). -/
def Obligations.FinalizerStepsComputeFinalize : Prop :=
  ∀ (u : UnitId) (s : State) (h : Vector Word (Config.ns u)) (rest : List Move),
    (s.unit u).h = Cells.full h → (s.unit u).pos.phase = .finalizing → (s.unit u).pos.step = 0 →
    s.sched = .unit u :: .unit u :: rest →
    ∃ (dig hex : Memory), HoldsDigest ({ s.unit u with dig := dig, hex := hex } : UnitState u) (finalize h) ∧
      Host.Core.run Sys2Proof.core 2 s = .next (State.setUnit { s with sched := rest } u
        { s.unit u with dig := dig, hex := hex, pos := ⟨.finalized, 0, 0⟩ })

/-- The whole computation (R205, R202): a unit that stands at the beginning of a computation with the legal message `m` in `MSG_u`
reaches `Finalized` after exactly `5 + (NW + NR + 3) * N` of its own steps, `5 + 163*N` or `5 + 131*N`, holding `DIGEST_u(m)`, with its
message kept, no read of `NOVAL` recorded on the way and the other unit untouched, whatever every other register and memory of the unit held
before. -/
def Obligations.UnitComputesTheDigest : Prop :=
  ∀ (u : UnitId) (s : State) (m : List Byte) (d : List Byte × List Byte) (rest : List Move),
    (s.unit u).pos = ⟨.start, 0, 0⟩ → HasMessage (s.unit u) m → digest u m = some d →
    s.sched = List.replicate (5 + (Config.nw u + Config.nr u + 3) * blockCount m.length) (.unit u) ++ rest →
    ∃ t : State,
      Host.Core.run Sys2Proof.core (5 + (Config.nw u + Config.nr u + 3) * blockCount m.length) s = .next t ∧
      (t.unit u).pos = ⟨.finalized, 0, 0⟩ ∧ HoldsDigest (t.unit u) d ∧
      (t.unit u).err = (s.unit u).err ∧ (t.unit u).msg = (s.unit u).msg ∧ (t.unit u).mlen = (s.unit u).mlen ∧
      (t.unit u).noValueRead = (s.unit u).noValueRead ∧ (∀ v, v ≠ u → t.unit v = s.unit v) ∧ t.sched = rest

/-- Determinism (R203): two computations of one unit begun by `START` on the same length and the same message bytes below it, whatever
else either unit held before and whatever the other unit holds, are in the same state after every number of the unit's steps (the bytes of
`MSG_u` that are no part of the message and the model's own fields aside), and stop alike. No write is held beyond the `START` itself. Where
the host wrote no length, which way a unit goes is free (log entry 23), and the two are compared where they use the same free values. -/
def Obligations.ComputationDependsOnTheMessageOnly : Prop :=
  ∀ (u : UnitId) (k : Nat) (s s' a a' : State),
    (s.unit u).mlen = (s'.unit u).mlen →
    (∀ n j, (s.unit u).mlen = some n → j < n → Memory.read (s.unit u).msg j = Memory.read (s'.unit u).msg j) →
    (s.unit u).held = none → (s'.unit u).held = none → ((s.unit u).mlen = none → (s.unit u).draws = (s'.unit u).draws) →
    exec (Instr.start u) s = .next a → exec (Instr.start u) s' = .next a' →
    (∀ t, unitSteps u k a = .next t → ∃ t', unitSteps u k a' = .next t' ∧ SameComputation (t.unit u) (t'.unit u)) ∧
    ∀ r, unitSteps u k a = .refused r → unitSteps u k a' = .refused r

/-- The digest has its fixed length (R172): 20 or 32 bytes, 40 or 64 characters, each character one of `0` to `9`, `a` to `f` (R173). -/
def Obligations.DigestHasItsFixedLength : Prop :=
  ∀ (u : UnitId) (m : List Byte) (d : List Byte × List Byte), digest u m = some d →
    d.1.length = Config.db u ∧ d.2.length = Config.hx u ∧ Config.hx u = 2 * Config.db u ∧
    ∀ c ∈ d.2, (0x30 ≤ c.toNat ∧ c.toNat ≤ 0x39) ∨ (0x61 ≤ c.toNat ∧ c.toNat ≤ 0x66)

/-- The serialized State can be read back from the raw bytes and from the text (R175). -/
def Obligations.FinalizeIsInjective : Prop :=
  ∀ (n : Nat) (x y : Vector Word n),
    ((finalize x).1 = (finalize y).1 → x = y) ∧ ((finalize x).2 = (finalize y).2 → x = y)
end

