-- ==== Sys2Proof/Laws/Cells.lean ====
section
/-! SUPPORT. The laws of the register files and of `add32`. -/

namespace Sys2Proof.Machine

/-- `get` of a vector made entry by entry. -/
@[simp] theorem get_ofFn {α : Type} {n : Nat} (f : Fin n → α) (k : Fin n) : (Vector.ofFn f).get k = f k := by
  simp [Vector.get_eq_getElem]

/-- Two vectors with the same entries are equal. -/
theorem vector_ext_get {α : Type} {n : Nat} {x y : Vector α n} (h : ∀ k, x.get k = y.get k) : x = y := by
  apply Vector.ext
  intro i hi
  have := h ⟨i, hi⟩
  simpa [Vector.get_eq_getElem] using this

@[simp] theorem Cells.noval_get {n : Nat} (k : Fin n) : (Cells.noval n).get k = none := by simp [Cells.noval]

@[simp] theorem Cells.full_get {n : Nat} (x : Vector Word n) (k : Fin n) : (Cells.full x).get k = some (x.get k) := by
  simp [Cells.full]

@[simp] theorem Cells.put_get {n : Nat} (r : Cells n) (i : Nat) (x : Option Word) (k : Fin n) :
    (r.put i x).get k = if k.val = i then x else r.get k := by
  simp [Cells.put]

/-- `put` inside the file is the vector's own update. -/
theorem Cells.put_eq_set {n : Nat} (r : Cells n) {i : Nat} (h : i < n) (x : Option Word) : r.put i x = r.set i x h := by
  apply vector_ext_get
  intro k
  rw [Cells.put_get]
  by_cases hk : k.val = i
  · subst hk; simp [Vector.get_eq_getElem]
  · simp [Vector.get_eq_getElem, hk, Ne.symm hk]

theorem Cells.at_of_lt {n : Nat} (r : Cells n) {i : Nat} (h : i < n) : r.at i = r.get ⟨i, h⟩ := by simp [Cells.at, h]

/-- Nothing is missing from a file exactly when every entry holds a Word. -/
theorem Cells.missing_eq_false {n : Nat} {r : Cells n} : r.missing = false ↔ ∀ k, (r.get k).isSome = true := by
  simp [Cells.missing, Option.isSome_iff_ne_none]

theorem Cells.missing_eq_true {n : Nat} {r : Cells n} : r.missing = true ↔ ∃ k, r.get k = none := by simp [Cells.missing]

@[simp] theorem Cells.missing_full {n : Nat} (x : Vector Word n) : (Cells.full x).missing = false :=
  Cells.missing_eq_false.mpr fun k => by simp

/-- A file with a Word in every entry is full of them. -/
theorem Cells.exists_full {n : Nat} {r : Cells n} (h : ∀ k, (r.get k).isSome = true) : ∃ x, r = Cells.full x := by
  refine ⟨Vector.ofFn fun k => (r.get k).get (h k), vector_ext_get fun k => ?_⟩
  simp

/-- Entry by entry, a file is full of `x`. -/
theorem Cells.eq_full {n : Nat} {r : Cells n} {x : Vector Word n} (h : ∀ k, r.get k = some (x.get k)) :
    r = Cells.full x := vector_ext_get fun k => by simp [h k]

theorem Cells.full_injective {n : Nat} {x y : Vector Word n} (h : Cells.full x = Cells.full y) : x = y :=
  vector_ext_get fun k => by simpa using congrArg (fun r : Cells n => r.get k) h

/-- `add32` of Words is their sum in 32 bits, taken from the right (R10). -/
theorem add32_eq_foldr (xs : List Word) : add32 xs = xs.foldr (· + ·) 0 := by
  induction xs with
  | nil => rfl
  | cons x xs ih =>
    rw [List.foldr_cons, ← ih]
    apply BitVec.eq_of_toNat_eq
    simp [add32, Nat.add_mod]

theorem add32_two (x y : Word) : add32 [x, y] = x + y := by simp [add32_eq_foldr]

theorem add32_four (a b c d : Word) : add32 [a, b, c, d] = a + b + c + d := by
  simp [add32_eq_foldr, BitVec.add_assoc]

theorem add32_five (a b c d e : Word) : add32 [a, b, c, d, e] = a + b + c + d + e := by
  simp [add32_eq_foldr, BitVec.add_assoc]

@[simp] theorem addWords_get {n : Nat} (x y : Vector Word n) (k : Fin n) :
    (addWords x y).get k = add32 [x.get k, y.get k] := by simp [addWords]

end Sys2Proof.Machine
end

