-- ==== Sys2Proof/Laws/Memory.lean ====
section
/-! SUPPORT. The laws of the byte spaces: read after write, the canonical form, reads and writes of several bytes that may be `NOVAL`. -/

namespace Sys2Proof.Machine

/-- A read after a one-byte write: the byte at its address, the old content elsewhere. -/
theorem Memory.read_write (m : Memory) (a : Nat) (x : Byte) (c : Nat) :
    Memory.read (Memory.write m a x) c = if c = a then some x else Memory.read m c := by
  induction m with
  | nil => by_cases h : a = c <;> simp [Memory.write, Memory.read, h, eq_comm (a := c)]
  | cons e m ih =>
    obtain ⟨b, y⟩ := e
    rcases Nat.lt_trichotomy a b with h | h | h
    · by_cases hc : c = a
      · subst hc; simp [Memory.write, Memory.read, h]
      · simp [Memory.write, Memory.read, h, hc, Ne.symm hc]
    · subst h
      by_cases hc : c = a
      · subst hc; simp [Memory.write, Memory.read]
      · simp [Memory.write, Memory.read, hc, Ne.symm hc]
    · have h1 : ¬ a < b := by omega
      have h2 : a ≠ b := by omega
      by_cases hb : b = c
      · subst hb
        have : b ≠ a := by omega
        simp [Memory.write, Memory.read, h1, h2, this]
      · simp [Memory.write, Memory.read, h1, h2, hb, ih]

/-- A one-byte write keeps every lower bound of the addresses. -/
theorem Memory.write_bound {m : Memory} {a k : Nat} {x : Byte} (h : ∀ e ∈ m, k < e.1) (ha : k < a) :
    ∀ e ∈ Memory.write m a x, k < e.1 := by
  induction m with
  | nil => simpa [Memory.write] using ha
  | cons e m ih =>
    obtain ⟨b, y⟩ := e
    have hb : k < b := h (b, y) (by simp)
    have hm : ∀ e ∈ m, k < e.1 := fun e he => h e (by simp [he])
    intro e he
    by_cases h1 : a < b
    · simp only [Memory.write, h1, if_true, List.mem_cons] at he
      rcases he with rfl | rfl | he
      · exact ha
      · exact hb
      · exact hm e he
    · by_cases h2 : a = b
      · simp only [Memory.write, h2, if_true, if_false, lt_irrefl, List.mem_cons] at he
        rcases he with rfl | he
        · exact hb
        · exact hm e he
      · simp only [Memory.write, h1, h2, if_false, List.mem_cons] at he
        rcases he with rfl | he
        · exact hb
        · exact ih hm e he

/-- A one-byte write keeps the canonical form. -/
theorem Memory.write_wf {m : Memory} (h : Memory.wf m) (a : Nat) (x : Byte) : Memory.wf (Memory.write m a x) := by
  induction m with
  | nil => simp [Memory.write, Memory.wf]
  | cons e m ih =>
    obtain ⟨b, y⟩ := e
    obtain ⟨hb, hm⟩ := List.pairwise_cons.mp h
    by_cases h1 : a < b
    · simp only [Memory.write, h1, if_true]
      refine List.pairwise_cons.mpr ⟨?_, h⟩
      intro e he
      rcases List.mem_cons.mp he with rfl | he
      · exact h1
      · exact lt_trans h1 (hb e he)
    · by_cases h2 : a = b
      · subst h2
        simp only [Memory.write, h1, if_true, if_false]
        exact List.pairwise_cons.mpr ⟨hb, hm⟩
      · simp only [Memory.write, h1, h2, if_false]
        exact List.pairwise_cons.mpr ⟨Memory.write_bound hb (show b < a by omega), ih hm⟩

/-- A read after a content is put: that content at its address, the old one elsewhere. -/
theorem Memory.read_put (m : Memory) (a : Nat) (o : Option Byte) (c : Nat) :
    Memory.read (Memory.put m a o) c = if c = a then o else Memory.read m c := by
  cases o with
  | some x => exact Memory.read_write m a x c
  | none =>
    simp only [Memory.put, ne_eq, decide_not]
    induction m with
    | nil => simp [Memory.read]
    | cons e m ih =>
      obtain ⟨b, y⟩ := e
      rcases eq_or_ne b a with rfl | hb
      · rcases eq_or_ne c b with rfl | hc
        · simpa using ih
        · simpa [hc, Memory.read, Ne.symm hc] using ih
      · rcases eq_or_ne b c with rfl | hc
        · simp [Memory.read, hb]
        · simpa [Memory.read, hb, hc] using ih

/-- Putting a content keeps the canonical form. -/
theorem Memory.put_wf {m : Memory} (h : Memory.wf m) (a : Nat) (o : Option Byte) : Memory.wf (Memory.put m a o) := by
  cases o with
  | some x => exact Memory.write_wf h a x
  | none => exact List.Pairwise.filter _ h

/-- A multi-byte write keeps the canonical form. -/
theorem Memory.putBytes_wf {m : Memory} (h : Memory.wf m) (a : Nat) (bs : List (Option Byte)) :
    Memory.wf (Memory.putBytes m a bs) := by
  induction bs generalizing a with
  | nil => exact h
  | cons b bs ih => exact Memory.put_wf (ih (a + 1)) a b

/-- A read after a multi-byte write: the written contents from its address on, the old content elsewhere. -/
theorem Memory.read_putBytes (m : Memory) (a : Nat) (bs : List (Option Byte)) (c : Nat) :
    Memory.read (Memory.putBytes m a bs) c =
      if a ≤ c ∧ c < a + bs.length then (bs[c - a]?).join else Memory.read m c := by
  induction bs generalizing a with
  | nil =>
    have h : ¬ (a ≤ c ∧ c < a + ([] : List (Option Byte)).length) := by simp
    simp only [Memory.putBytes, h, if_false]
  | cons b bs ih =>
    simp only [Memory.putBytes, Memory.read_put, ih, List.length_cons]
    by_cases h : c = a
    · subst h
      simp
    · by_cases h1 : a + 1 ≤ c ∧ c < a + 1 + bs.length
      · have h2 : a ≤ c ∧ c < a + (bs.length + 1) := by omega
        have h3 : c - a = c - (a + 1) + 1 := by omega
        simp [h, h1, h2, h3]
      · have h2 : ¬ (a ≤ c ∧ c < a + (bs.length + 1)) := by omega
        simp only [h, h1, h2, if_false]

@[simp] theorem Memory.length_readBytes (m : Memory) (a k : Nat) : (Memory.readBytes m a k).length = k := by
  simp [Memory.readBytes]

/-- Byte `i` of a multi-byte read is the content of its address (R18). -/
@[simp] theorem Memory.getElem_readBytes (m : Memory) (a k i : Nat) (h : i < (Memory.readBytes m a k).length) :
    (Memory.readBytes m a k)[i] = Memory.read m (a + i) := by
  simp [Memory.readBytes]

/-- A list of contents misses a byte exactly when one of them is `NOVAL`. -/
theorem missingByte_eq_true {bs : List (Option Byte)} : missingByte bs = true ↔ none ∈ bs := by
  simp [missingByte]

@[simp] theorem missingByte_map_some (bs : List Byte) : missingByte (bs.map some) = false := by
  simp [missingByte]

/-- A multi-byte read that misses nothing is of bytes (R18). -/
theorem Memory.readBytes_eq_map {m : Memory} {a : Nat} {bs : List Byte} (h : ∀ i, i < bs.length → Memory.read m (a + i) = bs[i]?) :
    Memory.readBytes m a bs.length = bs.map some := by
  apply List.ext_getElem
  · simp
  · intro i h1 h2
    simp only [Memory.length_readBytes] at h1
    simp [h i h1, h1]

/-- A Word is read where its four bytes are there (R56). -/
theorem Memory.readWord_eq_some {m : Memory} {a : Nat} {b0 b1 b2 b3 : Byte} (h0 : Memory.read m a = some b0)
    (h1 : Memory.read m (a + 1) = some b1) (h2 : Memory.read m (a + 2) = some b2) (h3 : Memory.read m (a + 3) = some b3) :
    Memory.readWord m a = some (be32 b0 b1 b2 b3) := by
  simp [Memory.readWord, h0, h1, h2, h3]

/-- A Word is read exactly where none of its four bytes is `NOVAL`. -/
theorem Memory.readWord_isSome {m : Memory} {a : Nat} :
    (Memory.readWord m a).isSome = true ↔ ∀ k, k < 4 → (Memory.read m (a + k)).isSome = true := by
  have key : (∀ k, k < 4 → (Memory.read m (a + k)).isSome = true) ↔ (Memory.read m a).isSome = true ∧
      (Memory.read m (a + 1)).isSome = true ∧ (Memory.read m (a + 2)).isSome = true ∧ (Memory.read m (a + 3)).isSome = true := by
    constructor
    · intro h; exact ⟨h 0 (by omega), h 1 (by omega), h 2 (by omega), h 3 (by omega)⟩
    · rintro ⟨h0, h1, h2, h3⟩ k hk
      match k, hk with
      | 0, _ => exact h0
      | 1, _ => exact h1
      | 2, _ => exact h2
      | 3, _ => exact h3
  rw [key, Memory.readWord]
  cases Memory.read m a <;> cases Memory.read m (a + 1) <;> cases Memory.read m (a + 2) <;>
    cases Memory.read m (a + 3) <;> simp

/-- In canonical form an address below every listed one is unlisted. -/
theorem Memory.read_eq_none_of_lt {m : Memory} {a : Nat} (h : ∀ e ∈ m, a < e.1) : Memory.read m a = none := by
  induction m with
  | nil => rfl
  | cons e m ih =>
    obtain ⟨b, y⟩ := e
    have hb : a < b := h (b, y) (by simp)
    have : b ≠ a := by omega
    simp [Memory.read, this, ih fun e he => h e (by simp [he])]

/-- Two spaces in canonical form that read the same at every address are the same data. -/
theorem Memory.eq_of_read_eq {m m' : Memory} (h : Memory.wf m) (h' : Memory.wf m')
    (hr : ∀ a, Memory.read m a = Memory.read m' a) : m = m' := by
  induction m generalizing m' with
  | nil =>
    cases m' with
    | nil => rfl
    | cons e m' => have := hr e.1; simp [Memory.read] at this
  | cons e m ih =>
    obtain ⟨b, y⟩ := e
    obtain ⟨hb, hm⟩ := List.pairwise_cons.mp h
    cases m' with
    | nil => have := hr b; simp [Memory.read] at this
    | cons e' m' =>
      obtain ⟨b', y'⟩ := e'
      obtain ⟨hb', hm'⟩ := List.pairwise_cons.mp h'
      have key : b = b' := by
        rcases Nat.lt_trichotomy b b' with hlt | heq | hgt
        · have h1 := hr b
          rw [Memory.read_eq_none_of_lt (m := (b', y') :: m') (a := b)] at h1
          · simp [Memory.read] at h1
          · intro e he
            rcases List.mem_cons.mp he with rfl | he
            · exact hlt
            · exact lt_trans hlt (hb' e he)
        · exact heq
        · have h1 := hr b'
          rw [Memory.read_eq_none_of_lt (m := (b, y) :: m) (a := b')] at h1
          · simp [Memory.read] at h1
          · intro e he
            rcases List.mem_cons.mp he with rfl | he
            · exact hgt
            · exact lt_trans hgt (hb e he)
      subst key
      have hy : y = y' := by simpa [Memory.read] using hr b
      subst hy
      rw [ih hm hm' fun a => ?_]
      by_cases ha : b = a
      · subst ha
        rw [Memory.read_eq_none_of_lt hb, Memory.read_eq_none_of_lt hb']
      · simpa [Memory.read, ha] using hr a

/-- The spaces of the reset state are in canonical form. -/
theorem reset_memories_wf (u : UnitId) :
    Memory.wf (State.reset.unit u).msg ∧ Memory.wf (State.reset.unit u).pm ∧ Memory.wf (State.reset.unit u).dig ∧
      Memory.wf (State.reset.unit u).hex := by
  cases u <;> exact ⟨.nil, .nil, .nil, .nil⟩

end Sys2Proof.Machine
end

