-- ==== Sys2Proof/Laws/State.lean ====
section
/-! SUPPORT. One lemma per field per update of a unit's state, and the lemmas of the two units inside `State`. -/

namespace Sys2Proof.Machine

@[simp] theorem UnitState.advance_pos {u : UnitId} (x : UnitState u) : (x.advance).pos = { x.pos with step := x.pos.step + 1 } := rfl
@[simp] theorem UnitState.advance_nblk {u : UnitId} (x : UnitState u) : (x.advance).nblk = x.nblk := rfl
@[simp] theorem UnitState.advance_mlen {u : UnitId} (x : UnitState u) : (x.advance).mlen = x.mlen := rfl
@[simp] theorem UnitState.advance_err {u : UnitId} (x : UnitState u) : (x.advance).err = x.err := rfl
@[simp] theorem UnitState.advance_msg {u : UnitId} (x : UnitState u) : (x.advance).msg = x.msg := rfl
@[simp] theorem UnitState.advance_pm {u : UnitId} (x : UnitState u) : (x.advance).pm = x.pm := rfl
@[simp] theorem UnitState.advance_dig {u : UnitId} (x : UnitState u) : (x.advance).dig = x.dig := rfl
@[simp] theorem UnitState.advance_hex {u : UnitId} (x : UnitState u) : (x.advance).hex = x.hex := rfl
@[simp] theorem UnitState.advance_w {u : UnitId} (x : UnitState u) : (x.advance).w = x.w := rfl
@[simp] theorem UnitState.advance_v {u : UnitId} (x : UnitState u) : (x.advance).v = x.v := rfl
@[simp] theorem UnitState.advance_h {u : UnitId} (x : UnitState u) : (x.advance).h = x.h := rfl
@[simp] theorem UnitState.advance_held {u : UnitId} (x : UnitState u) : (x.advance).held = x.held := rfl
@[simp] theorem UnitState.advance_inbox {u : UnitId} (x : UnitState u) : (x.advance).inbox = x.inbox := rfl
@[simp] theorem UnitState.advance_reply {u : UnitId} (x : UnitState u) : (x.advance).reply = x.reply := rfl
@[simp] theorem UnitState.advance_noValueRead {u : UnitId} (x : UnitState u) : (x.advance).noValueRead = x.noValueRead := rfl
@[simp] theorem UnitState.advance_draws {u : UnitId} (x : UnitState u) : (x.advance).draws = x.draws := rfl

@[simp] theorem UnitState.goto_pos {u : UnitId} (x : UnitState u) (ph : Phase) (b : Nat) : (x.goto ph b).pos = ⟨ph, b, 0⟩ := rfl
@[simp] theorem UnitState.goto_nblk {u : UnitId} (x : UnitState u) (ph : Phase) (b : Nat) : (x.goto ph b).nblk = x.nblk := rfl
@[simp] theorem UnitState.goto_mlen {u : UnitId} (x : UnitState u) (ph : Phase) (b : Nat) : (x.goto ph b).mlen = x.mlen := rfl
@[simp] theorem UnitState.goto_err {u : UnitId} (x : UnitState u) (ph : Phase) (b : Nat) : (x.goto ph b).err = x.err := rfl
@[simp] theorem UnitState.goto_msg {u : UnitId} (x : UnitState u) (ph : Phase) (b : Nat) : (x.goto ph b).msg = x.msg := rfl
@[simp] theorem UnitState.goto_pm {u : UnitId} (x : UnitState u) (ph : Phase) (b : Nat) : (x.goto ph b).pm = x.pm := rfl
@[simp] theorem UnitState.goto_dig {u : UnitId} (x : UnitState u) (ph : Phase) (b : Nat) : (x.goto ph b).dig = x.dig := rfl
@[simp] theorem UnitState.goto_hex {u : UnitId} (x : UnitState u) (ph : Phase) (b : Nat) : (x.goto ph b).hex = x.hex := rfl
@[simp] theorem UnitState.goto_w {u : UnitId} (x : UnitState u) (ph : Phase) (b : Nat) : (x.goto ph b).w = x.w := rfl
@[simp] theorem UnitState.goto_v {u : UnitId} (x : UnitState u) (ph : Phase) (b : Nat) : (x.goto ph b).v = x.v := rfl
@[simp] theorem UnitState.goto_h {u : UnitId} (x : UnitState u) (ph : Phase) (b : Nat) : (x.goto ph b).h = x.h := rfl
@[simp] theorem UnitState.goto_held {u : UnitId} (x : UnitState u) (ph : Phase) (b : Nat) : (x.goto ph b).held = x.held := rfl
@[simp] theorem UnitState.goto_inbox {u : UnitId} (x : UnitState u) (ph : Phase) (b : Nat) : (x.goto ph b).inbox = x.inbox := rfl
@[simp] theorem UnitState.goto_reply {u : UnitId} (x : UnitState u) (ph : Phase) (b : Nat) : (x.goto ph b).reply = x.reply := rfl
@[simp] theorem UnitState.goto_noValueRead {u : UnitId} (x : UnitState u) (ph : Phase) (b : Nat) : (x.goto ph b).noValueRead = x.noValueRead := rfl
@[simp] theorem UnitState.goto_draws {u : UnitId} (x : UnitState u) (ph : Phase) (b : Nat) : (x.goto ph b).draws = x.draws := rfl

@[simp] theorem UnitState.raiseMessageTooLarge_pos {u : UnitId} (x : UnitState u) : (x.raiseMessageTooLarge).pos = ⟨.failed, 0, 0⟩ := rfl
@[simp] theorem UnitState.raiseMessageTooLarge_nblk {u : UnitId} (x : UnitState u) : (x.raiseMessageTooLarge).nblk = x.nblk := rfl
@[simp] theorem UnitState.raiseMessageTooLarge_mlen {u : UnitId} (x : UnitState u) : (x.raiseMessageTooLarge).mlen = x.mlen := rfl
@[simp] theorem UnitState.raiseMessageTooLarge_err {u : UnitId} (x : UnitState u) : (x.raiseMessageTooLarge).err = errMessageTooLarge := rfl
@[simp] theorem UnitState.raiseMessageTooLarge_msg {u : UnitId} (x : UnitState u) : (x.raiseMessageTooLarge).msg = x.msg := rfl
@[simp] theorem UnitState.raiseMessageTooLarge_pm {u : UnitId} (x : UnitState u) : (x.raiseMessageTooLarge).pm = x.pm := rfl
@[simp] theorem UnitState.raiseMessageTooLarge_dig {u : UnitId} (x : UnitState u) : (x.raiseMessageTooLarge).dig = x.dig := rfl
@[simp] theorem UnitState.raiseMessageTooLarge_hex {u : UnitId} (x : UnitState u) : (x.raiseMessageTooLarge).hex = x.hex := rfl
@[simp] theorem UnitState.raiseMessageTooLarge_w {u : UnitId} (x : UnitState u) : (x.raiseMessageTooLarge).w = x.w := rfl
@[simp] theorem UnitState.raiseMessageTooLarge_v {u : UnitId} (x : UnitState u) : (x.raiseMessageTooLarge).v = x.v := rfl
@[simp] theorem UnitState.raiseMessageTooLarge_h {u : UnitId} (x : UnitState u) : (x.raiseMessageTooLarge).h = x.h := rfl
@[simp] theorem UnitState.raiseMessageTooLarge_held {u : UnitId} (x : UnitState u) : (x.raiseMessageTooLarge).held = x.held := rfl
@[simp] theorem UnitState.raiseMessageTooLarge_inbox {u : UnitId} (x : UnitState u) : (x.raiseMessageTooLarge).inbox = x.inbox := rfl
@[simp] theorem UnitState.raiseMessageTooLarge_reply {u : UnitId} (x : UnitState u) : (x.raiseMessageTooLarge).reply = x.reply := rfl
@[simp] theorem UnitState.raiseMessageTooLarge_noValueRead {u : UnitId} (x : UnitState u) : (x.raiseMessageTooLarge).noValueRead = x.noValueRead := rfl
@[simp] theorem UnitState.raiseMessageTooLarge_draws {u : UnitId} (x : UnitState u) : (x.raiseMessageTooLarge).draws = x.draws := rfl

@[simp] theorem UnitState.beginComputation_pos {u : UnitId} (x : UnitState u) : (x.beginComputation).pos = ⟨.start, 0, 0⟩ := rfl
@[simp] theorem UnitState.beginComputation_nblk {u : UnitId} (x : UnitState u) : (x.beginComputation).nblk = none := rfl
@[simp] theorem UnitState.beginComputation_mlen {u : UnitId} (x : UnitState u) : (x.beginComputation).mlen = x.mlen := rfl
@[simp] theorem UnitState.beginComputation_err {u : UnitId} (x : UnitState u) : (x.beginComputation).err = errNone := rfl
@[simp] theorem UnitState.beginComputation_msg {u : UnitId} (x : UnitState u) : (x.beginComputation).msg = x.msg := rfl
@[simp] theorem UnitState.beginComputation_pm {u : UnitId} (x : UnitState u) : (x.beginComputation).pm = [] := rfl
@[simp] theorem UnitState.beginComputation_dig {u : UnitId} (x : UnitState u) : (x.beginComputation).dig = [] := rfl
@[simp] theorem UnitState.beginComputation_hex {u : UnitId} (x : UnitState u) : (x.beginComputation).hex = [] := rfl
@[simp] theorem UnitState.beginComputation_w {u : UnitId} (x : UnitState u) : (x.beginComputation).w = Cells.noval _ := rfl
@[simp] theorem UnitState.beginComputation_v {u : UnitId} (x : UnitState u) : (x.beginComputation).v = Cells.noval _ := rfl
@[simp] theorem UnitState.beginComputation_h {u : UnitId} (x : UnitState u) : (x.beginComputation).h = Cells.noval _ := rfl
@[simp] theorem UnitState.beginComputation_held {u : UnitId} (x : UnitState u) : (x.beginComputation).held = x.held := rfl
@[simp] theorem UnitState.beginComputation_inbox {u : UnitId} (x : UnitState u) : (x.beginComputation).inbox = x.inbox := rfl
@[simp] theorem UnitState.beginComputation_reply {u : UnitId} (x : UnitState u) : (x.beginComputation).reply = x.reply := rfl
@[simp] theorem UnitState.beginComputation_noValueRead {u : UnitId} (x : UnitState u) : (x.beginComputation).noValueRead = x.noValueRead := rfl
@[simp] theorem UnitState.beginComputation_draws {u : UnitId} (x : UnitState u) : (x.beginComputation).draws = x.draws := rfl

@[simp] theorem UnitState.answer_pos {u : UnitId} (x : UnitState u) (r : HostReply) : (x.answer r).pos = x.pos := rfl
@[simp] theorem UnitState.answer_nblk {u : UnitId} (x : UnitState u) (r : HostReply) : (x.answer r).nblk = x.nblk := rfl
@[simp] theorem UnitState.answer_mlen {u : UnitId} (x : UnitState u) (r : HostReply) : (x.answer r).mlen = x.mlen := rfl
@[simp] theorem UnitState.answer_err {u : UnitId} (x : UnitState u) (r : HostReply) : (x.answer r).err = x.err := rfl
@[simp] theorem UnitState.answer_msg {u : UnitId} (x : UnitState u) (r : HostReply) : (x.answer r).msg = x.msg := rfl
@[simp] theorem UnitState.answer_pm {u : UnitId} (x : UnitState u) (r : HostReply) : (x.answer r).pm = x.pm := rfl
@[simp] theorem UnitState.answer_dig {u : UnitId} (x : UnitState u) (r : HostReply) : (x.answer r).dig = x.dig := rfl
@[simp] theorem UnitState.answer_hex {u : UnitId} (x : UnitState u) (r : HostReply) : (x.answer r).hex = x.hex := rfl
@[simp] theorem UnitState.answer_w {u : UnitId} (x : UnitState u) (r : HostReply) : (x.answer r).w = x.w := rfl
@[simp] theorem UnitState.answer_v {u : UnitId} (x : UnitState u) (r : HostReply) : (x.answer r).v = x.v := rfl
@[simp] theorem UnitState.answer_h {u : UnitId} (x : UnitState u) (r : HostReply) : (x.answer r).h = x.h := rfl
@[simp] theorem UnitState.answer_held {u : UnitId} (x : UnitState u) (r : HostReply) : (x.answer r).held = x.held := rfl
@[simp] theorem UnitState.answer_inbox {u : UnitId} (x : UnitState u) (r : HostReply) : (x.answer r).inbox = x.inbox := rfl
@[simp] theorem UnitState.answer_reply {u : UnitId} (x : UnitState u) (r : HostReply) : (x.answer r).reply = some r := rfl
@[simp] theorem UnitState.answer_noValueRead {u : UnitId} (x : UnitState u) (r : HostReply) : (x.answer r).noValueRead = x.noValueRead := rfl
@[simp] theorem UnitState.answer_draws {u : UnitId} (x : UnitState u) (r : HostReply) : (x.answer r).draws = x.draws := rfl

@[simp] theorem UnitState.afterReset_pos {u : UnitId} (x : UnitState u) : (x.afterReset).pos = (UnitState.reset u).pos := rfl
@[simp] theorem UnitState.afterReset_nblk {u : UnitId} (x : UnitState u) : (x.afterReset).nblk = (UnitState.reset u).nblk := rfl
@[simp] theorem UnitState.afterReset_mlen {u : UnitId} (x : UnitState u) : (x.afterReset).mlen = (UnitState.reset u).mlen := rfl
@[simp] theorem UnitState.afterReset_err {u : UnitId} (x : UnitState u) : (x.afterReset).err = (UnitState.reset u).err := rfl
@[simp] theorem UnitState.afterReset_msg {u : UnitId} (x : UnitState u) : (x.afterReset).msg = (UnitState.reset u).msg := rfl
@[simp] theorem UnitState.afterReset_pm {u : UnitId} (x : UnitState u) : (x.afterReset).pm = (UnitState.reset u).pm := rfl
@[simp] theorem UnitState.afterReset_dig {u : UnitId} (x : UnitState u) : (x.afterReset).dig = (UnitState.reset u).dig := rfl
@[simp] theorem UnitState.afterReset_hex {u : UnitId} (x : UnitState u) : (x.afterReset).hex = (UnitState.reset u).hex := rfl
@[simp] theorem UnitState.afterReset_w {u : UnitId} (x : UnitState u) : (x.afterReset).w = (UnitState.reset u).w := rfl
@[simp] theorem UnitState.afterReset_v {u : UnitId} (x : UnitState u) : (x.afterReset).v = (UnitState.reset u).v := rfl
@[simp] theorem UnitState.afterReset_h {u : UnitId} (x : UnitState u) : (x.afterReset).h = (UnitState.reset u).h := rfl
@[simp] theorem UnitState.afterReset_held {u : UnitId} (x : UnitState u) : (x.afterReset).held = (UnitState.reset u).held := rfl
@[simp] theorem UnitState.afterReset_inbox {u : UnitId} (x : UnitState u) : (x.afterReset).inbox = x.inbox := rfl
@[simp] theorem UnitState.afterReset_reply {u : UnitId} (x : UnitState u) : (x.afterReset).reply = (UnitState.reset u).reply := rfl
@[simp] theorem UnitState.afterReset_noValueRead {u : UnitId} (x : UnitState u) : (x.afterReset).noValueRead = (UnitState.reset u).noValueRead := rfl
@[simp] theorem UnitState.afterReset_draws {u : UnitId} (x : UnitState u) : (x.afterReset).draws = x.draws := rfl

@[simp] theorem UnitState.record_pos {u : UnitId} (x : UnitState u) (k : Store) (b : Bool) : (x.record k b).pos = x.pos := rfl
@[simp] theorem UnitState.record_nblk {u : UnitId} (x : UnitState u) (k : Store) (b : Bool) : (x.record k b).nblk = x.nblk := rfl
@[simp] theorem UnitState.record_mlen {u : UnitId} (x : UnitState u) (k : Store) (b : Bool) : (x.record k b).mlen = x.mlen := rfl
@[simp] theorem UnitState.record_err {u : UnitId} (x : UnitState u) (k : Store) (b : Bool) : (x.record k b).err = x.err := rfl
@[simp] theorem UnitState.record_msg {u : UnitId} (x : UnitState u) (k : Store) (b : Bool) : (x.record k b).msg = x.msg := rfl
@[simp] theorem UnitState.record_pm {u : UnitId} (x : UnitState u) (k : Store) (b : Bool) : (x.record k b).pm = x.pm := rfl
@[simp] theorem UnitState.record_dig {u : UnitId} (x : UnitState u) (k : Store) (b : Bool) : (x.record k b).dig = x.dig := rfl
@[simp] theorem UnitState.record_hex {u : UnitId} (x : UnitState u) (k : Store) (b : Bool) : (x.record k b).hex = x.hex := rfl
@[simp] theorem UnitState.record_w {u : UnitId} (x : UnitState u) (k : Store) (b : Bool) : (x.record k b).w = x.w := rfl
@[simp] theorem UnitState.record_v {u : UnitId} (x : UnitState u) (k : Store) (b : Bool) : (x.record k b).v = x.v := rfl
@[simp] theorem UnitState.record_h {u : UnitId} (x : UnitState u) (k : Store) (b : Bool) : (x.record k b).h = x.h := rfl
@[simp] theorem UnitState.record_held {u : UnitId} (x : UnitState u) (k : Store) (b : Bool) : (x.record k b).held = x.held := rfl
@[simp] theorem UnitState.record_inbox {u : UnitId} (x : UnitState u) (k : Store) (b : Bool) : (x.record k b).inbox = x.inbox := rfl
@[simp] theorem UnitState.record_reply {u : UnitId} (x : UnitState u) (k : Store) (b : Bool) : (x.record k b).reply = x.reply := rfl
@[simp] theorem UnitState.record_noValueRead {u : UnitId} (x : UnitState u) (k : Store) (b : Bool) : (x.record k b).noValueRead = x.noValueRead.or (if b then some k else none) := rfl
@[simp] theorem UnitState.record_draws {u : UnitId} (x : UnitState u) (k : Store) (b : Bool) : (x.record k b).draws = x.draws := rfl

/-- A read that met a value records nothing. -/
@[simp] theorem UnitState.record_false {u : UnitId} (x : UnitState u) (k : Store) : x.record k false = x := by
  simp [UnitState.record]

/-- A read of `NOVAL` is recorded unless an earlier one is (R235 a). -/
theorem UnitState.record_true {u : UnitId} (x : UnitState u) (k : Store) :
    x.record k true = { x with noValueRead := x.noValueRead.or (some k) } := rfl

/-- Nothing is recorded exactly when nothing was and the read met a value. -/
theorem UnitState.record_eq_none {u : UnitId} (x : UnitState u) (k : Store) (b : Bool) :
    (x.record k b).noValueRead = none ↔ x.noValueRead = none ∧ b = false := by
  cases b <;> simp [UnitState.record]

@[simp] theorem UnitState.drawn_pos {u : UnitId} (x : UnitState u) : (x.drawn).pos = x.pos := rfl
@[simp] theorem UnitState.drawn_nblk {u : UnitId} (x : UnitState u) : (x.drawn).nblk = x.nblk := rfl
@[simp] theorem UnitState.drawn_mlen {u : UnitId} (x : UnitState u) : (x.drawn).mlen = x.mlen := rfl
@[simp] theorem UnitState.drawn_err {u : UnitId} (x : UnitState u) : (x.drawn).err = x.err := rfl
@[simp] theorem UnitState.drawn_msg {u : UnitId} (x : UnitState u) : (x.drawn).msg = x.msg := rfl
@[simp] theorem UnitState.drawn_pm {u : UnitId} (x : UnitState u) : (x.drawn).pm = x.pm := rfl
@[simp] theorem UnitState.drawn_dig {u : UnitId} (x : UnitState u) : (x.drawn).dig = x.dig := rfl
@[simp] theorem UnitState.drawn_hex {u : UnitId} (x : UnitState u) : (x.drawn).hex = x.hex := rfl
@[simp] theorem UnitState.drawn_w {u : UnitId} (x : UnitState u) : (x.drawn).w = x.w := rfl
@[simp] theorem UnitState.drawn_v {u : UnitId} (x : UnitState u) : (x.drawn).v = x.v := rfl
@[simp] theorem UnitState.drawn_h {u : UnitId} (x : UnitState u) : (x.drawn).h = x.h := rfl
@[simp] theorem UnitState.drawn_held {u : UnitId} (x : UnitState u) : (x.drawn).held = x.held := rfl
@[simp] theorem UnitState.drawn_inbox {u : UnitId} (x : UnitState u) : (x.drawn).inbox = x.inbox := rfl
@[simp] theorem UnitState.drawn_reply {u : UnitId} (x : UnitState u) : (x.drawn).reply = x.reply := rfl
@[simp] theorem UnitState.drawn_noValueRead {u : UnitId} (x : UnitState u) : (x.drawn).noValueRead = x.noValueRead := rfl
@[simp] theorem UnitState.drawn_draws {u : UnitId} (x : UnitState u) : (x.drawn).draws = x.draws + 1 := rfl

@[simp] theorem UnitState.schedule_pos {u : UnitId} (x : UnitState u) (i : Nat) (k : Store) (y : Option Word) : (x.schedule i k y).pos = { x.pos with step := x.pos.step + 1 } := rfl
@[simp] theorem UnitState.schedule_nblk {u : UnitId} (x : UnitState u) (i : Nat) (k : Store) (y : Option Word) : (x.schedule i k y).nblk = x.nblk := rfl
@[simp] theorem UnitState.schedule_mlen {u : UnitId} (x : UnitState u) (i : Nat) (k : Store) (y : Option Word) : (x.schedule i k y).mlen = x.mlen := rfl
@[simp] theorem UnitState.schedule_err {u : UnitId} (x : UnitState u) (i : Nat) (k : Store) (y : Option Word) : (x.schedule i k y).err = x.err := rfl
@[simp] theorem UnitState.schedule_msg {u : UnitId} (x : UnitState u) (i : Nat) (k : Store) (y : Option Word) : (x.schedule i k y).msg = x.msg := rfl
@[simp] theorem UnitState.schedule_pm {u : UnitId} (x : UnitState u) (i : Nat) (k : Store) (y : Option Word) : (x.schedule i k y).pm = x.pm := rfl
@[simp] theorem UnitState.schedule_dig {u : UnitId} (x : UnitState u) (i : Nat) (k : Store) (y : Option Word) : (x.schedule i k y).dig = x.dig := rfl
@[simp] theorem UnitState.schedule_hex {u : UnitId} (x : UnitState u) (i : Nat) (k : Store) (y : Option Word) : (x.schedule i k y).hex = x.hex := rfl
@[simp] theorem UnitState.schedule_w {u : UnitId} (x : UnitState u) (i : Nat) (k : Store) (y : Option Word) : (x.schedule i k y).w = x.w.put i y := rfl
@[simp] theorem UnitState.schedule_v {u : UnitId} (x : UnitState u) (i : Nat) (k : Store) (y : Option Word) : (x.schedule i k y).v = x.v := rfl
@[simp] theorem UnitState.schedule_h {u : UnitId} (x : UnitState u) (i : Nat) (k : Store) (y : Option Word) : (x.schedule i k y).h = x.h := rfl
@[simp] theorem UnitState.schedule_held {u : UnitId} (x : UnitState u) (i : Nat) (k : Store) (y : Option Word) : (x.schedule i k y).held = x.held := rfl
@[simp] theorem UnitState.schedule_inbox {u : UnitId} (x : UnitState u) (i : Nat) (k : Store) (y : Option Word) : (x.schedule i k y).inbox = x.inbox := rfl
@[simp] theorem UnitState.schedule_reply {u : UnitId} (x : UnitState u) (i : Nat) (k : Store) (y : Option Word) : (x.schedule i k y).reply = x.reply := rfl
@[simp] theorem UnitState.schedule_noValueRead {u : UnitId} (x : UnitState u) (i : Nat) (k : Store) (y : Option Word) : (x.schedule i k y).noValueRead = x.noValueRead.or (if y.isNone then some k else none) := rfl
@[simp] theorem UnitState.schedule_draws {u : UnitId} (x : UnitState u) (i : Nat) (k : Store) (y : Option Word) : (x.schedule i k y).draws = x.draws := rfl

@[simp] theorem UnitState.answerRead_pos {u : UnitId} (x : UnitState u) (k : Store) (r : Option HostReply) : (x.answerRead k r).pos = x.pos := rfl
@[simp] theorem UnitState.answerRead_nblk {u : UnitId} (x : UnitState u) (k : Store) (r : Option HostReply) : (x.answerRead k r).nblk = x.nblk := rfl
@[simp] theorem UnitState.answerRead_mlen {u : UnitId} (x : UnitState u) (k : Store) (r : Option HostReply) : (x.answerRead k r).mlen = x.mlen := rfl
@[simp] theorem UnitState.answerRead_err {u : UnitId} (x : UnitState u) (k : Store) (r : Option HostReply) : (x.answerRead k r).err = x.err := rfl
@[simp] theorem UnitState.answerRead_msg {u : UnitId} (x : UnitState u) (k : Store) (r : Option HostReply) : (x.answerRead k r).msg = x.msg := rfl
@[simp] theorem UnitState.answerRead_pm {u : UnitId} (x : UnitState u) (k : Store) (r : Option HostReply) : (x.answerRead k r).pm = x.pm := rfl
@[simp] theorem UnitState.answerRead_dig {u : UnitId} (x : UnitState u) (k : Store) (r : Option HostReply) : (x.answerRead k r).dig = x.dig := rfl
@[simp] theorem UnitState.answerRead_hex {u : UnitId} (x : UnitState u) (k : Store) (r : Option HostReply) : (x.answerRead k r).hex = x.hex := rfl
@[simp] theorem UnitState.answerRead_w {u : UnitId} (x : UnitState u) (k : Store) (r : Option HostReply) : (x.answerRead k r).w = x.w := rfl
@[simp] theorem UnitState.answerRead_v {u : UnitId} (x : UnitState u) (k : Store) (r : Option HostReply) : (x.answerRead k r).v = x.v := rfl
@[simp] theorem UnitState.answerRead_h {u : UnitId} (x : UnitState u) (k : Store) (r : Option HostReply) : (x.answerRead k r).h = x.h := rfl
@[simp] theorem UnitState.answerRead_held {u : UnitId} (x : UnitState u) (k : Store) (r : Option HostReply) : (x.answerRead k r).held = x.held := rfl
@[simp] theorem UnitState.answerRead_inbox {u : UnitId} (x : UnitState u) (k : Store) (r : Option HostReply) : (x.answerRead k r).inbox = x.inbox := rfl
@[simp] theorem UnitState.answerRead_reply {u : UnitId} (x : UnitState u) (k : Store) (r : Option HostReply) : (x.answerRead k r).reply = some (r.getD .noValue) := rfl
@[simp] theorem UnitState.answerRead_noValueRead {u : UnitId} (x : UnitState u) (k : Store) (r : Option HostReply) : (x.answerRead k r).noValueRead = x.noValueRead.or (if r.isNone then some k else none) := rfl
@[simp] theorem UnitState.answerRead_draws {u : UnitId} (x : UnitState u) (k : Store) (r : Option HostReply) : (x.answerRead k r).draws = x.draws := rfl

/-- A read of a place that holds a value is answered it and records nothing (R71). -/
@[simp] theorem UnitState.answerRead_some {u : UnitId} (x : UnitState u) (k : Store) (r : HostReply) :
    x.answerRead k (some r) = x.answer r := by
  simp [UnitState.answerRead]

@[simp] theorem State.unit_s1 (s : State) : s.unit .s1 = s.s1 := rfl
@[simp] theorem State.unit_s256 (s : State) : s.unit .s256 = s.s256 := rfl
@[simp] theorem State.setUnit_s1 (s : State) (x : UnitState .s1) : s.setUnit .s1 x = { s with s1 := x } := rfl
@[simp] theorem State.setUnit_s256 (s : State) (x : UnitState .s256) : s.setUnit .s256 x = { s with s256 := x } := rfl

/-- A unit put back is read back. -/
@[simp] theorem State.unit_setUnit (s : State) (u : UnitId) (x : UnitState u) : (s.setUnit u x).unit u = x := by
  cases u <;> rfl

/-- Putting one unit back leaves the other (R20). -/
theorem State.unit_setUnit_of_ne (s : State) {u v : UnitId} (h : v ≠ u) (x : UnitState u) :
    (s.setUnit u x).unit v = s.unit v := by
  cases u <;> cases v <;> first | rfl | exact absurd rfl h

@[simp] theorem State.sched_setUnit (s : State) (u : UnitId) (x : UnitState u) : (s.setUnit u x).sched = s.sched := by
  cases u <;> rfl

@[simp] theorem State.setUnit_setUnit (s : State) (u : UnitId) (x y : UnitState u) :
    (s.setUnit u x).setUnit u y = s.setUnit u y := by
  cases u <;> rfl

@[simp] theorem State.setUnit_unit (s : State) (u : UnitId) : s.setUnit u (s.unit u) = s := by
  cases u <;> rfl

@[simp] theorem State.unit_withSched (s : State) (l : List Move) (u : UnitId) :
    State.unit { s with sched := l } u = s.unit u := by
  cases u <;> rfl

/-- The two units of a state and its schedule are all of it. -/
theorem State.ext_unit {s t : State} (h : ∀ u, s.unit u = t.unit u) (hs : s.sched = t.sched) : s = t := by
  obtain ⟨a, b, l⟩ := s
  obtain ⟨a', b', l'⟩ := t
  have h1 : a = a' := h .s1
  have h2 : b = b' := h .s256
  have h3 : l = l' := hs
  subst h1 h2 h3
  rfl

/-- The two units' updates commute (R20). -/
theorem State.setUnit_comm (s : State) (x : UnitState .s1) (y : UnitState .s256) :
    (s.setUnit .s1 x).setUnit .s256 y = (s.setUnit .s256 y).setUnit .s1 x := rfl

/-- Reset acts on each unit (R250). -/
theorem resetMove_unit (s : State) (u : UnitId) : (resetMove s).unit u = (s.unit u).afterReset := by
  cases u <;> rfl

end Sys2Proof.Machine
end

