-- ==== Sys2Proof/Laws/Ops.lean ====
section
/-! SUPPORT. What each shared operation and each micro-operation of a unit can answer, said once: its next state exactly, with the
conditions under which it is given. -/

namespace Sys2Proof.Machine

/-- The state a meaning answers is the one it is given. -/
theorem next_eq {σ φ ρ : Type} {a y : σ} : (Host.Outcome.next a : Host.Outcome σ φ ρ) = .next y ↔ y = a := by
  rw [Host.Outcome.next.injEq]; exact eq_comm

theorem atPosition_next {u : UnitId} {x y : UnitState u} {ph : Phase} {st : Nat} {k : UnitOutcome u} :
    atPosition x ph st k = .next y ↔ (x.pos.phase = ph ∧ x.pos.step = st) ∧ k = .next y := by
  unfold atPosition
  split <;> simp_all

theorem onUnit_next {s t : State} {u : UnitId} {f : UnitState u → UnitOutcome u} :
    s.onUnit u f = .next t ↔ ∃ y, f (s.unit u) = .next y ∧ t = s.setUnit u y := by
  unfold State.onUnit
  cases f (s.unit u) <;> simp [eq_comm]

theorem onUnit_refused {s : State} {u : UnitId} {f : UnitState u → UnitOutcome u} {r : Refusal} :
    s.onUnit u f = .refused r ↔ f (s.unit u) = .refused r := by
  unfold State.onUnit
  cases f (s.unit u) <;> simp

theorem startUnit_next {u : UnitId} {x y : UnitState u} :
    startUnit x = .next y ↔ busy x.pos.phase = false ∧ y = x.beginComputation := by
  unfold startUnit
  cases busy x.pos.phase <;> simp [eq_comm]

theorem checklenUnit_next {u : UnitId} {x y : UnitState u} :
    checklenUnit x = .next y ↔ (x.pos.phase = .start ∧ x.pos.step = 0) ∧
      ((∃ n, x.mlen = some n ∧ ((2 ^ 64 ≤ 8 * n ∧ y = x.raiseMessageTooLarge) ∨ (8 * n < 2 ^ 64 ∧ y = x.advance))) ∨
        (x.mlen = none ∧ ((Config.freeBranch u x.draws = true ∧ y = (x.record .mlen true).drawn.raiseMessageTooLarge) ∨
          (Config.freeBranch u x.draws = false ∧ y = (x.record .mlen true).drawn.advance)))) := by
  simp only [checklenUnit, atPosition_next, next_eq]
  refine and_congr_right fun _ => ?_
  cases x.mlen with
  | none => cases Config.freeBranch u x.draws <;> simp
  | some n =>
    by_cases h : 2 ^ 64 ≤ 8 * n
    · simp only [Config.lengthLimit, h, Nat.not_lt.mpr h, if_true, Option.some.injEq, exists_eq_left', true_and, false_and,
        or_false, reduceCtorEq]
    · simp only [Config.lengthLimit, h, Nat.lt_of_not_le h, if_false, Option.some.injEq, exists_eq_left', true_and, false_and,
        false_or, or_false, reduceCtorEq]

theorem initUnit_next {u : UnitId} {x y : UnitState u} :
    initUnit x = .next y ↔ (x.pos.phase = .start ∧ x.pos.step = 1) ∧
      y = ({ x with h := Cells.full (Config.iv u) }).goto .padding 0 := by
  simp only [initUnit, atPosition_next, next_eq]

theorem padUnit_next {u : UnitId} {x y : UnitState u} :
    padUnit x = .next y ↔ (x.pos.phase = .padding ∧ x.pos.step = 0) ∧
      ((∃ n, x.mlen = some n ∧ 8 * n < 2 ^ 64 ∧
          y = (({ x.record .msg (missingByte (pmBytes x.msg n)) with
            nblk := some (blockCount n), pm := Memory.putBytes x.pm 0 (pmBytes x.msg n) }).goto .processingBlock 0)) ∨
        (x.mlen = none ∧ y = ({ x.record .mlen true with nblk := none, pm := [] }).goto .processingBlock 0)) := by
  simp only [padUnit, atPosition_next]
  refine and_congr_right fun _ => ?_
  cases x.mlen with
  | none => simp only [next_eq, reduceCtorEq, false_and, exists_false, true_and, false_or]
  | some n =>
    by_cases h : 2 ^ 64 ≤ 8 * n
    · simp only [Config.lengthLimit, h, Nat.not_lt.mpr h, if_true, Option.some.injEq, exists_eq_left', false_and, or_false,
        reduceCtorEq]
    · simp only [Config.lengthLimit, h, Nat.lt_of_not_le h, if_false, next_eq, Option.some.injEq, exists_eq_left', true_and,
        false_and, or_false, reduceCtorEq]

theorem wloadUnit_next {u : UnitId} {j : Nat} {x y : UnitState u} :
    wloadUnit j x = .next y ↔ j ≤ 15 ∧ (x.pos.phase = .processingBlock ∧ x.pos.step = j) ∧
      y = x.schedule j .pm (Memory.readWord x.pm (64 * x.pos.blk + 4 * j)) := by
  unfold wloadUnit
  by_cases h : j ≤ 15
  · simp only [h, if_true, atPosition_next, next_eq, true_and]
  · simp [h]

theorem wexpS1_next {i : Nat} {x y : UnitState .s1} :
    wexpS1 i x = .next y ↔ (16 ≤ i ∧ i ≤ 79) ∧ (x.pos.phase = .processingBlock ∧ x.pos.step = i) ∧
      y = x.schedule i .w (fromFour expandS1 (x.w.at (i - 3)) (x.w.at (i - 8)) (x.w.at (i - 14)) (x.w.at (i - 16))) := by
  unfold wexpS1
  by_cases h : 16 ≤ i ∧ i ≤ 79
  · simp only [h, and_self, if_true, atPosition_next, true_and, next_eq]
  · simp [h]

theorem wexpS256_next {i : Nat} {x y : UnitState .s256} :
    wexpS256 i x = .next y ↔ (16 ≤ i ∧ i ≤ 63) ∧ (x.pos.phase = .processingBlock ∧ x.pos.step = i) ∧
      y = x.schedule i .w (fromFour expandS256 (x.w.at (i - 16)) (x.w.at (i - 15)) (x.w.at (i - 7)) (x.w.at (i - 2))) := by
  unfold wexpS256
  by_cases h : 16 ≤ i ∧ i ≤ 63
  · simp only [h, and_self, if_true, atPosition_next, true_and, next_eq]
  · simp [h]

theorem loadvUnit_next {u : UnitId} {x y : UnitState u} :
    loadvUnit x = .next y ↔ (x.pos.phase = .processingBlock ∧ x.pos.step = Config.nw u) ∧
      y = ({ x.record .h x.h.missing with v := x.h }).advance := by
  simp only [loadvUnit, atPosition_next, next_eq]

theorem roundUnit_next {u : UnitId} {t : Nat} {x y : UnitState u} :
    roundUnit t x = .next y ↔ t < Config.nr u ∧
      (x.pos.phase = .processingBlock ∧ x.pos.step = Config.nw u + 1 + t) ∧
      y = ({ (x.record .v x.v.missing).record .w (x.w.at t).isNone with v := roundCells u t (x.w.at t) x.v }).advance := by
  unfold roundUnit
  by_cases h : t < Config.nr u
  · simp only [h, if_true, atPosition_next, true_and, next_eq]
  · simp [h]

theorem addhUnit_next {u : UnitId} {x y : UnitState u} :
    addhUnit x = .next y ↔ (x.pos.phase = .processingBlock ∧ x.pos.step = Config.nw u + 1 + Config.nr u) ∧
      y = ({ (x.record .h x.h.missing).record .v x.v.missing with
        h := Vector.ofFn fun k => addCell (x.h.get k) (x.v.get k) }).advance := by
  simp only [addhUnit, atPosition_next, next_eq]

theorem nextblkUnit_next {u : UnitId} {x y : UnitState u} :
    nextblkUnit x = .next y ↔ (x.pos.phase = .processingBlock ∧ x.pos.step = Config.nw u + Config.nr u + 2) ∧
      ((∃ n, x.nblk = some n ∧
          ((x.pos.blk + 1 < n ∧
              y = ({ x with w := Cells.noval _, v := Cells.noval _ }).goto .processingBlock (x.pos.blk + 1)) ∨
            (n ≤ x.pos.blk + 1 ∧ y = ({ x with w := Cells.noval _, v := Cells.noval _ }).goto .finalizing 0))) ∨
        (x.nblk = none ∧
          ((Config.freeBranch u x.draws = true ∧
              y = ({ (x.record .nblk true).drawn with w := Cells.noval _, v := Cells.noval _ }).goto .processingBlock (x.pos.blk + 1)) ∨
            (Config.freeBranch u x.draws = false ∧
              y = ({ (x.record .nblk true).drawn with w := Cells.noval _, v := Cells.noval _ }).goto .finalizing 0)))) := by
  simp only [nextblkUnit, atPosition_next, next_eq]
  refine and_congr_right fun _ => ?_
  rcases hn : x.nblk with _ | n
  · cases Config.freeBranch u x.draws <;> simp [UnitState.record, UnitState.drawn, hn]
  · by_cases h : x.pos.blk + 1 < n
    · simp only [h, Nat.not_le.mpr h, if_true, Option.some.injEq, exists_eq_left', true_and, false_and, or_false, reduceCtorEq]
    · simp only [h, Nat.le_of_not_lt h, if_false, Option.some.injEq, exists_eq_left', true_and, false_and, false_or, or_false,
        reduceCtorEq]

theorem serializeUnit_next {u : UnitId} {x y : UnitState u} :
    serializeUnit x = .next y ↔ (x.pos.phase = .finalizing ∧ x.pos.step = 0) ∧
      y = ({ x.record .h x.h.missing with dig := Memory.putBytes x.dig 0 (cellBytes x.h) }).advance := by
  simp only [serializeUnit, atPosition_next, next_eq]

theorem hexencUnit_next {u : UnitId} {x y : UnitState u} :
    hexencUnit x = .next y ↔ (x.pos.phase = .finalizing ∧ x.pos.step = 1) ∧
      y = ({ x.record .dig (missingByte (Memory.readBytes x.dig 0 (Config.db u))) with
        hex := Memory.putBytes x.hex 0 (hexCells (Memory.readBytes x.dig 0 (Config.db u))) }).goto .finalized 0 := by
  simp only [hexencUnit, atPosition_next, next_eq]

/-! ### The computations on content that may be `NOVAL`: on values they are the rules' own -/

/-- Five Words as a full register file. -/
theorem Cells.full_five (a b c d e : Word) : Cells.full #v[a, b, c, d, e] = #v[some a, some b, some c, some d, some e] := rfl

/-- Eight Words as a full register file. -/
theorem Cells.full_eight (a b c d e f g h : Word) :
    Cells.full #v[a, b, c, d, e, f, g, h] = #v[some a, some b, some c, some d, some e, some f, some g, some h] := rfl

/-- A round on registers and a schedule entry that hold Words is the rule's round (R145, R151). -/
@[simp] theorem roundCells_full (u : UnitId) (t : Nat) (wt : Word) (r : Vector Word (Config.ns u)) :
    roundCells u t (some wt) (Cells.full r) = Cells.full (roundOf u t wt r) := by
  cases u with
  | s1 => simp only [roundCells, roundCellsS1, roundOf, roundS1, Cells.full_get, Cells.full_five]; rfl
  | s256 => simp only [roundCells, roundCellsS256, roundOf, roundS256, Cells.full_get, Cells.full_eight]; rfl

/-- `ADDH` on a State and registers that hold Words (R153). -/
theorem addCell_full {n : Nat} (h r : Vector Word n) :
    (Vector.ofFn fun k => addCell ((Cells.full h).get k) ((Cells.full r).get k)) = Cells.full (addWords h r) := by
  apply vector_ext_get
  intro k
  simp [addCell]

/-- The sum of two contents is there exactly when both are. -/
theorem addCell_isSome {a b : Option Word} : (addCell a b).isSome = true ↔ a.isSome = true ∧ b.isSome = true := by
  cases a <;> cases b <;> simp [addCell]

/-- A Word made of four is there exactly when all four are. -/
theorem fromFour_isSome {f : Word → Word → Word → Word → Word} {a b c d : Option Word} :
    (fromFour f a b c d).isSome = true ↔ a.isSome = true ∧ b.isSome = true ∧ c.isSome = true ∧ d.isSome = true := by
  cases a <;> cases b <;> cases c <;> cases d <;> simp [fromFour]

/-- The bytes of a State that holds Words (R171). -/
@[simp] theorem cellBytes_full {n : Nat} (h : Vector Word n) : cellBytes (Cells.full h) = (rawBytes h).map some := by
  have key : (Cells.full h).toList = h.toList.map some := by
    apply List.ext_getElem <;> simp [Cells.full, Vector.get_eq_getElem]
  simp [cellBytes, rawBytes, key, List.flatMap_map, List.map_flatMap, wordBytes]

/-- The characters of bytes that are there (R174). -/
@[simp] theorem hexCells_map_some (bs : List Byte) : hexCells (bs.map some) = (hexText bs).map some := by
  simp [hexCells, hexText, List.flatMap_map, List.map_flatMap, hexByte]

/-- The padded message misses a byte exactly when the message does (R103). -/
theorem missingByte_pmBytes {msg : Memory} {n : Nat} :
    missingByte (pmBytes msg n) = false ↔ ∀ j, j < n → (Memory.read msg j).isSome = true := by
  have hn : n ≤ 64 * blockCount n := by unfold blockCount; omega
  simp only [missingByte, pmBytes, List.any_map, List.any_eq_false, List.mem_range, Function.comp_apply, pmByte]
  constructor
  · intro h j hj
    have := h j (by omega)
    simpa [hj, Option.isSome_iff_ne_none] using this
  · intro h j _
    by_cases hj : j < n
    · simpa [hj, Option.isSome_iff_ne_none] using h j hj
    · simp [hj]

/-- The meaning of an operation on the unit it names. -/
def meaning : (i : Instr) → UnitState i.unit → UnitOutcome i.unit
  | .sha1Start => startUnit
  | .sha1Checklen => checklenUnit
  | .sha1Init => initUnit
  | .sha1Pad => padUnit
  | .sha1Wload j => wloadUnit j
  | .sha1Wexp i => wexpS1 i
  | .sha1Loadv => loadvUnit
  | .sha1Round t => roundUnit t
  | .sha1Addh => addhUnit
  | .sha1Nextblk => nextblkUnit
  | .sha1Serialize => serializeUnit
  | .sha1Hexenc => hexencUnit
  | .sha256Start => startUnit
  | .sha256Checklen => checklenUnit
  | .sha256Init => initUnit
  | .sha256Pad => padUnit
  | .sha256Wload j => wloadUnit j
  | .sha256Wexp i => wexpS256 i
  | .sha256Loadv => loadvUnit
  | .sha256Round t => roundUnit t
  | .sha256Addh => addhUnit
  | .sha256Nextblk => nextblkUnit
  | .sha256Serialize => serializeUnit
  | .sha256Hexenc => hexencUnit

/-- `exec` is the operation's meaning on its own unit (R82). -/
theorem exec_eq_onUnit (i : Instr) (s : State) : exec i s = s.onUnit i.unit (meaning i) := by
  cases i <;> rfl

end Sys2Proof.Machine
end

