-- ==== Sys2Proof/Laws/PerInstr.lean ====
section
/-! SUPPORT. The per-instruction family RoundTrip: an operation's word is read back as the operation (R81, R84, R87). -/

namespace Sys2Proof.Laws.RoundTrip

/-- Decoding the encoding of a well-formed operation gives the operation. -/
def Statement (i : Instr) : Prop := WellFormed i = true → decode (encode i) = .op i

theorem sha1Start : Statement .sha1Start := fun _ => by decide
theorem sha1Checklen : Statement .sha1Checklen := fun _ => by decide
theorem sha1Init : Statement .sha1Init := fun _ => by decide
theorem sha1Pad : Statement .sha1Pad := fun _ => by decide

theorem sha1Wload (j : Nat) : Statement (.sha1Wload j) := fun h => by
  have hj : j < 16 := by simp [WellFormed] at h; omega
  have all : ∀ k < 16, decode (encode (.sha1Wload k)) = .op (.sha1Wload k) := by decide
  exact all j hj

theorem sha1Wexp (i : Nat) : Statement (.sha1Wexp i) := fun h => by
  have hi : 16 ≤ i ∧ i < 80 := by simp [WellFormed] at h; omega
  have all : ∀ k < 80, 16 ≤ k → decode (encode (.sha1Wexp k)) = .op (.sha1Wexp k) := by decide
  exact all i hi.2 hi.1

theorem sha1Loadv : Statement .sha1Loadv := fun _ => by decide

theorem sha1Round (t : Nat) : Statement (.sha1Round t) := fun h => by
  have ht : t < 80 := by simp [WellFormed] at h; omega
  have all : ∀ k < 80, decode (encode (.sha1Round k)) = .op (.sha1Round k) := by decide
  exact all t ht

theorem sha1Addh : Statement .sha1Addh := fun _ => by decide
theorem sha1Nextblk : Statement .sha1Nextblk := fun _ => by decide
theorem sha1Serialize : Statement .sha1Serialize := fun _ => by decide
theorem sha1Hexenc : Statement .sha1Hexenc := fun _ => by decide
theorem sha256Start : Statement .sha256Start := fun _ => by decide
theorem sha256Checklen : Statement .sha256Checklen := fun _ => by decide
theorem sha256Init : Statement .sha256Init := fun _ => by decide
theorem sha256Pad : Statement .sha256Pad := fun _ => by decide

theorem sha256Wload (j : Nat) : Statement (.sha256Wload j) := fun h => by
  have hj : j < 16 := by simp [WellFormed] at h; omega
  have all : ∀ k < 16, decode (encode (.sha256Wload k)) = .op (.sha256Wload k) := by decide
  exact all j hj

theorem sha256Wexp (i : Nat) : Statement (.sha256Wexp i) := fun h => by
  have hi : 16 ≤ i ∧ i < 64 := by simp [WellFormed] at h; omega
  have all : ∀ k < 64, 16 ≤ k → decode (encode (.sha256Wexp k)) = .op (.sha256Wexp k) := by decide
  exact all i hi.2 hi.1

theorem sha256Loadv : Statement .sha256Loadv := fun _ => by decide

theorem sha256Round (t : Nat) : Statement (.sha256Round t) := fun h => by
  have ht : t < 64 := by simp [WellFormed] at h; omega
  have all : ∀ k < 64, decode (encode (.sha256Round k)) = .op (.sha256Round k) := by decide
  exact all t ht

theorem sha256Addh : Statement .sha256Addh := fun _ => by decide
theorem sha256Nextblk : Statement .sha256Nextblk := fun _ => by decide
theorem sha256Serialize : Statement .sha256Serialize := fun _ => by decide
theorem sha256Hexenc : Statement .sha256Hexenc := fun _ => by decide

end Sys2Proof.Laws.RoundTrip
end

