-- ==== Sys2Proof/Laws/Step.lean ====
section
/-! SUPPORT. What a step can do, said once: which move it makes, and what each move answers. -/

namespace Sys2Proof.Machine

/-- A step is the move `nextMove` names, with one entry of the schedule used up. -/
theorem step_of_nextMove {s : State} {m : Move} (h : nextMove s = some m) :
    step s = perform m { s with sched := s.sched.tail } := by
  simp [step, stepMove, h]

/-- A step that answers a next state made a move that could be made. -/
theorem step_next {s t : State} (h : step s = .next t) :
    ∃ m, nextMove s = some m ∧ enabled s m = true ∧ perform m { s with sched := s.sched.tail } = .next t := by
  cases hm : nextMove s with
  | none => simp [step, stepMove, hm] at h
  | some m => exact ⟨m, rfl, List.find?_some hm, by rw [← step_of_nextMove hm]; exact h⟩

/-- The schedule's choice is taken when it can be made. -/
theorem nextMove_of_sched {s : State} {m : Move} {l : List Move} (h : s.sched = m :: l) (he : enabled s m = true) :
    nextMove s = some m := by
  simp [nextMove, h, he]

/-- One more step of a run. -/
theorem run_succ_of_step {s t : State} (h : step s = .next t) (k : Nat) :
    Host.Core.run Sys2Proof.core (k + 1) s = Host.Core.run Sys2Proof.core k t := by
  have h' : Sys2Proof.core.step s = .next t := h
  simp only [Host.Core.run, h']

/-- A run of `j + k` steps is a run of `j` and then of `k`. -/
theorem run_add {s t : State} {j k : Nat} (h : Host.Core.run Sys2Proof.core j s = .next t) :
    Host.Core.run Sys2Proof.core (j + k) s = Host.Core.run Sys2Proof.core k t := by
  induction j generalizing s with
  | zero =>
    have hst : s = t := Host.Outcome.next.inj h
    rw [hst, Nat.zero_add]
  | succ j ih =>
    rw [Nat.succ_add]
    simp only [Host.Core.run] at h ⊢
    cases hs : Sys2Proof.core.step s with
    | next a =>
      simp only [hs] at h ⊢
      exact ih h
    | fault r => simp [hs] at h
    | refused r => simp [hs] at h

/-- A busy unit's move is the operation its position's word decodes to. -/
theorem unitMove_busy {u : UnitId} {s t : State} (hb : busy (s.unit u).pos.phase = true) (h : unitMove u s = .next t) :
    ∃ w i, uop u (s.unit u).pos.phase (s.unit u).pos.step = some w ∧ decode w = .op i ∧ exec i s = .next t := by
  simp only [unitMove, hb, if_true, sequencerStep] at h
  split at h
  · simp at h
  · rename_i w hw
    simp only [execWord] at h
    split at h
    · rename_i i hi
      exact ⟨w, i, hw, hi, h⟩
    · simp at h

/-- A ready unit's move is its held write taking effect. -/
theorem unitMove_ready {u : UnitId} {s t : State} (hb : busy (s.unit u).pos.phase = false) (h : unitMove u s = .next t) :
    ∃ w, (s.unit u).held = some w ∧ writeEffect u w (s.setUnit u { s.unit u with held := none }) = .next t := by
  simp only [unitMove, hb] at h
  cases hh : (s.unit u).held with
  | none => simp [hh] at h
  | some w => exact ⟨w, rfl, by simpa [hh] using h⟩

/-- The host's move is the first access of the unit's inbox. -/
theorem hostMove_next {u : UnitId} {s t : State} (h : hostMove u s = .next t) :
    ∃ op rest, (s.unit u).inbox = op :: rest ∧ hostAccess u op (s.setUnit u { s.unit u with inbox := rest }) = .next t := by
  simp only [hostMove] at h
  split at h
  · simp at h
  · rename_i op rest hi
    exact ⟨op, rest, hi, h⟩

/-- The three ways a host write in a ready phase can end: it changes the message, the length, or is a command. -/
theorem writeEffect_next {u : UnitId} {w : HostWrite} {s t : State} (h : writeEffect u w s = .next t) :
    (∃ j b, w = .msg j b ∧ j ≤ Config.maxMsgAddr ∧
      t = s.setUnit u (({ s.unit u with msg := Memory.write (s.unit u).msg j b }).answer .accepted)) ∨
    (∃ n, w = .mlen n ∧ t = s.setUnit u (({ s.unit u with mlen := some n }).answer .accepted)) ∨
    (∃ c, w = .cmd c ∧ command u c s = .next t) ∨
    t = s.setUnit u ((s.unit u).answer .refused) := by
  cases w with
  | msg j b =>
    by_cases hj : j ≤ Config.maxMsgAddr
    · simp only [writeEffect, hj, if_true, Host.Outcome.next.injEq] at h
      exact .inl ⟨j, b, rfl, hj, h.symm⟩
    · simp only [writeEffect, hj, if_false, Host.Outcome.next.injEq] at h
      exact .inr (.inr (.inr h.symm))
  | mlen n => simp only [writeEffect, Host.Outcome.next.injEq] at h; exact .inr (.inl ⟨n, rfl, h.symm⟩)
  | cmd c => exact .inr (.inr (.inl ⟨c, rfl, h⟩))
  | status v => simp only [writeEffect, Host.Outcome.next.injEq] at h; exact .inr (.inr (.inr h.symm))
  | nblk n => simp only [writeEffect, Host.Outcome.next.injEq] at h; exact .inr (.inr (.inr h.symm))
  | otherReg n v => simp only [writeEffect, Host.Outcome.next.injEq] at h; exact .inr (.inr (.inr h.symm))
  | dig j b => simp only [writeEffect, Host.Outcome.next.injEq] at h; exact .inr (.inr (.inr h.symm))
  | hex j b => simp only [writeEffect, Host.Outcome.next.injEq] at h; exact .inr (.inr (.inr h.symm))
  | internal l v => simp only [writeEffect, Host.Outcome.next.injEq] at h; exact .inr (.inr (.inr h.symm))

/-- A command ends as an accepted `START`, or as an illegal command (R86). -/
theorem command_next {u : UnitId} {w : OpWord} {s t : State} (h : command u w s = .next t) :
    (decode w = .op (Instr.start u) ∧ exec (Instr.start u) (s.setUnit u ((s.unit u).answer .accepted)) = .next t) ∨
    (decode w ≠ .op (Instr.start u) ∧
      t = s.setUnit u (({ s.unit u with err := errIllegalCommand }).answer .refused)) := by
  by_cases hd : decode w = .op (Instr.start u)
  · simp only [command, hd, if_true] at h
    exact .inl ⟨hd, h⟩
  · simp only [command, hd, if_false, Host.Outcome.next.injEq] at h
    exact .inr ⟨hd, h.symm⟩

/-- `exec` of a unit's `START` (R186). -/
theorem exec_start_next {u : UnitId} {s t : State} :
    exec (Instr.start u) s = .next t ↔ busy (s.unit u).pos.phase = false ∧ t = s.setUnit u (s.unit u).beginComputation := by
  have key : exec (Instr.start u) s = s.onUnit u startUnit := by cases u <;> rfl
  rw [key, onUnit_next]
  constructor
  · rintro ⟨y, hy, rfl⟩
    obtain ⟨hb, rfl⟩ := startUnit_next.mp hy
    exact ⟨hb, rfl⟩
  · rintro ⟨hb, rfl⟩
    exact ⟨_, startUnit_next.mpr ⟨hb, rfl⟩, rfl⟩

/-- A host read changes nothing of the unit but the answer and the record of a read of `NOVAL` (R63, R235 a), and it answers a value
exactly when it records nothing. -/
theorem hostRead_cases {u : UnitId} (r : HostRead) (x : UnitState u) :
    (∃ a, a ≠ .noValue ∧ hostRead r x = x.answer a) ∨ ∃ what, hostRead r x = (x.record what true).answer .noValue := by
  have key (what : Store) {α : Type} (f : α → HostReply) (hf : ∀ v, f v ≠ .noValue) (o : Option α) :
      (∃ a, a ≠ .noValue ∧ x.answerRead what (o.map f) = x.answer a) ∨
        ∃ what', x.answerRead what (o.map f) = (x.record what' true).answer .noValue := by
    cases o with
    | none => exact .inr ⟨what, rfl⟩
    | some v => exact .inl ⟨f v, hf v, by simp⟩
  have digest (what : Store) (m : Memory) (size j : Nat) :
      (∃ a, a ≠ .noValue ∧ readDigest x what m size j = x.answer a) ∨
        ∃ what', readDigest x what m size j = (x.record what' true).answer .noValue := by
    unfold readDigest
    split
    · split
      · exact key what .byte (by simp) _
      · exact .inr ⟨what, rfl⟩
    · exact .inl ⟨_, by simp, rfl⟩
  cases r with
  | status => exact .inl ⟨_, by simp, rfl⟩
  | mlen => exact key .mlen .number (by simp) _
  | nblk =>
    simp only [hostRead]
    split
    · exact key .nblk .number (by simp) _
    · exact .inr ⟨.nblk, rfl⟩
  | cmd => exact .inr ⟨.cmd, rfl⟩
  | otherReg n => exact .inl ⟨_, by simp, rfl⟩
  | msg j =>
    simp only [hostRead]
    split
    · exact key .msg .byte (by simp) _
    · exact .inl ⟨_, by simp, rfl⟩
  | dig j => exact digest .dig x.dig _ j
  | hex j => exact digest .hex x.hex _ j
  | internal l => exact .inl ⟨_, by simp, rfl⟩

/-- No meaning and no step stops with a fault. -/
theorem no_fault {σ ρ : Type} {o : Host.Outcome σ Fault ρ} {r : Fault} : o ≠ .fault r := nomatch r

end Sys2Proof.Machine
end

