-- ==== Sys2Proof/Tests/Slice0.lean ====
section
/-! SUPPORT. Tests on single steps and witnesses for the hypotheses of the statements. Every expected value is one that spec/ writes
out: the tables of spec/95_test_vectors.md and spec/97_programs.md, the traces of spec/96_round_traces.md, the encodings of
spec/30_encoding.md. -/

namespace Sys2Proof.Tests

open Sys2Proof Sys2Proof.Machine

/-! ### Small states and checks -/

/-- A register file given by the Words of some of its entries. -/
def cells (n : Nat) (ws : List (Nat × Word)) : Cells n :=
  Vector.ofFn fun k => (ws.find? fun e => e.1 == k.val).map Prod.snd

/-- A register file that holds these Words in order. -/
def words (n : Nat) (ws : List Word) : Cells n := Vector.ofFn fun k => ws[k.val]?

/-- A space that holds these bytes from address `a`. -/
def bytesAt (a : Nat) (bs : List Byte) : Memory := Memory.putBytes [] a (bs.map some)

/-- Unit `S1` after reset, at another position. -/
def u1 (ph : Phase) (blk st : Nat) : UnitState .s1 := { UnitState.reset .s1 with pos := ⟨ph, blk, st⟩ }

/-- Unit `S256` after reset, at another position. -/
def u256 (ph : Phase) (blk st : Nat) : UnitState .s256 := { UnitState.reset .s256 with pos := ⟨ph, blk, st⟩ }

/-- The CORE with one unit as given. -/
def on1 (x : UnitState .s1) : State := { State.reset with s1 := x }
def on256 (x : UnitState .s256) : State := { State.reset with s256 := x }

/-- The outcome is a next state that passes the check. -/
def nextIs (o : Host.Outcome State Fault Refusal) (p : State → Bool) : Bool :=
  match o with
  | .next s => p s
  | .fault _ => false
  | .refused _ => false

/-- The outcome is this refusal. -/
def refusedIs (o : Host.Outcome State Fault Refusal) (r : Refusal) : Bool :=
  match o with
  | .next _ => false
  | .fault _ => false
  | .refused q => q == r

/-- The bytes of a space from address 0, none if one of them is `NOVAL`. -/
def dump (m : Memory) (k : Nat) : Option (List Byte) := (Memory.readBytes m 0 k).mapM id

/-- The three bytes of the message `abc`. -/
def abc : List Byte := [0x61, 0x62, 0x63]

/-- The padded `abc` (95_test_vectors.md section 3). -/
def paddedAbc : List Byte := [0x61, 0x62, 0x63, 0x80] ++ List.replicate 52 0x00 ++ [0, 0, 0, 0, 0, 0, 0, 0x18]

/-! ### Well-formed terms: each check refuses an ill-formed one (R84) -/

theorem test_wf_refuses_wload_16 : WellFormed (.sha1Wload 16) = false := by decide
theorem test_wf_refuses_wexp_15 : WellFormed (.sha1Wexp 15) = false := by decide
theorem test_wf_refuses_wexp_80 : WellFormed (.sha1Wexp 80) = false := by decide
theorem test_wf_refuses_round_80 : WellFormed (.sha1Round 80) = false := by decide
theorem test_wf_refuses_sha256_wload_16 : WellFormed (.sha256Wload 16) = false := by decide
theorem test_wf_refuses_sha256_wexp_15 : WellFormed (.sha256Wexp 15) = false := by decide
theorem test_wf_refuses_sha256_wexp_64 : WellFormed (.sha256Wexp 64) = false := by decide
theorem test_wf_refuses_sha256_round_64 : WellFormed (.sha256Round 64) = false := by decide

/-! ### Decoding: words written bit by bit from R81 and R83, `alg` then `000` then `op` then `idx` -/

theorem test_decode_sha1Start : decode 0b0_000_0001_00000000 = .op .sha1Start := by decide
theorem test_decode_sha1Checklen : decode 0b0_000_0010_00000000 = .op .sha1Checklen := by decide
theorem test_decode_sha1Init : decode 0b0_000_0011_00000000 = .op .sha1Init := by decide
theorem test_decode_sha1Pad : decode 0b0_000_0100_00000000 = .op .sha1Pad := by decide
theorem test_decode_sha1Wload : decode 0b0_000_0101_00001111 = .op (.sha1Wload 15) := by decide
theorem test_decode_sha1Wexp : decode 0b0_000_0110_01001111 = .op (.sha1Wexp 79) := by decide
theorem test_decode_sha1Loadv : decode 0b0_000_0111_00000000 = .op .sha1Loadv := by decide
theorem test_decode_sha1Round : decode 0b0_000_1000_01001111 = .op (.sha1Round 79) := by decide
theorem test_decode_sha1Addh : decode 0b0_000_1001_00000000 = .op .sha1Addh := by decide
theorem test_decode_sha1Nextblk : decode 0b0_000_1010_00000000 = .op .sha1Nextblk := by decide
theorem test_decode_sha1Serialize : decode 0b0_000_1011_00000000 = .op .sha1Serialize := by decide
theorem test_decode_sha1Hexenc : decode 0b0_000_1100_00000000 = .op .sha1Hexenc := by decide
theorem test_decode_sha256Start : decode 0b1_000_0001_00000000 = .op .sha256Start := by decide
theorem test_decode_sha256Checklen : decode 0b1_000_0010_00000000 = .op .sha256Checklen := by decide
theorem test_decode_sha256Init : decode 0b1_000_0011_00000000 = .op .sha256Init := by decide
theorem test_decode_sha256Pad : decode 0b1_000_0100_00000000 = .op .sha256Pad := by decide
theorem test_decode_sha256Wload : decode 0b1_000_0101_00001111 = .op (.sha256Wload 15) := by decide
theorem test_decode_sha256Wexp : decode 0b1_000_0110_00010000 = .op (.sha256Wexp 16) := by decide
theorem test_decode_sha256Loadv : decode 0b1_000_0111_00000000 = .op .sha256Loadv := by decide
theorem test_decode_sha256Round : decode 0b1_000_1000_00111111 = .op (.sha256Round 63) := by decide
theorem test_decode_sha256Addh : decode 0b1_000_1001_00000000 = .op .sha256Addh := by decide
theorem test_decode_sha256Nextblk : decode 0b1_000_1010_00000000 = .op .sha256Nextblk := by decide
theorem test_decode_sha256Serialize : decode 0b1_000_1011_00000000 = .op .sha256Serialize := by decide
theorem test_decode_sha256Hexenc : decode 0b1_000_1100_00000000 = .op .sha256Hexenc := by decide

/-- The reserved rows of the decode table (97_programs.md section 10). -/
theorem test_decode_reserved :
    [0x0510, 0x060F, 0x0650, 0x8640, 0x0850, 0x8840, 0x0201, 0x0101].map decode = List.replicate 8 (.reserved .idx) ∧
    [0x0000, 0x8000, 0x0D00, 0x8F00].map decode = List.replicate 4 (.reserved .op) ∧
    [0x1100, 0x4100, 0x7100, 0xFFFF].map decode = List.replicate 4 (.reserved .zeroField) := by decide

/-! ### Primitives (95_test_vectors.md sections 2, 4, 5, 9) -/

theorem test_rotations :
    rotl32 0xdeadbeef 5 = 0xd5b7ddfb ∧ rotr32 0xdeadbeef 5 = 0x7ef56df7 ∧ shr32 0xdeadbeef 5 = 0x06f56df7 ∧
    rotl32 0xdeadbeef 32 = 0xdeadbeef ∧ shr32 0xdeadbeef 32 = 0xdeadbeef := by decide

theorem test_add32 :
    add32 [0xffffffff, 0xffffffff, 0xffffffff, 0xffffffff, 0xffffffff] = 0xfffffffb ∧ add32 [0x80000000, 0x80000000] = 0 := by
  decide

theorem test_bytes : be32 0x61 0x62 0x63 0x80 = 0x61626380 ∧ wordBytes 0xa9993e36 = [0xa9, 0x99, 0x3e, 0x36] := by decide

theorem test_small_sigmas :
    ssig0 0x12345678 = 0xe7fce6ee ∧ ssig1 0x12345678 = 0xa1f78649 ∧ ssig0 0x80000000 = 0x11002000 ∧
    ssig1 0x00000001 = 0x0000a000 := by decide

theorem test_logical_functions :
    let b : Word := 0xf0f0f0f0
    let c : Word := 0xcccccccc
    let d : Word := 0xaaaaaaaa
    [0, 19, 20, 39, 40].map (fun t => f1 t b c d) = [0xcacacaca, 0xcacacaca, 0x96969696, 0x96969696, 0xe8e8e8e8] ∧
    [0, 19, 20, 39, 40].map k1 = [0x5a827999, 0x5a827999, 0x6ed9eba1, 0x6ed9eba1, 0x8f1bbcdc] ∧
    ch b c d = 0xcacacaca ∧ maj b c d = 0xe8e8e8e8 := by decide

theorem test_hexchar :
    (List.range 16).map hexchar =
      [0x30, 0x31, 0x32, 0x33, 0x34, 0x35, 0x36, 0x37, 0x38, 0x39, 0x61, 0x62, 0x63, 0x64, 0x65, 0x66] := by decide

/-- Block counts of the padder table (95_test_vectors.md section 3). -/
theorem test_blockCount :
    [0, 55, 56, 64, 119, 120, 1000, 4294967296, 2305843009213693951].map blockCount =
      [1, 1, 2, 2, 2, 3, 16, 67108865, 36028797018963969] := by decide

/-! ### One step of each operation -/

/-- A `START` in `Finalized` discards the previous digest (R186). -/
theorem test_sha1Start :
    nextIs (exec .sha1Start (on1 { u1 .finalized 0 0 with err := 2, mlen := some 3, dig := [(0, 7)], nblk := some 1 }))
      (fun t => t.s1.pos == ⟨.start, 0, 0⟩ && t.s1.status == 0x09 && t.s1.mlen == some 3 && t.s1.dig == [] && t.s1.nblk == none) = true := by
  decide

theorem test_sha256Start :
    nextIs (exec .sha256Start (on256 (u256 .failed 0 0))) (fun t => t.s256.status == 0x09 && t.s1 == UnitState.reset .s1) = true := by
  decide

/-- The rows `2^61 - 1` and `2^61` of the `CHECKLEN` table (97_programs.md section 11). -/
theorem test_sha1Checklen_passes :
    nextIs (exec .sha1Checklen (on1 { u1 .start 0 0 with mlen := some 0x1FFFFFFFFFFFFFFF }))
      (fun t => t.s1.pos == ⟨.start, 0, 1⟩ && t.s1.err == 0) = true := by decide

theorem test_sha1Checklen_raises :
    nextIs (exec .sha1Checklen (on1 { u1 .start 0 0 with mlen := some 0x2000000000000000 }))
      (fun t => t.s1.pos == ⟨.failed, 0, 0⟩ && t.s1.status == 0x26) = true := by decide

theorem test_sha256Checklen_passes :
    nextIs (exec .sha256Checklen (on256 { u256 .start 0 0 with mlen := some 0 })) (fun t => t.s256.pos == ⟨.start, 0, 1⟩) = true := by
  decide

theorem test_sha256Checklen_raises :
    nextIs (exec .sha256Checklen (on256 { u256 .start 0 0 with mlen := some 0xFFFFFFFFFFFFFFFF }))
      (fun t => t.s256.status == 0x26 && t.s256.mlen == some 0xFFFFFFFFFFFFFFFF) = true := by decide

theorem test_sha1Init :
    nextIs (exec .sha1Init (on1 (u1 .start 0 1)))
      (fun t => t.s1.h == words 5 [0x67452301, 0xefcdab89, 0x98badcfe, 0x10325476, 0xc3d2e1f0] && t.s1.status == 0x0A) = true := by
  decide

theorem test_sha256Init :
    nextIs (exec .sha256Init (on256 (u256 .start 0 1)))
      (fun t => t.s256.h == words 8 [0x6a09e667, 0xbb67ae85, 0x3c6ef372, 0xa54ff53a, 0x510e527f, 0x9b05688c, 0x1f83d9ab, 0x5be0cd19]) =
      true := by decide

theorem test_sha1Pad :
    nextIs (exec .sha1Pad (on1 { u1 .padding 0 0 with mlen := some 3, msg := bytesAt 0 abc }))
      (fun t => dump t.s1.pm 64 == some paddedAbc && t.s1.nblk == some 1 && t.s1.status == 0x0B) = true := by decide

/-- Fifty-six bytes need a second block (R106). -/
theorem test_sha256Pad_two_blocks :
    nextIs (exec .sha256Pad (on256 { u256 .padding 0 0 with mlen := some 56, msg := bytesAt 0 (List.replicate 56 0x61) }))
      (fun t => dump t.s256.pm 128 ==
        some (List.replicate 56 0x61 ++ [0x80] ++ List.replicate 63 0x00 ++ [0, 0, 0, 0, 0, 0, 0x01, 0xc0]) &&
        t.s256.nblk == some 2) = true := by decide +kernel

theorem test_sha1Wload :
    nextIs (exec (.sha1Wload 0) (on1 { u1 .processingBlock 0 0 with pm := bytesAt 0 (abc ++ [0x80, 0x00]) }))
      (fun t => t.s1.w == cells 80 [(0, 0x61626380)] && t.s1.pos.step == 1) = true := by decide

/-- Block 1 is read from address 64 (R121): here the end of the padded `abc` stands there. -/
theorem test_sha256Wload_block_1 :
    nextIs (exec (.sha256Wload 15) (on256 { u256 .processingBlock 1 15 with pm := bytesAt 120 [1, 2, 3, 4, 0, 0, 0, 0x18, 5] }))
      (fun t => t.s256.w == cells 64 [(15, 0x00000018)] && t.s256.pos == ⟨.processingBlock, 1, 16⟩) = true := by decide

theorem test_sha1Wexp_wraps :
    nextIs (exec (.sha1Wexp 19) (on1 { u1 .processingBlock 0 19 with w := cells 80 [(16, 0xc2c4c700), (11, 0), (5, 0), (3, 0)] }))
      (fun t => t.s1.w.get 19 == some 0x85898e01) = true := by decide

theorem test_sha1Wexp_last :
    nextIs (exec (.sha1Wexp 79) (on1 { u1 .processingBlock 0 79 with
        w := cells 80 [(76, 0xe6e60b69), (71, 0x458546f4), (65, 0x000f0000), (63, 0x627b49a1)] }))
      (fun t => t.s1.w.get 79 == some 0x822e0879 && t.s1.w.get 76 == some 0xe6e60b69) = true := by decide

theorem test_sha256Wexp_last :
    nextIs (exec (.sha256Wexp 63) (on256 { u256 .processingBlock 0 63 with
        w := cells 64 [(47, 0x065c43da), (48, 0xfb3e89cb), (56, 0xef57b9cd), (61, 0x668b2ff8)] }))
      (fun t => t.s256.w.get 63 == some 0x12b1edeb) = true := by decide

theorem test_sha1Loadv :
    nextIs (exec .sha1Loadv (on1 { u1 .processingBlock 0 80 with h := words 5 [1, 2, 3, 4, 5] }))
      (fun t => t.s1.v == words 5 [1, 2, 3, 4, 5] && t.s1.h == words 5 [1, 2, 3, 4, 5] && t.s1.pos.step == 81) = true := by decide

theorem test_sha256Loadv :
    nextIs (exec .sha256Loadv (on256 { u256 .processingBlock 0 64 with h := words 8 [1, 2, 3, 4, 5, 6, 7, 8] }))
      (fun t => t.s256.v == words 8 [1, 2, 3, 4, 5, 6, 7, 8] && t.s256.pos.step == 65) = true := by decide

/-- Rounds 40 and 79 of `abc` (96_round_traces.md section 1; `W[40]`, `W[79]` from 95_test_vectors.md section 4). -/
theorem test_sha1Round_40 :
    nextIs (exec (.sha1Round 40) (on1 { u1 .processingBlock 0 121 with
        v := words 5 [0x32de1cba, 0x4c986405, 0xf718e5cf, 0x03d447f6, 0xf72eec32], w := cells 80 [(40, 0xd2e138c4)] }))
      (fun t => t.s1.v == words 5 [0xfc87dedf, 0x32de1cba, 0x53261901, 0xf718e5cf, 0x03d447f6]) = true := by decide

theorem test_sha1Round_79 :
    nextIs (exec (.sha1Round 79) (on1 { u1 .processingBlock 0 160 with
        v := words 5 [0x5738d5e1, 0x860d21cc, 0x681e6df6, 0xd8fdf6ad, 0xd7b9da25], w := cells 80 [(79, 0x822e0879)] }))
      (fun t => t.s1.v == words 5 [0x42541b35, 0x5738d5e1, 0x21834873, 0x681e6df6, 0xd8fdf6ad] && t.s1.pos.step == 161) = true := by
  decide

/-- Rounds 0 of the empty message and 63 of `abc` (95_test_vectors.md section 5). -/
theorem test_sha256Round_0 :
    nextIs (exec (.sha256Round 0) (on256 { u256 .processingBlock 0 65 with
        v := words 8 [0x6a09e667, 0xbb67ae85, 0x3c6ef372, 0xa54ff53a, 0x510e527f, 0x9b05688c, 0x1f83d9ab, 0x5be0cd19]
        w := cells 64 [(0, 0x80000000)] }))
      (fun t => t.s256.v ==
        words 8 [0x7c08884d, 0x6a09e667, 0xbb67ae85, 0x3c6ef372, 0x18c7e2a2, 0x510e527f, 0x9b05688c, 0x1f83d9ab]) = true := by decide

theorem test_sha256Round_63 :
    nextIs (exec (.sha256Round 63) (on256 { u256 .processingBlock 0 128 with
        v := words 8 [0xd39a2165, 0x04d24d6c, 0xb85e2ce9, 0xb6ae8fff, 0xfb121210, 0x948d25b6, 0x961f4894, 0xb21bad3d]
        w := cells 64 [(63, 0x12b1edeb)] }))
      (fun t => t.s256.v ==
        words 8 [0x506e3058, 0xd39a2165, 0x04d24d6c, 0xb85e2ce9, 0x5ef50f24, 0xfb121210, 0x948d25b6, 0x961f4894]) = true := by decide

theorem test_sha1Addh :
    nextIs (exec .sha1Addh (on1 { u1 .processingBlock 0 161 with
        h := words 5 [0x67452301, 0xefcdab89, 0x98badcfe, 0x10325476, 0xc3d2e1f0]
        v := words 5 [0x42541b35, 0x5738d5e1, 0x21834873, 0x681e6df6, 0xd8fdf6ad] }))
      (fun t => t.s1.h == words 5 [0xa9993e36, 0x4706816a, 0xba3e2571, 0x7850c26c, 0x9cd0d89d]) = true := by decide

theorem test_sha256Addh :
    nextIs (exec .sha256Addh (on256 { u256 .processingBlock 0 129 with
        h := words 8 [0x6a09e667, 0xbb67ae85, 0x3c6ef372, 0xa54ff53a, 0x510e527f, 0x9b05688c, 0x1f83d9ab, 0x5be0cd19]
        v := words 8 [0x79a6dddb, 0xdd946d8f, 0x5e8d0156, 0xf41fc3ea, 0xd69fef65, 0xc9962ac0, 0x8511bf70, 0x1c71eb3c] }))
      (fun t => t.s256.h ==
        words 8 [0xe3b0c442, 0x98fc1c14, 0x9afbf4c8, 0x996fb924, 0x27ae41e4, 0x649b934c, 0xa495991b, 0x7852b855]) = true := by decide

/-- Both sides of the loop of program 3 (97_programs.md section 12). -/
theorem test_sha1Nextblk_loops :
    nextIs (exec .sha1Nextblk (on1 { u1 .processingBlock 0 162 with nblk := some 2, w := cells 80 [(0, 5)] }))
      (fun t => t.s1.pos == ⟨.processingBlock, 1, 0⟩ && t.s1.w == Cells.noval 80) = true := by decide

theorem test_sha1Nextblk_ends :
    nextIs (exec .sha1Nextblk (on1 { u1 .processingBlock 1 162 with nblk := some 2 }))
      (fun t => t.s1.pos == ⟨.finalizing, 0, 0⟩ && t.s1.status == 0x0C) = true := by decide

theorem test_sha256Nextblk :
    nextIs (exec .sha256Nextblk (on256 { u256 .processingBlock 0 130 with nblk := some 1 }))
      (fun t => t.s256.pos == ⟨.finalizing, 0, 0⟩) = true := by decide

/-- The made-up States of 95_test_vectors.md section 9. -/
theorem test_sha1Serialize :
    nextIs (exec .sha1Serialize (on1 { u1 .finalizing 0 0 with h := words 5 [0x00000001, 0, 0x0a0b0c0d, 0xffffffff, 0x00f00f00] }))
      (fun t => dump t.s1.dig 20 ==
        some [0, 0, 0, 1, 0, 0, 0, 0, 0x0a, 0x0b, 0x0c, 0x0d, 0xff, 0xff, 0xff, 0xff, 0x00, 0xf0, 0x0f, 0x00]) = true := by decide

theorem test_sha256Serialize :
    nextIs (exec .sha256Serialize (on256 { u256 .finalizing 0 0 with
        h := words 8 [0, 1, 0x80000000, 0x0000000f, 0x10000000, 0x89abcdef, 0x01234567, 0xffffffff] }))
      (fun t => dump t.s256.dig 32 == some ([0, 0, 0, 0, 0, 0, 0, 1, 0x80, 0, 0, 0, 0, 0, 0, 0x0f, 0x10, 0, 0, 0] ++
        [0x89, 0xab, 0xcd, 0xef, 0x01, 0x23, 0x45, 0x67, 0xff, 0xff, 0xff, 0xff])) = true := by decide

/-- The digest of `abc` and its forty characters (95_test_vectors.md section 9). -/
theorem test_sha1Hexenc :
    nextIs (exec .sha1Hexenc (on1 { u1 .finalizing 0 1 with
        dig := bytesAt 0 ([0xa9, 0x99, 0x3e, 0x36, 0x47, 0x06, 0x81, 0x6a, 0xba, 0x3e] ++
          [0x25, 0x71, 0x78, 0x50, 0xc2, 0x6c, 0x9c, 0xd0, 0xd8, 0x9d]) }))
      (fun t => t.s1.status == 0x15 && dump t.s1.hex 40 == some
        ([0x61, 0x39, 0x39, 0x39, 0x33, 0x65, 0x33, 0x36, 0x34, 0x37, 0x30, 0x36, 0x38, 0x31, 0x36, 0x61, 0x62, 0x61, 0x33, 0x65] ++
         [0x32, 0x35, 0x37, 0x31, 0x37, 0x38, 0x35, 0x30, 0x63, 0x32, 0x36, 0x63, 0x39, 0x63, 0x64, 0x30, 0x64, 0x38, 0x39, 0x64])) =
      true := by decide

theorem test_sha256Hexenc :
    nextIs (exec .sha256Hexenc (on256 { u256 .finalizing 0 1 with dig := bytesAt 0 (List.replicate 31 0x00 ++ [0xf0]) }))
      (fun t => t.s256.pos == ⟨.finalized, 0, 0⟩ && dump t.s256.hex 64 == some (List.replicate 62 0x30 ++ [0x66, 0x30])) = true := by
  decide

/-! ### Reads of `NOVAL`, and stops -/

/-- A `CHECKLEN` on a length the host never wrote records the fault of R39 and goes on. -/
theorem test_checklen_noval (b : Bool) (h : Config.freeBranch .s1 0 = b) :
    nextIs (exec .sha1Checklen (on1 (u1 .start 0 0)))
      (fun t => t.s1.noValueRead == some .mlen && t.s1.draws == 1 && t.s1.mlen == none &&
        t.s1.pos == (if b then ⟨.failed, 0, 0⟩ else ⟨.start, 0, 1⟩)) = true := by
  cases b <;> simp [exec, execSha1Checklen, State.onUnit, checklenUnit, atPosition, on1, u1, UnitState.reset, h, nextIs]

/-- The message byte 1 was never written: its place in `PM_u` stays without a value, the others have theirs. -/
theorem test_pad_noval :
    nextIs (exec .sha1Pad (on1 { u1 .padding 0 0 with mlen := some 2, msg := bytesAt 0 [0x61] }))
      (fun t => t.s1.noValueRead == some .msg && t.s1.nblk == some 1 && Memory.read t.s1.pm 0 == some 0x61 &&
        Memory.read t.s1.pm 1 == none && Memory.read t.s1.pm 2 == some 0x80 && Memory.read t.s1.pm 63 == some 0x10) = true := by
  decide

/-- The fault of an earlier read is kept, and kept over a `START`; a reset ends it. -/
theorem test_noval_kept :
    nextIs (exec .sha1Loadv (on1 { u1 .processingBlock 0 80 with noValueRead := some .mlen }))
      (fun t => t.s1.noValueRead == some .mlen && t.s1.v == Cells.noval 5 && t.s1.pos.step == 81) = true ∧
    nextIs (exec .sha1Start (on1 { u1 .finalized 0 0 with noValueRead := some .mlen }))
      (fun t => t.s1.noValueRead == some .mlen) = true ∧
    nextIs (step { on1 { u1 .finalized 0 0 with noValueRead := some .mlen } with sched := [.reset] })
      (fun t => t.s1.noValueRead == none) = true := by decide

/-- A round with only `d` missing moves it to `e` and loses `e`'s sum, not `a`'s (R151). -/
theorem test_round_noval :
    nextIs (exec (.sha256Round 0) (on256 { u256 .processingBlock 0 65 with
        v := cells 8 [(0, 0x6a09e667), (1, 0xbb67ae85), (2, 0x3c6ef372), (4, 0x510e527f), (5, 0x9b05688c), (6, 0x1f83d9ab), (7, 0x5be0cd19)]
        w := cells 64 [(0, 0x80000000)] }))
      (fun t => t.s256.noValueRead == some .v && t.s256.v == cells 8 [(0, 0x7c08884d), (1, 0x6a09e667), (2, 0xbb67ae85),
        (3, 0x3c6ef372), (5, 0x510e527f), (6, 0x9b05688c), (7, 0x1f83d9ab)]) = true := by decide

/-- A micro-operation out of its place is refused (R235). -/
theorem test_out_of_sequence : refusedIs (exec (.sha1Round 0) State.reset) .outOfSequence = true := by decide

/-! ### The host (97_programs.md section 11) -/

/-- `STATUS_u` by phase and error. -/
theorem test_status :
    [statusByte .idle 0, statusByte .idle 2, statusByte .start 0, statusByte .padding 0, statusByte .processingBlock 0,
      statusByte .finalizing 0, statusByte .finalized 0, statusByte .finalized 2, statusByte .failed 1, statusByte .failed 2] =
    [0x00, 0x40, 0x09, 0x0A, 0x0B, 0x0C, 0x15, 0x55, 0x26, 0x46] := by decide

/-- The other unit's `START` is an illegal command. -/
theorem test_wrong_start :
    nextIs (hostAccess .s1 (.write (.cmd 0x8100)) State.reset)
      (fun t => t.s1.status == 0x40 && t.s1.reply == some .refused && t.s256 == UnitState.reset .s256) = true := by decide

/-- A write while busy is held, and takes effect as the unit's own move once it is ready. -/
theorem test_held_write :
    nextIs (hostAccess .s1 (.write (.cmd 0x0100)) (on1 (u1 .processingBlock 0 5)))
      (fun t => t.s1.held == some (.cmd 0x0100) && t.s1.status == 0x0B) = true ∧
    nextIs (step (on1 { u1 .finalized 0 0 with held := some (.cmd 0x0100) }))
      (fun t => t.s1.held == none && t.s1.status == 0x09) = true := by decide

/-- A digest byte is read in `Finalized`; elsewhere the read is recorded and given no value. -/
theorem test_digest_read :
    nextIs (hostAccess .s1 (.read (.dig 19)) (on1 { u1 .finalized 0 0 with dig := bytesAt 19 [0x9d] }))
      (fun t => t.s1.reply == some (.byte 0x9d)) = true ∧
    nextIs (hostAccess .s1 (.read (.dig 0)) State.reset)
      (fun t => t.s1.reply == some .noValue && t.s1.noValueRead == some .dig && t.s1.pos == ⟨.idle, 0, 0⟩) = true := by decide

/-! ### The step -/

/-- From reset with nothing placed no unit has a step (R201, U10). -/
theorem test_reset_waits : refusedIs (step State.reset) .noStep = true := by decide

/-- A placed `START` and a placed `INIT` are the next to run. -/
theorem test_placed_start : nextIs (step (State.reset.withFetchWord 16 0x0100)) (fun t => t.s1.status == 0x09) = true := by decide
theorem test_placed_init : nextIs (step (State.reset.withFetchWord 16 0x8300)) (fun t => t.s256.status == 0x0A) = true := by decide

/-- Operations placed right after reset run, find `NOVAL` and record it (R39). -/
theorem test_placed_after_reset :
    nextIs (step (State.reset.withFetchWord 16 0x0400)) (fun t => t.s1.status == 0x0B && t.s1.noValueRead == some .mlen) = true ∧
    nextIs (step (State.reset.withFetchWord 16 0x0500)) (fun t => t.s1.pos.step == 1 && t.s1.noValueRead == some .pm) = true ∧
    nextIs (step (State.reset.withFetchWord 16 0x864F)) (fun t => t.s256.status == 0x40) = true ∧
    nextIs (step (State.reset.withFetchWord 16 0x8C00)) (fun t => t.s256.status == 0x15 && t.s256.noValueRead == some .dig) = true := by
  decide

/-- A reserved word placed is a command the host has refused (R85, R223). -/
theorem test_placed_reserved :
    decodeTableWord 16 0x0600 = none ∧
    nextIs (step (State.reset.withFetchWord 16 0x0600)) (fun t => t.s1.status == 0x40) = true := by decide

/-! ### Witnesses: concrete states and operands that meet all the hypotheses of a statement together, clause by clause -/

theorem witness_DecodeReturnsEncodedOperation :
    WellFormed (.sha1Wexp 16) = true ∧ WellFormed (.sha1Wexp 79) = true ∧ WellFormed (.sha256Round 63) = true := by decide

theorem witness_DecodedWordIsTheEncoding : decode 0x064F = .op (.sha1Wexp 79) := by decide

/-- Empty and longest legal messages. -/
theorem witness_PaddingIsWholeBlocksAndInjective :
    (([] : List Byte).length ≤ 2 ^ 61 - 1 ∧ (List.replicate (2 ^ 61 - 1) (0 : Byte)).length ≤ 2 ^ 61 - 1) ∧
    8 * abc.length < 2 ^ 64 ∧ padmsg abc = padmsg [0x61, 0x62, 0x63] :=
  ⟨⟨by decide, by rw [List.length_replicate]⟩, by decide⟩

theorem witness_StartBeginsAComputation :
    (∀ ph ∈ [Phase.idle, .finalized, .failed], busy (on1 (u1 ph 0 0)).s1.pos.phase = false) ∧
    ∀ ph ∈ [Phase.idle, .finalized, .failed], busy (on256 (u256 ph 0 0)).s256.pos.phase = false := by decide

theorem witness_ChecklenPassesLegalLength :
    (∀ n ∈ [0, 2 ^ 61 - 1], let s := on1 { u1 .start 0 0 with mlen := some n };
      s.s1.pos.phase = .start ∧ s.s1.pos.step = 0 ∧ s.s1.mlen = some n ∧ n ≤ 2 ^ 61 - 1) ∧
    ∀ n ∈ [0, 2 ^ 61 - 1], let s := on256 { u256 .start 0 0 with mlen := some n };
      s.s256.pos.phase = .start ∧ s.s256.pos.step = 0 ∧ s.s256.mlen = some n ∧ n ≤ 2 ^ 61 - 1 := by decide

theorem witness_ChecklenRaisesMessageTooLarge :
    (∀ n ∈ [2 ^ 61, 2 ^ 64 - 1], let s := on1 { u1 .start 0 0 with mlen := some n };
      s.s1.pos.phase = .start ∧ s.s1.pos.step = 0 ∧ s.s1.mlen = some n ∧ 2 ^ 64 ≤ 8 * n) ∧
    ∀ n ∈ [2 ^ 61, 2 ^ 64 - 1], let s := on256 { u256 .start 0 0 with mlen := some n };
      s.s256.pos.phase = .start ∧ s.s256.pos.step = 0 ∧ s.s256.mlen = some n ∧ 2 ^ 64 ≤ 8 * n := by decide

theorem witness_InitLoadsTheInitialState :
    ((on1 (u1 .start 0 1)).s1.pos.phase = .start ∧ (on1 (u1 .start 0 1)).s1.pos.step = 1) ∧
    (on256 (u256 .start 0 1)).s256.pos.phase = .start ∧ (on256 (u256 .start 0 1)).s256.pos.step = 1 := by decide

/-- Every address of a space filled from address 0 reads as written. -/
theorem bytesAt_isSome (n j : Nat) (h : j < n) : (Memory.read (bytesAt 0 (List.replicate n 0x61)) j).isSome = true := by
  rw [bytesAt, Memory.read_putBytes]
  simp [h]

/-- Every legal length, the empty and the longest message among them. -/
theorem witness_PadWritesThePaddedMessage (n : Nat) (hn : n ≤ 2 ^ 61 - 1) :
    (let s := on1 { u1 .padding 0 0 with mlen := some n, msg := bytesAt 0 (List.replicate n 0x61) };
      s.s1.pos.phase = .padding ∧ s.s1.pos.step = 0 ∧ s.s1.mlen = some n ∧ 8 * n < 2 ^ 64 ∧
      ∀ j, j < n → (Memory.read s.s1.msg j).isSome = true) ∧
    (let s := on256 { u256 .padding 0 0 with mlen := some n, msg := bytesAt 0 (List.replicate n 0x61) };
      s.s256.pos.phase = .padding ∧ s.s256.pos.step = 0 ∧ s.s256.mlen = some n ∧ 8 * n < 2 ^ 64 ∧
      ∀ j, j < n → (Memory.read s.s256.msg j).isSome = true) :=
  ⟨⟨rfl, rfl, rfl, by omega, fun j h => bytesAt_isSome n j h⟩, ⟨rfl, rfl, rfl, by omega, fun j h => bytesAt_isSome n j h⟩⟩

/-- The first and last Words of the second block. -/
theorem witness_WloadReadsABigEndianWord :
    (let s := on1 { u1 .processingBlock 1 0 with pm := bytesAt 64 paddedAbc };
      s.s1.pos.phase = .processingBlock ∧ s.s1.pos.step = 0 ∧ Memory.read s.s1.pm (64 * s.s1.pos.blk + 4 * 0) = some 0x61 ∧
      Memory.read s.s1.pm (64 * s.s1.pos.blk + 4 * 0 + 1) = some 0x62 ∧
      Memory.read s.s1.pm (64 * s.s1.pos.blk + 4 * 0 + 2) = some 0x63 ∧
      Memory.read s.s1.pm (64 * s.s1.pos.blk + 4 * 0 + 3) = some 0x80) ∧
    (let s := on256 { u256 .processingBlock 1 15 with pm := bytesAt 64 paddedAbc };
      s.s256.pos.phase = .processingBlock ∧ s.s256.pos.step = 15 ∧
      Memory.read s.s256.pm (64 * s.s256.pos.blk + 4 * 15) = some 0 ∧
      Memory.read s.s256.pm (64 * s.s256.pos.blk + 4 * 15 + 1) = some 0 ∧
      Memory.read s.s256.pm (64 * s.s256.pos.blk + 4 * 15 + 2) = some 0 ∧
      Memory.read s.s256.pm (64 * s.s256.pos.blk + 4 * 15 + 3) = some 0x18) := by decide

/-- The first and the last expanded entry. -/
theorem witness_Sha1WexpFollowsTheRecurrence :
    (let s := on1 { u1 .processingBlock 0 16 with w := cells 80 [(13, 1), (8, 2), (2, 3), (0, 4)] };
      s.s1.pos.phase = .processingBlock ∧ s.s1.pos.step = 16 ∧ s.s1.w.get 13 = some 1 ∧ s.s1.w.get 8 = some 2 ∧
      s.s1.w.get 2 = some 3 ∧ s.s1.w.get 0 = some 4) ∧
    (let s := on1 { u1 .processingBlock 0 79 with w := cells 80 [(76, 1), (71, 2), (65, 3), (63, 4)] };
      s.s1.pos.phase = .processingBlock ∧ s.s1.pos.step = 79 ∧ s.s1.w.get 76 = some 1 ∧ s.s1.w.get 71 = some 2 ∧
      s.s1.w.get 65 = some 3 ∧ s.s1.w.get 63 = some 4) := by decide

theorem witness_Sha256WexpFollowsTheRecurrence :
    (let s := on256 { u256 .processingBlock 0 16 with w := cells 64 [(0, 1), (1, 2), (9, 3), (14, 4)] };
      s.s256.pos.phase = .processingBlock ∧ s.s256.pos.step = 16 ∧ s.s256.w.get 0 = some 1 ∧ s.s256.w.get 1 = some 2 ∧
      s.s256.w.get 9 = some 3 ∧ s.s256.w.get 14 = some 4) ∧
    (let s := on256 { u256 .processingBlock 0 63 with w := cells 64 [(47, 1), (48, 2), (56, 3), (61, 4)] };
      s.s256.pos.phase = .processingBlock ∧ s.s256.pos.step = 63 ∧ s.s256.w.get 47 = some 1 ∧ s.s256.w.get 48 = some 2 ∧
      s.s256.w.get 56 = some 3 ∧ s.s256.w.get 61 = some 4) := by decide

theorem witness_LoadvCopiesTheState :
    (let s := on1 { u1 .processingBlock 0 80 with h := words 5 [1, 2, 3, 4, 5] };
      s.s1.pos.phase = .processingBlock ∧ s.s1.pos.step = 80 ∧ ∀ k, (s.s1.h.get k).isSome = true) ∧
    (let s := on256 { u256 .processingBlock 0 64 with h := words 8 [1, 2, 3, 4, 5, 6, 7, 8] };
      s.s256.pos.phase = .processingBlock ∧ s.s256.pos.step = 64 ∧ ∀ k, (s.s256.h.get k).isSome = true) := by decide

/-- The first and the last round, and both sides of every change of function. -/
theorem witness_Sha1RoundRotatesTheTuple :
    ∀ t ∈ [0, 19, 20, 39, 40, 59, 60, 79],
      let s := on1 { u1 .processingBlock 0 (81 + t) with v := words 5 [1, 2, 3, 4, 5], w := cells 80 [(t, 6)] }
      t ≤ 79 ∧ s.s1.pos.phase = .processingBlock ∧ s.s1.pos.step = 81 + t ∧
      s.s1.v = #v[some 1, some 2, some 3, some 4, some 5] ∧ s.s1.w.at t = some 6 := by decide

theorem witness_Sha256RoundRotatesTheTuple :
    ∀ t ∈ [0, 63],
      let s := on256 { u256 .processingBlock 0 (65 + t) with v := words 8 [1, 2, 3, 4, 5, 6, 7, 8], w := cells 64 [(t, 9)] }
      t ≤ 63 ∧ s.s256.pos.phase = .processingBlock ∧ s.s256.pos.step = 65 + t ∧
      s.s256.v = #v[some 1, some 2, some 3, some 4, some 5, some 6, some 7, some 8] ∧ s.s256.w.at t = some 9 := by decide

theorem witness_AddhAddsWordByWord :
    (let s := on1 { u1 .processingBlock 0 161 with h := words 5 [1, 2, 3, 4, 5], v := words 5 [6, 7, 8, 9, 10] };
      s.s1.pos.phase = .processingBlock ∧ s.s1.pos.step = 161 ∧
      (∀ k, s.s1.h.get k = some ((#v[1, 2, 3, 4, 5] : Vector Word 5).get k)) ∧
      ∀ k, s.s1.v.get k = some ((#v[6, 7, 8, 9, 10] : Vector Word 5).get k)) ∧
    (let s := on256 { u256 .processingBlock 0 129 with h := words 8 [1, 2, 3, 4, 5, 6, 7, 8], v := words 8 [8, 7, 6, 5, 4, 3, 2, 1] };
      s.s256.pos.phase = .processingBlock ∧ s.s256.pos.step = 129 ∧
      (∀ k, s.s256.h.get k = some ((#v[1, 2, 3, 4, 5, 6, 7, 8] : Vector Word 8).get k)) ∧
      ∀ k, s.s256.v.get k = some ((#v[8, 7, 6, 5, 4, 3, 2, 1] : Vector Word 8).get k)) := by decide

/-- One block more, and the last block. -/
theorem witness_NextblkLoopsWhileBlocksRemain :
    (∀ b ∈ [0, 1], let s := on1 { u1 .processingBlock b 162 with nblk := some 2 };
      s.s1.pos.phase = .processingBlock ∧ s.s1.pos.step = 162 ∧ s.s1.nblk = some 2) ∧
    ∀ b ∈ [0, 1], let s := on256 { u256 .processingBlock b 130 with nblk := some 2 };
      s.s256.pos.phase = .processingBlock ∧ s.s256.pos.step = 130 ∧ s.s256.nblk = some 2 := by decide

theorem witness_SerializeWritesBigEndianWords :
    (let s := on1 { u1 .finalizing 0 0 with h := words 5 [1, 2, 3, 4, 5] };
      s.s1.pos.phase = .finalizing ∧ s.s1.pos.step = 0 ∧
      ∀ k, s.s1.h.get k = some ((#v[1, 2, 3, 4, 5] : Vector Word 5).get k)) ∧
    (let s := on256 { u256 .finalizing 0 0 with h := words 8 [1, 2, 3, 4, 5, 6, 7, 8] };
      s.s256.pos.phase = .finalizing ∧ s.s256.pos.step = 0 ∧
      ∀ k, s.s256.h.get k = some ((#v[1, 2, 3, 4, 5, 6, 7, 8] : Vector Word 8).get k)) := by decide

theorem witness_HexencWritesLowercaseHex :
    (let s := on1 { u1 .finalizing 0 1 with dig := bytesAt 0 (List.replicate 20 0xaf) };
      s.s1.pos.phase = .finalizing ∧ s.s1.pos.step = 1 ∧
      ∀ j : Fin 20, Memory.read s.s1.dig j.val = some ((Vector.ofFn fun _ => 0xaf : Vector Byte 20).get j)) ∧
    (let s := on256 { u256 .finalizing 0 1 with dig := bytesAt 0 (List.replicate 32 0xaf) };
      s.s256.pos.phase = .finalizing ∧ s.s256.pos.step = 1 ∧
      ∀ j : Fin 32, Memory.read s.s256.dig j.val = some ((Vector.ofFn fun _ => 0xaf : Vector Byte 32).get j)) := by decide

/-- A length and a block count never written, on each unit. -/
theorem witness_NovalNumbersLeaveTheWayFree :
    (let x := (on1 (u1 .start 0 0)).unit .s1; x.pos.phase = .start ∧ x.pos.step = 0 ∧ x.mlen = none) ∧
    (let x := (on256 (u256 .start 0 0)).unit .s256; x.pos.phase = .start ∧ x.pos.step = 0 ∧ x.mlen = none) ∧
    (let x := (on1 (u1 .processingBlock 0 162)).unit .s1;
      x.pos.phase = .processingBlock ∧ x.pos.step = Config.nw .s1 + Config.nr .s1 + 2 ∧ x.nblk = none) ∧
    (let x := (on256 (u256 .processingBlock 5 130)).unit .s256;
      x.pos.phase = .processingBlock ∧ x.pos.step = Config.nw .s256 + Config.nr .s256 + 2 ∧ x.nblk = none) := by decide

/-- No length; one message byte missing, the last of the longest message among them; the last byte of a Word; the State; the first and
the last expanded entry. -/
theorem witness_NovalIsRecordedAndNeverBecomesAValue :
    (let x := (on1 (u1 .padding 0 0)).unit .s1; x.pos.phase = .padding ∧ x.pos.step = 0 ∧ x.mlen = none) ∧
    (∀ n ∈ [1, 2 ^ 61 - 1], let x := (on256 { u256 .padding 0 0 with mlen := some n }).unit .s256;
      x.pos.phase = .padding ∧ x.pos.step = 0 ∧ x.mlen = some n ∧ 8 * n < 2 ^ 64 ∧ n - 1 < n ∧ Memory.read x.msg (n - 1) = none) ∧
    (let x := (on1 { u1 .processingBlock 1 15 with pm := bytesAt 124 [1, 2, 3] }).unit .s1;
      15 ≤ 15 ∧ x.pos.phase = .processingBlock ∧ x.pos.step = 15 ∧ 3 < 4 ∧ Memory.read x.pm (64 * x.pos.blk + 4 * 15 + 3) = none) ∧
    (let x := (on256 { u256 .processingBlock 0 64 with h := words 8 [1, 2, 3, 4, 5, 6, 7] }).unit .s256;
      x.pos.phase = .processingBlock ∧ x.pos.step = Config.nw .s256 ∧ ∃ k, x.h.get k = none) ∧
    (∀ i ∈ [16, 79], ∀ d ∈ [3, 8, 14, 16], let s := on1 (u1 .processingBlock 0 i);
      16 ≤ i ∧ i ≤ 79 ∧ s.s1.pos.phase = .processingBlock ∧ s.s1.pos.step = i ∧ s.s1.w.at (i - d) = none) ∧
    (∀ i ∈ [16, 63], ∀ d ∈ [16, 15, 7, 2], let s := on256 (u256 .processingBlock 0 i);
      16 ≤ i ∧ i ≤ 63 ∧ s.s256.pos.phase = .processingBlock ∧ s.s256.pos.step = i ∧ s.s256.w.at (i - d) = none) := by decide

/-- The first and the last round without a register and without a schedule entry, and one Word or byte missing at the end. -/
theorem witness_NovalStaysInItsPlace :
    (∀ t ∈ [0, 79], let s := on1 { u1 .processingBlock 0 (81 + t) with v := words 5 [1, 2, 3, 4, 5] };
      t ≤ 79 ∧ s.s1.pos.phase = .processingBlock ∧ s.s1.pos.step = 81 + t ∧ s.s1.w.at t = none) ∧
    (let s := on1 { u1 .processingBlock 0 81 with v := words 5 [1, 2, 3, 4], w := cells 80 [(0, 6)] };
      s.s1.pos.step = 81 + 0 ∧ ∃ k, s.s1.v.get k = none) ∧
    (∀ t ∈ [0, 63], let s := on256 { u256 .processingBlock 0 (65 + t) with v := words 8 [1, 2, 3, 4, 5, 6, 7, 8] };
      t ≤ 63 ∧ s.s256.pos.phase = .processingBlock ∧ s.s256.pos.step = 65 + t ∧ s.s256.w.at t = none) ∧
    (let s := on256 { u256 .processingBlock 0 65 with
        v := cells 8 [(0, 1), (1, 2), (2, 3), (4, 5), (5, 6), (6, 7), (7, 8)], w := cells 64 [(0, 9)] };
      s.s256.pos.step = 65 + 0 ∧ (∃ k, s.s256.v.get k = none) ∧ s.s256.v.get 0 = some 1 ∧ s.s256.v.get 1 = some 2 ∧
      s.s256.v.get 2 = some 3 ∧ s.s256.v.get 4 = some 5 ∧ s.s256.v.get 5 = some 6 ∧ s.s256.v.get 6 = some 7 ∧
      s.s256.v.get 7 = some 8 ∧ s.s256.w.at 0 = some 9) ∧
    (let s := on256 { u256 .processingBlock 0 128 with v := cells 8 [(3, 4), (4, 5), (5, 6), (6, 7), (7, 8)], w := cells 64 [(63, 9)] };
      s.s256.pos.step = 65 + 63 ∧ (∃ k, s.s256.v.get k = none) ∧ s.s256.v.get 3 = some 4 ∧ s.s256.v.get 4 = some 5 ∧
      s.s256.v.get 5 = some 6 ∧ s.s256.v.get 6 = some 7 ∧ s.s256.v.get 7 = some 8 ∧ s.s256.w.at 63 = some 9) ∧
    (let x := (on1 { u1 .processingBlock 0 161 with h := words 5 [1, 2, 3, 4, 5], v := words 5 [6, 7, 8, 9] }).unit .s1;
      x.pos.phase = .processingBlock ∧ x.pos.step = Config.nw .s1 + 1 + Config.nr .s1 ∧ ∃ k, x.v.get k = none) ∧
    (let x := (on256 { u256 .processingBlock 0 129 with v := words 8 [1, 2, 3, 4, 5, 6, 7, 8] }).unit .s256;
      x.pos.phase = .processingBlock ∧ x.pos.step = Config.nw .s256 + 1 + Config.nr .s256 ∧ ∃ k, x.h.get k = none) ∧
    (let x := (on1 { u1 .finalizing 0 0 with h := words 5 [1, 2, 3, 4] }).unit .s1;
      x.pos.phase = .finalizing ∧ x.pos.step = 0 ∧ ∃ k, x.h.get k = none) ∧
    (let x := (on256 { u256 .finalizing 0 1 with dig := bytesAt 0 (List.replicate 31 0xaf) }).unit .s256;
      x.pos.phase = .finalizing ∧ x.pos.step = 1 ∧ 31 < Config.db .s256 ∧ Memory.read x.dig 31 = none) := by decide

theorem witness_OutOfSequenceIsRefused :
    WellFormed (.sha1Wload 16) = false ∧
    (positionOf .sha1Init = some (.start, 1) ∧ ((on1 (u1 .start 0 0)).s1.pos.phase, (on1 (u1 .start 0 0)).s1.pos.step) ≠ (.start, 1)) ∧
    (positionOf .sha256Start = none ∧ busy (on256 (u256 .padding 0 0)).s256.pos.phase = true) ∧
    (WellFormed (.sha1Round 79) = true ∧ positionOf (.sha1Round 79) = some (.processingBlock, 160) ∧
      ((on1 (u1 .processingBlock 0 160)).s1.pos.phase, (on1 (u1 .processingBlock 0 160)).s1.pos.step) = (.processingBlock, 160)) ∧
    (WellFormed .sha1Pad = true ∧ positionOf .sha1Pad = some (.padding, 0) ∧
      ∀ m ∈ [none, some (2 ^ 61 - 1)], let s := on1 { u1 .padding 0 0 with mlen := m };
        (s.s1.pos.phase, s.s1.pos.step) = (.padding, 0) ∧ (∀ n ∈ s.s1.mlen, 8 * n < 2 ^ 64)) ∧
    (positionOf .sha1Start = none ∧ busy State.reset.s1.pos.phase = false) := by decide

/-- An operation that completes, in a state whose other unit is busy. -/
theorem witness_OperationsTouchOnlyTheirUnit :
    nextIs (exec .sha1Init ({ on1 (u1 .start 0 1) with s256 := u256 .padding 0 0 } : State)) (fun _ => true) = true := by decide

/-- Operations that change the schedule, the working registers, the State, the memories, and the error. -/
theorem witness_OnlyListedOperationsWrite :
    nextIs (exec (.sha1Wload 0) (on1 { u1 .processingBlock 0 0 with pm := bytesAt 0 paddedAbc })) (fun t => t.s1.w.get 0 != none) = true ∧
    nextIs (exec .sha256Loadv (on256 { u256 .processingBlock 0 64 with h := words 8 [1, 2, 3, 4, 5, 6, 7, 8] }))
      (fun t => t.s256.v.get 0 != none) = true ∧
    nextIs (exec .sha1Init (on1 (u1 .start 0 1))) (fun t => t.s1.h.get 0 != none) = true ∧
    nextIs (exec .sha1Pad (on1 { u1 .padding 0 0 with mlen := some 0 }))
      (fun t => t.s1.nblk != none && Memory.read t.s1.pm 0 != none) = true ∧
    nextIs (exec .sha1Serialize (on1 { u1 .finalizing 0 0 with h := words 5 [1, 2, 3, 4, 5] }))
      (fun t => Memory.read t.s1.dig 0 != none) = true ∧
    nextIs (exec .sha1Hexenc (on1 { u1 .finalizing 0 1 with dig := bytesAt 0 (List.replicate 20 0xaf) }))
      (fun t => Memory.read t.s1.hex 0 != none) = true ∧
    nextIs (exec .sha256Checklen (on256 { u256 .start 0 0 with mlen := some (2 ^ 61) })) (fun t => t.s256.err != 0) = true := by decide

theorem witness_MicroprogramIssuesEachOperationAtItsPosition :
    (WellFormed (.sha256Round 63) = true ∧ positionOf (.sha256Round 63) = some (.processingBlock, 128)) ∧
    (WellFormed (.sha1Wload 0) = true ∧ positionOf (.sha1Wload 0) = some (.processingBlock, 0)) ∧
    uop .s1 .processingBlock 162 = some 0x0A00 := by decide

theorem witness_StepRunsTheDecodedOperation :
    (let s := on1 (u1 .start 0 1);
      nextMove s = some (.unit .s1) ∧ busy (s.unit .s1).pos.phase = true ∧
      uop .s1 (s.unit .s1).pos.phase (s.unit .s1).pos.step = some 0x0300 ∧ decode 0x0300 = .op .sha1Init) ∧
    (let s := on256 { UnitState.reset .s256 with inbox := [.write (.cmd 0x8100)] };
      nextMove s = some (.host .s256) ∧ busy (s.unit .s256).pos.phase = false ∧
      (s.unit .s256).inbox = [.write (.cmd 0x8100)] ∧ decode 0x8100 = .op (Instr.start .s256)) := by decide

theorem witness_PlacedWordRunsNext : WellFormed .sha1Start = true ∧ WellFormed (.sha256Wload 15) = true := by decide

theorem witness_PhasesMoveAlongTheListedEdges :
    nextIs (step (on1 (u1 .start 0 1))) (fun t => t.s1.pos.phase == .padding) = true ∧
    nextIs (step ({ on1 (u1 .padding 0 0) with sched := [.reset] } : State)) (fun t => t.s1.pos.phase == .idle) = true := by decide

theorem witness_UnitStepsCommute :
    let s : State := { on1 (u1 .start 0 1) with s256 := u256 .start 0 1 }
    nextIs (unitMove .s1 s) (fun _ => true) = true ∧ nextIs (unitMove .s256 s) (fun _ => true) = true := by decide

theorem witness_OnlyStartIsAcceptedByCmd :
    ∀ ph ∈ [Phase.idle, .finalized, .failed],
      busy ((on1 (u1 ph 0 0)).unit .s1).pos.phase = false ∧ decode 0x8100 ≠ .op (Instr.start .s1) ∧
      decode 0x0100 = .op (Instr.start .s1) := by decide

/-- The last address of the message, a length and a command, in a busy phase; and one held in a ready phase. -/
theorem witness_BusyWritesAreHeld :
    (busy ((on1 (u1 .processingBlock 0 0)).unit .s1).pos.phase = true ∧ ((on1 (u1 .processingBlock 0 0)).unit .s1).held = none) ∧
    (∃ j b, HostWrite.msg (2 ^ 61 - 2) 7 = .msg j b ∧ j ≤ 2 ^ 61 - 2) ∧ (∃ n, HostWrite.mlen 5 = .mlen n) ∧
    (∃ c, HostWrite.cmd 0x0100 = .cmd c) ∧
    (let s := on1 { u1 .finalized 0 0 with held := some (.mlen 5) };
      (s.unit .s1).held ≠ none ∧ busy (s.unit .s1).pos.phase = false ∧ (s.unit .s1).held = some (.mlen 5)) :=
  ⟨by decide, ⟨_, _, rfl, by decide⟩, ⟨_, rfl⟩, ⟨_, rfl⟩, by decide⟩

theorem witness_ReadyWritesTakeEffect :
    busy (State.reset.unit .s1).pos.phase = false ∧ busy (State.reset.unit .s256).pos.phase = false ∧
    2 ^ 61 - 2 ≤ 2 ^ 61 - 2 := by decide

/-- One access of each kind, at the first address outside the space. -/
theorem witness_RefusedAccessesChangeNothing :
    (∃ v, HostOp.write (.status 0) = .write (.status v)) ∧ (∃ n, HostOp.write (.nblk 0) = .write (.nblk n)) ∧
    (∃ n v, HostOp.write (.otherReg 0 1) = .write (.otherReg n v)) ∧ (∃ n, HostOp.read (.otherReg 0) = .read (.otherReg n)) ∧
    (∃ l v, HostOp.write (.internal (.h 0) 1) = .write (.internal l v)) ∧
    (∃ l, HostOp.read (.internal (.k 0)) = .read (.internal l)) ∧
    (∃ j b, HostOp.write (.msg (2 ^ 61 - 1) 0) = .write (.msg j b) ∧ 2 ^ 61 - 2 < j) ∧
    (∃ j, HostOp.read (.msg (2 ^ 61 - 1)) = .read (.msg j) ∧ 2 ^ 61 - 2 < j) ∧
    (∃ j, HostOp.read (.dig 20) = .read (.dig j) ∧ Config.db .s1 ≤ j) ∧
    (∃ j, HostOp.read (.hex 64) = .read (.hex j) ∧ Config.hx .s256 ≤ j) ∧
    (∃ j b, HostOp.write (.dig 0 1) = .write (.dig j b)) ∧ (∃ j b, HostOp.write (.hex 63 1) = .write (.hex j b)) :=
  ⟨⟨_, rfl⟩, ⟨_, rfl⟩, ⟨_, _, rfl⟩, ⟨_, rfl⟩, ⟨_, _, rfl⟩, ⟨_, rfl⟩, ⟨_, _, rfl, by decide⟩, ⟨_, rfl, by decide⟩,
    ⟨_, rfl, by decide⟩, ⟨_, rfl, by decide⟩, ⟨_, _, rfl⟩, ⟨_, _, rfl⟩⟩

/-- The last byte of each digest in `Finalized`, and another phase. -/
theorem witness_DigestIsReadOnlyWhenFinalized :
    (let s := on1 { u1 .finalized 0 0 with dig := bytesAt 19 [0x9d], hex := bytesAt 39 [0x64] };
      (19 < Config.db .s1 ∧ (s.unit .s1).pos.phase = .finalized ∧ Memory.read (s.unit .s1).dig 19 = some 0x9d) ∧
      (39 < Config.hx .s1 ∧ (s.unit .s1).pos.phase = .finalized ∧ Memory.read (s.unit .s1).hex 39 = some 0x64)) ∧
    (31 < Config.db .s256 ∧ 63 < Config.hx .s256 ∧ (State.reset.unit .s256).pos.phase ≠ .finalized) ∧
    (let s := on1 { u1 .finalized 0 0 with noValueRead := some .msg };
      Memory.read (s.unit .s1).dig 19 = none ∧ Memory.read (s.unit .s1).hex 39 = none) := by decide

theorem witness_HostReadsAnswerTheStoredValue :
    (let s := on1 { u1 .finalized 0 0 with mlen := some 3, nblk := some 1, msg := bytesAt (2 ^ 61 - 2) [0x61] };
      (s.unit .s1).mlen = some 3 ∧ (2 ^ 61 - 2 ≤ 2 ^ 61 - 2 ∧ Memory.read (s.unit .s1).msg (2 ^ 61 - 2) = some 0x61) ∧
      ((s.unit .s1).pos.phase ∈ [Phase.processingBlock, .finalizing, .finalized] ∧ (s.unit .s1).nblk = some 1)) ∧
    (State.reset.unit .s256).mlen = none ∧ Memory.read (State.reset.unit .s256).msg 0 = none ∧
    (State.reset.unit .s256).pos.phase ∈ [Phase.idle, .start, .padding, .failed] ∧
    ((on1 (u1 .processingBlock 0 0)).unit .s1).nblk = none := by decide

/-- The busy unit itself accessed, and the other unit accessed while this one computes (program 6). -/
theorem witness_HostCannotDisturbABusyUnit :
    (let s : State := { on1 { u1 .padding 0 0 with inbox := [.write (.mlen 7)] } with sched := [.host .s1] };
      nextMove s = some (.host .s1) ∧ busy (s.unit .s1).pos.phase = true ∧
      nextIs (step s) (fun t => t.s1.held == some (.mlen 7)) = true) ∧
    (let s : State := { s1 := u1 .padding 0 0, sched := [.host .s256],
                        s256 := { UnitState.reset .s256 with inbox := [.write (.cmd 0x8100)] } };
      nextMove s = some (.host .s256) ∧ busy (s.unit .s1).pos.phase = true ∧
      nextIs (step s) (fun t => t.s256.pos.phase == .start) = true) := by decide

/-- An accepted `START`, a refused command, the raise, and a reset each change the error. -/
theorem witness_ErrorFlagIsSticky :
    nextIs (step (on1 { u1 .failed 0 0 with err := 1, inbox := [.write (.cmd 0x0100)] })) (fun t => t.s1.err != 1) = true ∧
    nextIs (step (on1 { u1 .idle 0 0 with inbox := [.write (.cmd 0)] })) (fun t => t.s1.err != 0) = true ∧
    nextIs (step (on1 { u1 .start 0 0 with mlen := some (2 ^ 61) })) (fun t => t.s1.err != 0) = true ∧
    nextIs (step ({ on1 { u1 .failed 0 0 with err := 1 } with sched := [.reset] } : State)) (fun t => t.s1.err != 1) = true := by decide

theorem witness_FinishedDigestStays :
    nextIs (step (on1 { u1 .finalized 0 0 with dig := bytesAt 0 [1], inbox := [.read .status] }))
      (fun t => t.s1.reply == some (.status 0x15)) = true := by decide

theorem witness_ResetLeavesEverythingNoval :
    nextMove ({ on1 (u1 .processingBlock 3 9) with sched := [.reset] } : State) = some .reset := by decide

/-- A unit that holds no memory bytes and neither schedule nor working registers meets the invariant at these positions. -/
theorem unitInv_fresh (u : UnitId) (pos : Pos) (m : Option Nat) (h : Cells (Config.ns u)) (ops : List HostOp)
    (hp : pos = ⟨.idle, 0, 0⟩ ∨ (pos = ⟨.start, 0, 0⟩) ∨ (pos = ⟨.padding, 0, 0⟩ ∧ ∃ n, m = some n ∧ 8 * n < 2 ^ 64))
    (hh : ∀ k, (h.get k).isSome = hasChain pos.phase) :
    UnitInv ({ UnitState.reset u with pos := pos, mlen := m, h := h, inbox := ops } : UnitState u) where
  msgWf := List.Pairwise.nil
  pmWf := List.Pairwise.nil
  digWf := List.Pairwise.nil
  hexWf := List.Pairwise.nil
  msgBound := by simp [UnitState.reset, Memory.Within, Memory.read]
  pos := by rcases hp with rfl | rfl | ⟨rfl, -⟩ <;> simp [legalPos]
  err := by rcases hp with rfl | rfl | ⟨rfl, -⟩ <;> simp [legalErr, UnitState.reset, errNone]
  length := by
    rcases hp with rfl | rfl | ⟨rfl, n, hm, hn⟩
    · intro hl; exact absurd hl (by simp [lengthChecked])
    · intro hl; exact absurd hl (by simp [lengthChecked])
    · intro _ n' hn'
      obtain rfl : n = n' := Option.some.inj (hm.symm.trans hn')
      exact hn
  blocks := by simp [UnitState.reset]
  noBlocks := fun _ => rfl
  chain := fun hc k => by simpa [hc] using hh k
  schedule := by simp [UnitState.reset, Cells.noval]
  working := by simp [UnitState.reset, Cells.noval]
  raw := by simp [UnitState.reset, Memory.Within, Memory.read]
  text := by simp [UnitState.reset, Memory.Within, Memory.read]
  heldOk := by simp [UnitState.reset]
  complete := fun _ => by
    rcases hp with rfl | rfl | ⟨rfl, n, hm, -⟩ <;> constructor <;>
      simp_all [lengthChecked, nblkReadable, hasChain, hasRaw]

/-- Unit `S1` at such a position, the other unit after reset. -/
def fresh1 (pos : Pos) (m : Option Nat) (h : Cells 5) (ops : List HostOp) : State :=
  on1 { UnitState.reset .s1 with pos := pos, mlen := m, h := h, inbox := ops }

theorem inv_fresh1 (pos : Pos) (m : Option Nat) (h : Cells 5) (ops : List HostOp)
    (hp : pos = ⟨.idle, 0, 0⟩ ∨ (pos = ⟨.start, 0, 0⟩) ∨ (pos = ⟨.padding, 0, 0⟩ ∧ ∃ n, m = some n ∧ 8 * n < 2 ^ 64))
    (hh : ∀ k, (h.get k).isSome = hasChain pos.phase) : Inv (fresh1 pos m h ops)
  | .s1 => unitInv_fresh .s1 pos m h ops hp hh
  | .s256 => unitInv_fresh .s256 ⟨.idle, 0, 0⟩ none (Cells.noval 8) [] (.inl rfl) (by decide)

theorem witness_OversizedMessageFailsInOneStep :
    let s := fresh1 ⟨.start, 0, 0⟩ (some (2 ^ 61)) (Cells.noval 5) []
    Inv s ∧ nextMove s = some (.unit .s1) ∧ (s.unit .s1).pos = ⟨.start, 0, 0⟩ ∧ (s.unit .s1).mlen = some (2 ^ 61) ∧
    2 ^ 64 ≤ 8 * 2 ^ 61 :=
  ⟨inv_fresh1 _ _ _ _ (.inr (.inl rfl)) (by decide), by decide, by decide, by decide, by decide⟩

theorem witness_EveryStepKeepsTheInvariant :
    let s := fresh1 ⟨.padding, 0, 0⟩ (some 0) (Cells.full Config.iv1) []
    Inv s ∧ nextIs (step s) (fun t => t.s1.pos.phase == .processingBlock) = true :=
  ⟨inv_fresh1 _ _ _ _ (.inr (.inr ⟨rfl, 0, rfl, by decide⟩)) (by decide), by decide⟩

/-- The two positions at which the host's duty matters, with the duty done, and the first of them with the duty forgotten. -/
theorem witness_BusyUnitsNeverStop :
    (let s := fresh1 ⟨.start, 0, 0⟩ (some 0) (Cells.noval 5) [];
      Inv s ∧ nextMove s = some (.unit .s1) ∧ busy (s.unit .s1).pos.phase = true ∧
      ((s.unit .s1).pos = ⟨.start, 0, 0⟩ → (s.unit .s1).mlen ≠ none) ∧ ((s.unit .s1).pos.phase = .padding → HostReady (s.unit .s1)) ∧
      (s.unit .s1).noValueRead = none) ∧
    (let s := fresh1 ⟨.padding, 0, 0⟩ (some 0) (Cells.full Config.iv1) [];
      Inv s ∧ nextMove s = some (.unit .s1) ∧ busy (s.unit .s1).pos.phase = true ∧
      ((s.unit .s1).pos = ⟨.start, 0, 0⟩ → (s.unit .s1).mlen ≠ none) ∧ ((s.unit .s1).pos.phase = .padding → HostReady (s.unit .s1)) ∧
      (s.unit .s1).noValueRead = none) ∧
    (let s := fresh1 ⟨.start, 0, 0⟩ none (Cells.noval 5) [];
      Inv s ∧ nextMove s = some (.unit .s1) ∧ busy (s.unit .s1).pos.phase = true) :=
  ⟨⟨inv_fresh1 _ _ _ _ (.inr (.inl rfl)) (by decide), by decide, by decide, fun _ => by decide, fun h => absurd h (by decide), rfl⟩,
    ⟨inv_fresh1 _ _ _ _ (.inr (.inr ⟨rfl, 0, rfl, by decide⟩)) (by decide), by decide, by decide, fun h => absurd h (by decide),
      fun _ => ⟨0, rfl, fun _ hj => absurd hj (Nat.not_lt_zero _)⟩, rfl⟩,
    ⟨inv_fresh1 _ _ _ _ (.inr (.inl rfl)) (by decide), by decide, by decide⟩⟩

theorem witness_StepRefusesOnlyAtTheEnd :
    let s := fresh1 ⟨.idle, 0, 0⟩ none (Cells.noval 5) []
    Inv s ∧ step s = .refused .noStep :=
  ⟨inv_fresh1 _ _ _ _ (.inl rfl) (by decide), rfl⟩

theorem witness_ExpandMeetsItsRecurrence : paddedAbc.length = 64 ∧ (16 ≤ 16 ∧ 79 < 80) ∧ 63 < 64 := by decide

theorem witness_SchedulerStepsComputeExpand :
    let s : State := { on1 { u1 .processingBlock 0 0 with pm := bytesAt 0 paddedAbc } with sched := List.replicate 80 (.unit .s1) }
    paddedAbc.length = 64 ∧ (∀ m, m < 64 → Memory.read (s.unit .s1).pm (64 * (s.unit .s1).pos.blk + m) = paddedAbc[m]?) ∧
    (s.unit .s1).pos.phase = .processingBlock ∧ (s.unit .s1).pos.step = 0 ∧
    s.sched = List.replicate (Config.nw .s1) (.unit .s1) ++ [] := by decide +kernel

theorem witness_CompressorStepsComputeCompress :
    let s : State := { on256 { u256 .processingBlock 0 64 with
      h := Cells.full Config.iv256, w := Cells.full Config.k256 } with sched := List.replicate 66 (.unit .s256) }
    (s.unit .s256).h = Cells.full Config.iv256 ∧ (s.unit .s256).w = Cells.full Config.k256 ∧
    (s.unit .s256).pos.phase = .processingBlock ∧ (s.unit .s256).pos.step = Config.nw .s256 ∧
    s.sched = List.replicate (Config.nr .s256 + 2) (.unit .s256) ++ [] := by decide

theorem witness_FinalizerStepsComputeFinalize :
    let s : State := { on1 { u1 .finalizing 0 0 with h := Cells.full Config.iv1 } with sched := [.unit .s1, .unit .s1] }
    (s.unit .s1).h = Cells.full Config.iv1 ∧ (s.unit .s1).pos.phase = .finalizing ∧ (s.unit .s1).pos.step = 0 ∧
    s.sched = .unit .s1 :: .unit .s1 :: [] := by decide

/-- The message `abc`, whose digest exists. -/
theorem witness_UnitComputesTheDigest :
    let s : State := { on1 { u1 .start 0 0 with mlen := some 3, msg := bytesAt 0 abc } with sched := List.replicate 168 (.unit .s1) }
    (s.unit .s1).pos = ⟨.start, 0, 0⟩ ∧ HasMessage (s.unit .s1) abc ∧ (∃ d, digest .s1 abc = some d) ∧
    s.sched = List.replicate (5 + (Config.nw .s1 + Config.nr .s1 + 3) * blockCount abc.length) (.unit .s1) ++ [] := by
  refine ⟨rfl, ⟨rfl, by decide⟩, ⟨_, if_neg (by decide)⟩, by decide +kernel⟩

/-- Two units with one message, different histories and different bytes past the message. -/
theorem witness_ComputationDependsOnTheMessageOnly :
    let s := on1 { u1 .finalized 0 0 with mlen := some 3, msg := bytesAt 0 abc, err := 2, dig := bytesAt 0 [1] }
    let s' := on1 { u1 .idle 0 0 with mlen := some 3, msg := bytesAt 0 (abc ++ [0xff]) }
    (s.unit .s1).mlen = (s'.unit .s1).mlen ∧
    (∀ n j, (s.unit .s1).mlen = some n → j < n → Memory.read (s.unit .s1).msg j = Memory.read (s'.unit .s1).msg j) ∧
    (s.unit .s1).held = none ∧ (s'.unit .s1).held = none ∧ ((s.unit .s1).mlen = none → (s.unit .s1).draws = (s'.unit .s1).draws) ∧
    nextIs (exec (Instr.start .s1) s) (fun _ => true) = true ∧ nextIs (exec (Instr.start .s1) s') (fun _ => true) = true := by
  refine ⟨rfl, ?_, rfl, rfl, fun _ => rfl, by decide, by decide⟩
  intro n j hn hj
  have hb : ∀ i < 3, Memory.read (bytesAt 0 abc) i = Memory.read (bytesAt 0 (abc ++ [0xff])) i := by decide
  obtain rfl : 3 = n := Option.some.inj hn
  exact hb j hj

theorem witness_DigestHasItsFixedLength : (∃ d, digest .s1 abc = some d) ∧ ∃ d, digest .s256 [] = some d :=
  ⟨⟨_, if_neg (by decide)⟩, ⟨_, if_neg (by decide)⟩⟩

end Sys2Proof.Tests
end

section
/-! PROOFS. The Words and bytes of spec/00_scope.md R11 to R15: the arithmetic rotations and shift are those of bit vectors,
and `be32` and `byteOf` are inverse to each other. -/

namespace Sys2Proof.Machine

/-- The two parts a rotation adds share no bit, so their sum is their union: the high part is a multiple of `2^r` and the low
part is below `2^r`. -/
theorem ofNat_rotation_parts (x : Word) {r : Nat} (hr : r ≤ 32) :
    BitVec.ofNat 32 (x.toNat * 2 ^ r % 2 ^ 32 + x.toNat / 2 ^ (32 - r)) = x <<< r ||| x >>> (32 - r) := by
  have hpow : 2 ^ 32 = 2 ^ (32 - r) * 2 ^ r := by rw [← Nat.pow_add, Nat.sub_add_cancel hr]
  have hhigh : x.toNat * 2 ^ r % 2 ^ 32 = (x.toNat % 2 ^ (32 - r)) <<< r := by
    rw [hpow, Nat.mul_mod_mul_right, Nat.shiftLeft_eq]
  have hlow : x.toNat / 2 ^ (32 - r) < 2 ^ r :=
    Nat.div_lt_of_lt_mul (hpow ▸ x.isLt)
  have hor : x.toNat * 2 ^ r % 2 ^ 32 + x.toNat / 2 ^ (32 - r) = (x <<< r ||| x >>> (32 - r)).toNat := by
    rw [BitVec.toNat_or, BitVec.toNat_shiftLeft, BitVec.toNat_ushiftRight, Nat.shiftLeft_eq, Nat.shiftRight_eq_div_pow,
      hhigh, Nat.shiftLeft_add_eq_or_of_lt hlow]
  rw [hor, BitVec.ofNat_toNat, BitVec.setWidth_eq]

/-- `rotl32` is the left rotation of bit vectors (R11). -/
theorem rotl32_eq_rotateLeft (x : Word) (s : Nat) : rotl32 x s = x.rotateLeft s := by
  have hs : s % 32 ≤ 32 := by omega
  rw [BitVec.rotateLeft_def, rotl32]
  split
  next h => simp [h, BitVec.ushiftRight_eq_zero (Nat.le_refl 32)]
  next => exact ofNat_rotation_parts x hs

/-- `rotr32` is the right rotation of bit vectors (R12): the left one by the complement of the amount. -/
theorem rotr32_eq_rotateRight (x : Word) (s : Nat) : rotr32 x s = x.rotateRight s := by
  have hs : 32 - (32 - s % 32) = s % 32 := by omega
  rw [BitVec.rotateRight_def, rotr32]
  split
  next h => simp [h]
  next =>
    have h := ofNat_rotation_parts x (Nat.sub_le 32 (s % 32))
    rwa [hs, Nat.add_comm, BitVec.or_comm] at h

/-- `shr32` is the logical right shift of bit vectors (R13). -/
theorem shr32_eq_ushiftRight (x : Word) (s : Nat) : shr32 x s = x >>> (s % 32) := by
  rw [shr32, ← Nat.shiftRight_eq_div_pow, ← BitVec.toNat_ushiftRight, BitVec.ofNat_toNat, BitVec.setWidth_eq]

/-- `be32` of four bytes does not wrap (R15). -/
theorem toNat_be32 (b0 b1 b2 b3 : Byte) :
    (be32 b0 b1 b2 b3).toNat = b0.toNat * 2 ^ 24 + b1.toNat * 2 ^ 16 + b2.toNat * 2 ^ 8 + b3.toNat := by
  rw [be32, BitVec.toNat_ofNat]
  omega

/-- Byte `k` of a Word is its digit of weight `256^(3-k)` (R15). -/
theorem toNat_byteOf (k : Nat) (x : Word) : (byteOf k x).toNat = x.toNat / 2 ^ (8 * (3 - k)) % 256 := by
  rw [byteOf, BitVec.toNat_ofNat, Nat.mod_mod]

/-- The bytes of a Word assemble it again (R15). -/
theorem be32_byteOf (x : Word) : be32 (byteOf 0 x) (byteOf 1 x) (byteOf 2 x) (byteOf 3 x) = x := by
  apply BitVec.eq_of_toNat_eq
  simp only [toNat_be32, toNat_byteOf]
  omega

/-- A Word assembled from four bytes has these bytes, in this order (R15). -/
theorem wordBytes_be32 (b0 b1 b2 b3 : Byte) : wordBytes (be32 b0 b1 b2 b3) = [b0, b1, b2, b3] := by
  have hbyte (k : Nat) (b : Byte) (h : (be32 b0 b1 b2 b3).toNat / 2 ^ (8 * (3 - k)) % 256 = b.toNat) :
      byteOf k (be32 b0 b1 b2 b3) = b :=
    BitVec.eq_of_toNat_eq ((toNat_byteOf k _).trans h)
  rw [toNat_be32] at hbyte
  rw [wordBytes, hbyte 0 b0 (by omega), hbyte 1 b1 (by omega), hbyte 2 b2 (by omega), hbyte 3 b3 (by omega)]

/-- Settles O5: the parts of a rotation share no bit, and the shift is a division. -/
theorem rotationsAreBitRotations : Obligations.RotationsAreBitRotations :=
  fun x s => ⟨rotl32_eq_rotateLeft x s, rotr32_eq_rotateRight x s, shr32_eq_ushiftRight x s⟩

/-- Settles O6: the bytes of a Word are its digits in base 256. -/
theorem bigEndianBytesRecoverTheWord : Obligations.BigEndianBytesRecoverTheWord :=
  ⟨be32_byteOf, wordBytes_be32⟩

end Sys2Proof.Machine
end

section
/-! PROOFS. The invariant of spec/10_state.md R24 to R39: every micro-operation keeps it, and so does every move. -/

namespace Sys2Proof.Machine

/-! ### Sizes and spaces -/

/-- The schedule has room for the 16 Words of a block and more (R4). -/
theorem sixteen_lt_nw (u : UnitId) : 16 < Config.nw u := by cases u <;> decide

/-- A Word is four bytes (R4, R171). -/
theorem db_eq_four_mul_ns (u : UnitId) : Config.db u = 4 * Config.ns u := by cases u <;> rfl

/-- A byte is two characters (R4, R174). -/
theorem hx_eq_two_mul_db (u : UnitId) : Config.hx u = 2 * Config.db u := by cases u <;> rfl

@[simp] theorem length_cellBytes {n : Nat} (h : Cells n) : (cellBytes h).length = 4 * n := by
  simp [cellBytes, List.length_flatMap, Nat.mul_comm]

@[simp] theorem length_hexCells (bs : List (Option Byte)) : (hexCells bs).length = 2 * bs.length := by
  simp [hexCells, List.length_flatMap, Nat.mul_comm]

@[simp] theorem length_pmBytes (msg : Memory) (n : Nat) : (pmBytes msg n).length = 64 * blockCount n := by simp [pmBytes]

theorem Memory.within_nil (k : Nat) : Memory.Within [] k := by simp [Memory.Within, Memory.read]

/-- A write from address 0 stays within its length where the space held nothing above. -/
theorem Memory.Within.putBytes {m : Memory} {k : Nat} (h : Memory.Within m k) {bs : List (Option Byte)} (hk : k ≤ bs.length) :
    Memory.Within (Memory.putBytes m 0 bs) bs.length := by
  intro a ha
  rw [Memory.read_putBytes] at ha
  split at ha
  next hlt => omega
  next => exact Nat.lt_of_lt_of_le (h a ha) hk

/-- A write of bytes that are all there, from address 0, fills the space up to its length where it held nothing above. -/
theorem Memory.Within.putBytes_fills {m : Memory} {k : Nat} (h : Memory.Within m k) {bs : List (Option Byte)} (hk : k ≤ bs.length)
    (hbs : missingByte bs = false) : Memory.Fills (Memory.putBytes m 0 bs) bs.length := by
  refine fun a => ⟨h.putBytes hk a, fun ha => ?_⟩
  have hmem : bs[a] ≠ none := fun hn => by
    have : missingByte bs = true := missingByte_eq_true.mpr (hn ▸ List.getElem_mem ha)
    simp [hbs] at this
  simpa [Memory.read_putBytes, ha, Option.isSome_iff_ne_none] using hmem

/-- A space that is filled misses none of the bytes it is filled with. -/
theorem Memory.Fills.missingByte_readBytes {m : Memory} {k : Nat} (h : Memory.Fills m k) :
    missingByte (Memory.readBytes m 0 k) = false := by
  simp only [missingByte, Memory.readBytes, List.any_map, List.any_eq_false, List.mem_range, Function.comp_apply]
  intro a ha
  have := (h a).mpr ha
  simpa [Option.isSome_iff_ne_none] using this

/-- The bytes of a State that misses no Word miss none. -/
theorem missingByte_cellBytes {n : Nat} {h : Cells n} (hh : ∀ k, (h.get k).isSome = true) : missingByte (cellBytes h) = false := by
  obtain ⟨x, rfl⟩ := Cells.exists_full hh
  rw [cellBytes_full, missingByte_map_some]

/-- The characters of bytes that miss none miss none. -/
theorem missingByte_hexCells {bs : List (Option Byte)} (hbs : missingByte bs = false) : missingByte (hexCells bs) = false := by
  simp only [missingByte, hexCells, List.any_flatMap, List.any_eq_false] at hbs ⊢
  intro o ho
  simpa using hbs o ho

/-- A round on registers and a schedule entry that are there leaves registers that are there. -/
theorem roundCells_isSome {u : UnitId} {t : Nat} {wt : Option Word} {r : Cells (Config.ns u)} (hw : wt.isSome = true)
    (hr : ∀ k, (r.get k).isSome = true) (k : Fin (Config.ns u)) : ((roundCells u t wt r).get k).isSome = true := by
  obtain ⟨w, rfl⟩ := Option.isSome_iff_exists.mp hw
  obtain ⟨x, rfl⟩ := Cells.exists_full hr
  rw [roundCells_full, Cells.full_get, Option.isSome_some]

/-! ### What the invariant says at a position -/

/-- A unit in `ProcessingBlock` whose next position is in the block too, with new content of the registers: it keeps the invariant if
`V_u` has a value only after `LOADV`, `W_u` only below the new step, and all that the new position asks for is there unless a read of
`NOVAL` is recorded (R39). -/
theorem UnitInv.advance_block {u : UnitId} {x : UnitState u} (hx : UnitInv x) {w : Cells (Config.nw u)} {v h : Cells (Config.ns u)}
    {rec : Option Store} (hph : x.pos.phase = .processingBlock) (hst : x.pos.step < Config.nw u + Config.nr u + 2)
    (hw : ∀ k, (w.get k).isSome = true → k.val < x.pos.step + 1)
    (hv : ∀ k, (v.get k).isSome = true → Config.nw u < x.pos.step + 1)
    (hc : rec = none → x.noValueRead = none ∧ (∀ k, (h.get k).isSome = true) ∧
      (∀ k, k.val < x.pos.step + 1 → (w.get k).isSome = true) ∧
      (Config.nw u < x.pos.step + 1 → ∀ k, (v.get k).isSome = true)) :
    UnitInv ({ x with w := w, v := v, h := h, noValueRead := rec }).advance := by
  have hpos := hx.pos
  simp only [legalPos, hph] at hpos
  exact { hx with
    pos := by simp only [UnitState.advance_pos, legalPos, hph]; omega
    length := fun _ => hx.length (by simp [lengthChecked, hph])
    chain := fun hn => by simp [hasChain, hph] at hn
    schedule := fun k hk => ⟨hph, hw k hk⟩
    working := fun k hk => ⟨hph, hv k hk⟩
    raw := by simpa [hasRaw, hph] using hx.raw
    complete := fun hr => by
      obtain ⟨hr, hh, hw, hv⟩ := hc hr
      have hcx := hx.complete hr
      exact { hcx with
        length := fun _ => hcx.length (by simp [lengthChecked, hph])
        chain := fun _ => hh
        schedule := fun _ => hw
        working := fun _ => hv
        raw := fun hn => by simp [hasRaw, hph] at hn } }

/-- A unit that holds no value of a computation but perhaps the State: before `PAD`, after a reset and after the exception. -/
structure UnitState.Blank {u : UnitId} (x : UnitState u) : Prop where
  nblk : x.nblk = none
  pm : x.pm = []
  dig : x.dig = []
  hex : x.hex = []
  w : ∀ k, x.w.get k = none
  v : ∀ k, x.v.get k = none

/-- A space in canonical form that holds no byte is empty. -/
theorem Memory.Within.eq_nil {m : Memory} (h : Memory.Within m 0) (hm : Memory.wf m) : m = [] :=
  Memory.eq_of_read_eq hm .nil fun a => by
    have : ¬ (Memory.read m a).isSome = true := fun ha => Nat.not_lt_zero a (h a ha)
    simpa [Memory.read] using this

/-- In the phases without a block count a unit that meets the invariant is blank (R26, R185). -/
theorem UnitInv.blank {u : UnitId} {x : UnitState u} (hx : UnitInv x) (hph : nblkReadable x.pos.phase = false) : x.Blank := by
  have hblock : x.pos.phase ≠ .processingBlock := fun h => by simp [h, nblkReadable] at hph
  have hdone : x.pos.phase ≠ .finalized := fun h => by simp [h, nblkReadable] at hph
  have hraw : hasRaw x.pos = false := by
    have : x.pos.phase ≠ .finalizing := fun h => by simp [h, nblkReadable] at hph
    simp [hasRaw, this, hdone]
  have hn : x.nblk = none := Option.eq_none_iff_forall_ne_some.mpr fun n hn => by
    have := (hx.blocks n hn).1
    simp [hph] at this
  exact
    { nblk := hn
      pm := hx.noBlocks hn
      dig := Memory.Within.eq_nil (by simpa [hraw] using hx.raw) hx.digWf
      hex := Memory.Within.eq_nil (by simpa [hdone] using hx.text) hx.hexWf
      w := fun k => Option.not_isSome_iff_eq_none.mp fun hk => hblock (hx.schedule k hk).1
      v := fun k => Option.not_isSome_iff_eq_none.mp fun hk => hblock (hx.working k hk).1 }

/-- A blank unit in a phase without a block count meets the invariant if its message and its host port do, its position and its error are
legal, and the length and the State are what the position asks for. -/
theorem UnitInv.of_blank {u : UnitId} {x : UnitState u} (hb : x.Blank) (hph : nblkReadable x.pos.phase = false)
    (hwf : Memory.wf x.msg) (hbound : Memory.Within x.msg (Config.maxMsgAddr + 1))
    (hheld : ∀ w, x.held = some w → holdable w = true) (hpos : legalPos u x.pos) (herr : legalErr x.pos.phase x.err)
    (hlen : lengthChecked x.pos → (∀ n, x.mlen = some n → 8 * n < Config.lengthLimit) ∧ (x.noValueRead = none → x.mlen ≠ none))
    (hchain : if hasChain x.pos.phase then ∀ k, (x.h.get k).isSome = true else ∀ k, x.h.get k = none) : UnitInv x := by
  have hblock : x.pos.phase ≠ .processingBlock := fun h => by simp [h, nblkReadable] at hph
  have hdone : x.pos.phase ≠ .finalized := fun h => by simp [h, nblkReadable] at hph
  have hraw : hasRaw x.pos = false := by
    have : x.pos.phase ≠ .finalizing := fun h => by simp [h, nblkReadable] at hph
    simp [hasRaw, this, hdone]
  exact
    { msgWf := hwf
      pmWf := hb.pm ▸ .nil
      digWf := hb.dig ▸ .nil
      hexWf := hb.hex ▸ .nil
      msgBound := hbound
      pos := hpos
      err := herr
      length := fun hl => (hlen hl).1
      blocks := fun n hn => by simp [hb.nblk] at hn
      noBlocks := fun _ => hb.pm
      chain := fun hn => by simpa [hn] using hchain
      schedule := fun k hk => by simp [hb.w k] at hk
      working := fun k hk => by simp [hb.v k] at hk
      raw := hb.dig ▸ Memory.within_nil _
      text := hb.hex ▸ Memory.within_nil _
      heldOk := hheld
      complete := fun hr =>
        { length := fun hl => (hlen hl).2 hr
          blocks := fun hn => by simp [hph] at hn
          chain := fun hn => by simpa [hn] using hchain
          schedule := fun hn => absurd hn hblock
          working := fun hn => absurd hn hblock
          raw := fun hn => by simp [hraw] at hn
          text := fun hn => absurd hn hdone } }

/-- The host port, the record of a read of `NOVAL` and the free values used may change: only a write that can be held may be held, and an
earlier record is kept (R71, R235 a). -/
theorem UnitInv.with_port {u : UnitId} {x : UnitState u} (hx : UnitInv x) {held : Option HostWrite} {inbox : List HostOp}
    {reply : Option HostReply} {rec : Option Store} {draws : Nat} (hheld : ∀ w, held = some w → holdable w = true)
    (hrec : rec = none → x.noValueRead = none) :
    UnitInv { x with held := held, inbox := inbox, reply := reply, noValueRead := rec, draws := draws } :=
  { hx with
    heldOk := hheld
    complete := fun hr => { hx.complete (hrec hr) with } }

theorem UnitInv.record {u : UnitId} {x : UnitState u} (hx : UnitInv x) (k : Store) (b : Bool) : UnitInv (x.record k b) :=
  hx.with_port hx.heldOk fun hr => ((x.record_eq_none k b).mp hr).1

theorem UnitInv.drawn {u : UnitId} {x : UnitState u} (hx : UnitInv x) : UnitInv x.drawn := hx.with_port hx.heldOk id

theorem UnitInv.answer {u : UnitId} {x : UnitState u} (hx : UnitInv x) (r : HostReply) : UnitInv (x.answer r) :=
  hx.with_port hx.heldOk id

/-- A unit after reset meets the invariant (R38). -/
theorem UnitInv.reset (u : UnitId) : UnitInv (UnitState.reset u) :=
  .of_blank ⟨rfl, rfl, rfl, rfl, Cells.noval_get, Cells.noval_get⟩ rfl .nil (Memory.within_nil _) (fun _ hw => nomatch hw)
    ⟨rfl, rfl⟩ (.inl rfl) False.elim Cells.noval_get

/-! ### Every micro-operation keeps the invariant -/

theorem startUnit_keeps {u : UnitId} {x y : UnitState u} (hx : UnitInv x) (h : startUnit x = .next y) : UnitInv y := by
  obtain ⟨-, rfl⟩ := startUnit_next.mp h
  exact .of_blank ⟨rfl, rfl, rfl, rfl, Cells.noval_get, Cells.noval_get⟩ rfl hx.msgWf hx.msgBound hx.heldOk ⟨rfl, Nat.zero_le 1⟩ rfl
    (fun hl => absurd hl Nat.zero_ne_one) Cells.noval_get

/-- The raise of `MessageTooLarge` by `CHECKLEN` (R227). -/
theorem UnitInv.raise {u : UnitId} {x : UnitState u} (hx : UnitInv x) (hph : x.pos.phase = .start) :
    UnitInv x.raiseMessageTooLarge := by
  have hb := hx.blank (by rw [hph]; rfl)
  exact .of_blank { hb with } rfl hx.msgWf hx.msgBound hx.heldOk ⟨rfl, rfl⟩ (.inl rfl) False.elim (hx.chain (by rw [hph]; rfl))

/-- A `CHECKLEN` that passes: the length is legal, and it is there unless a read of `NOVAL` is recorded (R188). -/
theorem UnitInv.pass {u : UnitId} {x : UnitState u} (hx : UnitInv x) (hph : x.pos.phase = .start) (hst : x.pos.step = 0)
    (hl : ∀ n, x.mlen = some n → 8 * n < 2 ^ 64) (hm : x.noValueRead = none → x.mlen ≠ none) : UnitInv x.advance := by
  have hb := hx.blank (by rw [hph]; rfl)
  have hpos := hx.pos
  simp only [legalPos, hph] at hpos
  refine .of_blank { hb with } (by simp [hph, nblkReadable]) hx.msgWf hx.msgBound hx.heldOk ?_ hx.err (fun _ => ⟨hl, hm⟩) ?_
  · simp only [UnitState.advance_pos, legalPos, hph]
    omega
  · simpa [hph, hasChain] using hx.chain (by rw [hph]; rfl)

theorem checklenUnit_keeps {u : UnitId} {x y : UnitState u} (hx : UnitInv x) (h : checklenUnit x = .next y) : UnitInv y := by
  obtain ⟨⟨hph, hst⟩, ⟨n, hn, ⟨-, rfl⟩ | ⟨hlt, rfl⟩⟩ | ⟨hn, ⟨-, rfl⟩ | ⟨-, rfl⟩⟩⟩ := checklenUnit_next.mp h
  · exact hx.raise hph
  · refine hx.pass hph hst (fun n' hn' => ?_) fun _ => by simp [hn]
    obtain rfl : n = n' := Option.some.inj (hn ▸ hn')
    exact hlt
  · exact (hx.record .mlen true).drawn.raise hph
  · exact (hx.record .mlen true).drawn.pass hph hst (fun n' hn' => by simp [hn] at hn') fun hr => by simp at hr

theorem initUnit_keeps {u : UnitId} {x y : UnitState u} (hx : UnitInv x) (h : initUnit x = .next y) : UnitInv y := by
  obtain ⟨⟨hph, hst⟩, rfl⟩ := initUnit_next.mp h
  have hb := hx.blank (by rw [hph]; rfl)
  have hl : lengthChecked x.pos := by simp [lengthChecked, hph, hst]
  have herr := hx.err
  rw [hph] at herr
  exact .of_blank { hb with } rfl hx.msgWf hx.msgBound hx.heldOk ⟨rfl, rfl⟩ herr
    (fun _ => ⟨hx.length hl, fun hr => (hx.complete hr).length hl⟩) fun k => by simp

/-- A legal length has at least one block and at most `2^55 + 1` (R101). -/
theorem blockCount_bounds {n : Nat} (h : 8 * n < 2 ^ 64) : 1 ≤ blockCount n ∧ blockCount n ≤ 2 ^ 55 + 1 := by
  unfold blockCount; omega

/-- The entry into the first block: the block count and the padded message agree, and are there unless a read of `NOVAL` is recorded. -/
theorem UnitInv.enter_block {u : UnitId} {x : UnitState u} (hx : UnitInv x) (hph : x.pos.phase = .padding) {nblk : Option Nat}
    {pm : Memory} {rec : Option Store} (hwf : Memory.wf pm)
    (hn : ∀ n, nblk = some n → 1 ≤ n ∧ n ≤ 2 ^ 55 + 1 ∧ Memory.Within pm (64 * n)) (hnone : nblk = none → pm = [])
    (hc : rec = none → x.noValueRead = none ∧ ∃ n, nblk = some n ∧ Memory.Fills pm (64 * n)) :
    UnitInv (({ x with noValueRead := rec, nblk := nblk, pm := pm }).goto .processingBlock 0) := by
  have hb := hx.blank (by rw [hph]; rfl)
  have hl : lengthChecked x.pos := by simp [lengthChecked, hph]
  have herr := hx.err
  rw [hph] at herr
  exact { hx with
    pmWf := hwf
    pos := Nat.zero_le _
    err := herr
    length := fun _ => hx.length hl
    blocks := fun n hs =>
      have ⟨hpos, hle, hin⟩ := hn n hs
      ⟨rfl, hpos, hle, hin, fun _ => hpos⟩
    noBlocks := hnone
    chain := fun hn => nomatch hn
    schedule := fun k hk => by simp [hb.w k] at hk
    working := fun k hk => by simp [hb.v k] at hk
    raw := hb.dig ▸ Memory.within_nil _
    text := hb.hex ▸ Memory.within_nil _
    complete := fun hr => by
      obtain ⟨hr, hfill⟩ := hc hr
      have hcx := hx.complete hr
      exact
        { length := fun _ => hcx.length hl
          blocks := fun _ => hfill
          chain := fun _ => hcx.chain (by rw [hph]; rfl)
          schedule := fun _ k hk => absurd hk (Nat.not_lt_zero _)
          working := fun _ hk => absurd hk (Nat.not_lt_zero _)
          raw := fun hn => nomatch hn
          text := fun hn => nomatch hn } }

theorem padUnit_keeps {u : UnitId} {x y : UnitState u} (hx : UnitInv x) (h : padUnit x = .next y) : UnitInv y := by
  obtain ⟨⟨hph, -⟩, hy⟩ := padUnit_next.mp h
  have hempty : Memory.Within x.pm 0 := (hx.blank (by rw [hph]; rfl)).pm ▸ Memory.within_nil 0
  obtain ⟨n, -, hlt, rfl⟩ | ⟨-, rfl⟩ := hy
  · refine hx.enter_block hph (Memory.putBytes_wf hx.pmWf ..) (fun m hm => ?_) (fun hm => nomatch hm) fun hr => ?_
    · obtain rfl := Option.some.inj hm
      have hin := hempty.putBytes (bs := pmBytes x.msg n) (Nat.zero_le _)
      rw [length_pmBytes] at hin
      exact ⟨(blockCount_bounds hlt).1, (blockCount_bounds hlt).2, hin⟩
    · obtain ⟨hr, hm⟩ := (UnitState.record_eq_none ..).mp hr
      have hfill := hempty.putBytes_fills (Nat.zero_le _) hm
      rw [length_pmBytes] at hfill
      exact ⟨hr, _, rfl, hfill⟩
  · exact hx.enter_block hph .nil (fun n hn => nomatch hn) (fun _ => rfl) fun hr => by simp at hr

/-- A micro-operation that writes one schedule entry, the one its position names (R121, R123, R127). -/
theorem UnitInv.schedule_keeps {u : UnitId} {x : UnitState u} (hx : UnitInv x) (hph : x.pos.phase = .processingBlock)
    (hst : x.pos.step < Config.nw u) (k : Store) (o : Option Word) : UnitInv (x.schedule x.pos.step k o) := by
  refine hx.advance_block (w := x.w.put x.pos.step o) hph (by omega) (fun i hi => ?_) (fun i hi => ?_) fun hr => ?_
  · rw [Cells.put_get] at hi
    split at hi
    next heq => omega
    next => exact Nat.lt_succ_of_lt (hx.schedule i hi).2
  · exact Nat.lt_succ_of_lt (hx.working i hi).2
  · obtain ⟨hr, ho⟩ := (x.record_eq_none k o.isNone).mp hr
    have hc := hx.complete hr
    refine ⟨hr, hc.chain (by rw [hph]; rfl), fun i hi => ?_, fun hlt => by omega⟩
    rw [Cells.put_get]
    split
    next => simpa using ho
    next hne => exact hc.schedule hph i (by omega)

theorem wloadUnit_keeps {u : UnitId} {j : Nat} {x y : UnitState u} (hx : UnitInv x) (h : wloadUnit j x = .next y) : UnitInv y := by
  obtain ⟨hj, ⟨hph, rfl⟩, rfl⟩ := wloadUnit_next.mp h
  exact hx.schedule_keeps hph (Nat.lt_of_le_of_lt hj (by have := sixteen_lt_nw u; omega)) _ _

theorem wexpS1_keeps {i : Nat} {x y : UnitState .s1} (hx : UnitInv x) (h : wexpS1 i x = .next y) : UnitInv y := by
  obtain ⟨⟨-, hi⟩, ⟨hph, rfl⟩, rfl⟩ := wexpS1_next.mp h
  exact hx.schedule_keeps hph (Nat.lt_succ_of_le hi) _ _

theorem wexpS256_keeps {i : Nat} {x y : UnitState .s256} (hx : UnitInv x) (h : wexpS256 i x = .next y) : UnitInv y := by
  obtain ⟨⟨-, hi⟩, ⟨hph, rfl⟩, rfl⟩ := wexpS256_next.mp h
  exact hx.schedule_keeps hph (Nat.lt_succ_of_le hi) _ _

theorem loadvUnit_keeps {u : UnitId} {x y : UnitState u} (hx : UnitInv x) (h : loadvUnit x = .next y) : UnitInv y := by
  obtain ⟨⟨hph, hst⟩, rfl⟩ := loadvUnit_next.mp h
  refine hx.advance_block (v := x.h) hph (by omega) (fun k _ => by omega) (fun k _ => by omega) fun hr => ?_
  obtain ⟨hr, hm⟩ := (x.record_eq_none .h x.h.missing).mp hr
  have hh := Cells.missing_eq_false.mp hm
  exact ⟨hr, hh, fun k _ => (hx.complete hr).schedule hph k (by omega), fun _ => hh⟩

theorem roundUnit_keeps {u : UnitId} {t : Nat} {x y : UnitState u} (hx : UnitInv x) (h : roundUnit t x = .next y) : UnitInv y := by
  obtain ⟨ht, ⟨hph, hst⟩, rfl⟩ := roundUnit_next.mp h
  refine hx.advance_block (v := roundCells u t (x.w.at t) x.v) hph (by omega) (fun k _ => by omega) (fun k _ => by omega) fun hr => ?_
  obtain ⟨hr, hw⟩ := (UnitState.record_eq_none ..).mp hr
  obtain ⟨hr, hv⟩ := (UnitState.record_eq_none ..).mp hr
  have hc := hx.complete hr
  exact ⟨hr, hc.chain (by rw [hph]; rfl), fun k _ => hc.schedule hph k (by omega),
    fun _ => roundCells_isSome (by simpa using hw) (Cells.missing_eq_false.mp hv)⟩

theorem addhUnit_keeps {u : UnitId} {x y : UnitState u} (hx : UnitInv x) (h : addhUnit x = .next y) : UnitInv y := by
  obtain ⟨⟨hph, hst⟩, rfl⟩ := addhUnit_next.mp h
  refine hx.advance_block (h := Vector.ofFn fun k => addCell (x.h.get k) (x.v.get k)) hph (by omega) (fun k _ => by omega)
    (fun k _ => by omega) fun hr => ?_
  obtain ⟨hr, hv⟩ := (UnitState.record_eq_none ..).mp hr
  obtain ⟨hr, hh⟩ := (UnitState.record_eq_none ..).mp hr
  have hv := Cells.missing_eq_false.mp hv
  exact ⟨hr, fun k => by simpa [addCell_isSome] using ⟨Cells.missing_eq_false.mp hh k, hv k⟩,
    fun k _ => (hx.complete hr).schedule hph k (by omega), fun _ => hv⟩

/-- The end of a block: the registers it used hold no value any more, and the position is the beginning of the next block, or of the
finalizer (R192). -/
theorem UnitInv.leave_block {u : UnitId} {x : UnitState u} (hx : UnitInv x) (hph : x.pos.phase = .processingBlock) {ph : Phase}
    {blk : Nat} (hto : (ph = .processingBlock ∧ ∀ n, x.nblk = some n → blk < n) ∨ (ph = .finalizing ∧ blk = 0)) :
    UnitInv (({ x with w := Cells.noval _, v := Cells.noval _ }).goto ph blk) := by
  have hl : lengthChecked x.pos := by simp [lengthChecked, hph]
  have herr := hx.err
  rw [hph] at herr
  have hraw : hasRaw x.pos = false := by simp [hasRaw, hph]
  obtain ⟨hread, hchain, hpos, herr', hraw', htext, hblk⟩ : nblkReadable ph = true ∧ hasChain ph = true ∧ legalPos u ⟨ph, blk, 0⟩ ∧
      legalErr ph x.err ∧ hasRaw ⟨ph, blk, 0⟩ = false ∧ ph ≠ .finalized ∧
      (ph = .processingBlock → ∀ n, x.nblk = some n → blk < n) := by
    obtain ⟨rfl, hblk⟩ | ⟨rfl, rfl⟩ := hto
    · exact ⟨rfl, rfl, Nat.zero_le _, herr, rfl, nofun, fun _ => hblk⟩
    · exact ⟨rfl, rfl, ⟨rfl, Nat.zero_le _⟩, herr, rfl, nofun, nofun⟩
  exact { hx with
    pos := hpos
    err := herr'
    length := fun _ => hx.length hl
    blocks := fun n hn =>
      have ⟨_, hone, hle, hin, _⟩ := hx.blocks n hn
      ⟨hread, hone, hle, hin, fun hp => hblk hp n hn⟩
    chain := fun hn => by simp [hchain] at hn
    schedule := fun k hk => by simp at hk
    working := fun k hk => by simp at hk
    raw := by simpa [hraw, hraw'] using hx.raw
    text := by simpa [hph, htext] using hx.text
    complete := fun hr => by
      have hcx := hx.complete hr
      exact
        { length := fun _ => hcx.length hl
          blocks := fun _ => hcx.blocks (by rw [hph]; rfl)
          chain := fun _ => hcx.chain (by rw [hph]; rfl)
          schedule := fun _ k hk => absurd hk (Nat.not_lt_zero _)
          working := fun _ hk => absurd hk (Nat.not_lt_zero _)
          raw := fun hn => by simp [hraw'] at hn
          text := fun hn => absurd hn htext } }

theorem nextblkUnit_keeps {u : UnitId} {x y : UnitState u} (hx : UnitInv x) (h : nextblkUnit x = .next y) : UnitInv y := by
  obtain ⟨⟨hph, -⟩, hy⟩ := nextblkUnit_next.mp h
  have hfree := (hx.record .nblk true).drawn
  obtain ⟨n, hn, ⟨hlt, rfl⟩ | ⟨-, rfl⟩⟩ | ⟨hn, ⟨-, rfl⟩ | ⟨-, rfl⟩⟩ := hy
  · refine hx.leave_block hph (.inl ⟨rfl, fun m hm => ?_⟩)
    obtain rfl : n = m := Option.some.inj (hn ▸ hm)
    exact hlt
  · exact hx.leave_block hph (.inr ⟨rfl, rfl⟩)
  · exact hfree.leave_block hph (.inl ⟨rfl, fun m hm => by simp [hn] at hm⟩)
  · exact hfree.leave_block hph (.inr ⟨rfl, rfl⟩)

theorem serializeUnit_keeps {u : UnitId} {x y : UnitState u} (hx : UnitInv x) (h : serializeUnit x = .next y) : UnitInv y := by
  obtain ⟨⟨hph, hst⟩, rfl⟩ := serializeUnit_next.mp h
  have hempty : Memory.Within x.dig 0 := by simpa [hasRaw, hph, hst] using hx.raw
  have hlen : (cellBytes x.h).length = Config.db u := by rw [length_cellBytes, db_eq_four_mul_ns]
  have hraw : hasRaw { x.pos with step := x.pos.step + 1 } = true := by simp [hasRaw, hph, hst]
  have hblock : x.pos.phase ≠ .processingBlock := by simp [hph]
  have hpos := hx.pos
  simp only [legalPos, hph] at hpos
  exact { hx with
    digWf := Memory.putBytes_wf hx.digWf ..
    pos := by simp only [UnitState.advance_pos, UnitState.record_pos, legalPos, hph]; omega
    length := fun _ => hx.length (by simp [lengthChecked, hph])
    schedule := fun k hk => absurd (hx.schedule k hk).1 hblock
    working := fun k hk => absurd (hx.working k hk).1 hblock
    raw := by simpa [hraw, hlen] using hempty.putBytes (bs := cellBytes x.h) (Nat.zero_le _)
    complete := fun hr => by
      obtain ⟨hr, hm⟩ := (UnitState.record_eq_none ..).mp hr
      have hcx := hx.complete hr
      have hfill := hempty.putBytes_fills (Nat.zero_le _) (missingByte_cellBytes (Cells.missing_eq_false.mp hm))
      exact { hcx with
        length := fun _ => hcx.length (by simp [lengthChecked, hph])
        schedule := fun hn => absurd hn hblock
        working := fun hn => absurd hn hblock
        raw := fun _ => hlen ▸ hfill } }

theorem hexencUnit_keeps {u : UnitId} {x y : UnitState u} (hx : UnitInv x) (h : hexencUnit x = .next y) : UnitInv y := by
  obtain ⟨⟨hph, hst⟩, rfl⟩ := hexencUnit_next.mp h
  have hempty : Memory.Within x.hex 0 := by simpa [hph] using hx.text
  have hlen : (hexCells (Memory.readBytes x.dig 0 (Config.db u))).length = Config.hx u := by
    rw [length_hexCells, Memory.length_readBytes, hx_eq_two_mul_db]
  have hraw : hasRaw x.pos = true := by simp [hasRaw, hph, hst]
  have hread : nblkReadable x.pos.phase = true := by rw [hph]; rfl
  have hblock : x.pos.phase ≠ .processingBlock := by simp [hph]
  have herr := hx.err
  rw [hph] at herr
  exact { hx with
    hexWf := Memory.putBytes_wf hx.hexWf ..
    pos := ⟨rfl, rfl⟩
    err := .inl herr
    length := False.elim
    blocks := fun n hn =>
      have ⟨_, hone, hle, hin, _⟩ := hx.blocks n hn
      ⟨rfl, hone, hle, hin, nofun⟩
    chain := nofun
    schedule := fun k hk => absurd (hx.schedule k hk).1 hblock
    working := fun k hk => absurd (hx.working k hk).1 hblock
    raw := by simpa [hasRaw, hph, hst] using hx.raw
    text := by simpa [hlen] using hempty.putBytes (bs := hexCells (Memory.readBytes x.dig 0 (Config.db u))) (Nat.zero_le _)
    complete := fun hr => by
      obtain ⟨hr, hm⟩ := (UnitState.record_eq_none ..).mp hr
      have hcx := hx.complete hr
      have hfill := hempty.putBytes_fills (Nat.zero_le _) (missingByte_hexCells hm)
      exact
        { length := False.elim
          blocks := fun _ => hcx.blocks hread
          chain := fun _ => hcx.chain (by rw [hph]; rfl)
          schedule := nofun
          working := nofun
          raw := fun _ => hcx.raw hraw
          text := fun _ => hlen ▸ hfill } }

/-- Every operation keeps the invariant of its unit. -/
theorem meaning_keeps (i : Instr) {x y : UnitState i.unit} (hx : UnitInv x) (h : meaning i x = .next y) : UnitInv y := by
  cases i with
  | sha1Start | sha256Start => exact startUnit_keeps hx h
  | sha1Checklen | sha256Checklen => exact checklenUnit_keeps hx h
  | sha1Init | sha256Init => exact initUnit_keeps hx h
  | sha1Pad | sha256Pad => exact padUnit_keeps hx h
  | sha1Wload j | sha256Wload j => exact wloadUnit_keeps hx h
  | sha1Wexp i => exact wexpS1_keeps hx h
  | sha256Wexp i => exact wexpS256_keeps hx h
  | sha1Loadv | sha256Loadv => exact loadvUnit_keeps hx h
  | sha1Round t | sha256Round t => exact roundUnit_keeps hx h
  | sha1Addh | sha256Addh => exact addhUnit_keeps hx h
  | sha1Nextblk | sha256Nextblk => exact nextblkUnit_keeps hx h
  | sha1Serialize | sha256Serialize => exact serializeUnit_keeps hx h
  | sha1Hexenc | sha256Hexenc => exact hexencUnit_keeps hx h

/-! ### Every move keeps the invariant -/

/-- Two units that meet the invariant: one of them put back leaves it so (R20). -/
theorem Inv.setUnit {s : State} (hs : Inv s) {u : UnitId} {x : UnitState u} (hx : UnitInv x) : Inv (s.setUnit u x) := by
  intro v
  by_cases hv : v = u
  · subst hv
    rwa [State.unit_setUnit]
  · rw [State.unit_setUnit_of_ne s hv]
    exact hs v

theorem Inv.withSched {s : State} (hs : Inv s) (l : List Move) : Inv { s with sched := l } := fun u => by
  rw [State.unit_withSched]
  exact hs u

theorem Inv.exec {i : Instr} {s t : State} (hs : Inv s) (h : exec i s = .next t) : Inv t := by
  rw [exec_eq_onUnit, onUnit_next] at h
  obtain ⟨y, hy, rfl⟩ := h
  exact hs.setUnit (meaning_keeps i (hs i.unit) hy)

theorem UnitInv.writeMsg {u : UnitId} {x : UnitState u} (hx : UnitInv x) {j : Nat} (hj : j ≤ Config.maxMsgAddr) (b : Byte) :
    UnitInv { x with msg := Memory.write x.msg j b } :=
  { hx with
    msgWf := Memory.write_wf hx.msgWf j b
    msgBound := fun a ha => by
      rw [Memory.read_write] at ha
      split at ha
      next heq => exact heq ▸ Nat.lt_succ_of_le hj
      next => exact hx.msgBound a ha
    complete := fun hr => { hx.complete hr with } }

/-- In a ready phase the length is the host's to write: no `CHECKLEN` has passed it (R71, R188). -/
theorem UnitInv.writeMlen {u : UnitId} {x : UnitState u} (hx : UnitInv x) (hb : busy x.pos.phase = false) (n : Nat) :
    UnitInv { x with mlen := some n } := by
  have hl : ¬ lengthChecked x.pos := by
    unfold lengthChecked
    cases hph : x.pos.phase <;> simp_all [busy]
  exact { hx with
    length := fun hn => absurd hn hl
    complete := fun hr => { hx.complete hr with length := fun hn => absurd hn hl } }

/-- Every ready phase can show `IllegalCommand` (R228). -/
theorem UnitInv.illegalCommand {u : UnitId} {x : UnitState u} (hx : UnitInv x) (hb : busy x.pos.phase = false) :
    UnitInv { x with err := errIllegalCommand } := by
  have herr : legalErr x.pos.phase errIllegalCommand := by
    cases hph : x.pos.phase <;> simp_all [busy, legalErr]
  exact { hx with err := herr, complete := fun hr => { hx.complete hr with } }

/-- A write that takes effect in a ready phase (R71). -/
theorem Inv.writeEffect {u : UnitId} {w : HostWrite} {s t : State} (hs : Inv s) (hb : busy (s.unit u).pos.phase = false)
    (h : writeEffect u w s = .next t) : Inv t := by
  have hx := hs u
  obtain ⟨j, b, -, hj, rfl⟩ | ⟨n, -, rfl⟩ | ⟨c, -, hcmd⟩ | rfl := writeEffect_next h
  · exact hs.setUnit ((hx.writeMsg hj b).answer .accepted)
  · exact hs.setUnit ((hx.writeMlen hb n).answer .accepted)
  · obtain ⟨-, hexec⟩ | ⟨-, rfl⟩ := command_next hcmd
    · exact (hs.setUnit (hx.answer .accepted)).exec hexec
    · exact hs.setUnit ((hx.illegalCommand hb).answer .refused)
  · exact hs.setUnit (hx.answer .refused)

theorem Inv.hostWrite {u : UnitId} {w : HostWrite} {s t : State} (hs : Inv s) (h : hostWrite u w s = .next t) : Inv t := by
  cases hb : busy (s.unit u).pos.phase with
  | false =>
    simp only [Machine.hostWrite, hb] at h
    exact hs.writeEffect hb h
  | true =>
    simp only [Machine.hostWrite, hb, if_true] at h
    split at h
    next hw =>
      obtain rfl := next_eq.mp h
      refine hs.setUnit ((hs u).with_port (fun w' hw' => ?_) id)
      obtain rfl := Option.some.inj hw'
      exact hw
    next =>
      obtain rfl := next_eq.mp h
      exact hs.setUnit ((hs u).answer .refused)

theorem UnitInv.hostRead {u : UnitId} {x : UnitState u} (hx : UnitInv x) (r : HostRead) : UnitInv (hostRead r x) := by
  obtain ⟨a, -, heq⟩ | ⟨what, heq⟩ := hostRead_cases r x
  · exact heq ▸ hx.answer a
  · exact heq ▸ (hx.record what true).answer .noValue

theorem Inv.hostMove {u : UnitId} {s t : State} (hs : Inv s) (h : hostMove u s = .next t) : Inv t := by
  obtain ⟨op, rest, -, h⟩ := hostMove_next h
  have hs' := hs.setUnit (x := { s.unit u with inbox := rest }) ((hs u).with_port (hs u).heldOk id)
  cases op with
  | write w => exact hs'.hostWrite h
  | read r =>
    obtain rfl := next_eq.mp h
    exact hs'.setUnit ((hs' u).hostRead r)

theorem Inv.unitMove {u : UnitId} {s t : State} (hs : Inv s) (h : unitMove u s = .next t) : Inv t := by
  cases hb : busy (s.unit u).pos.phase with
  | true =>
    obtain ⟨w, i, -, -, hexec⟩ := unitMove_busy hb h
    exact hs.exec hexec
  | false =>
    obtain ⟨w, -, hw⟩ := unitMove_ready hb h
    refine Inv.writeEffect (hs.setUnit ((hs u).with_port (held := none) nofun id)) ?_ hw
    rwa [State.unit_setUnit]

/-- Reset meets the invariant from any state (R250). -/
theorem inv_resetMove (s : State) : Inv (resetMove s) := fun u => by
  rw [resetMove_unit]
  exact (UnitInv.reset u).with_port nofun id

theorem Inv.perform {m : Move} {s t : State} (hs : Inv s) (h : perform m s = .next t) : Inv t := by
  cases m with
  | unit u => exact hs.unitMove h
  | host u => exact hs.hostMove h
  | reset => exact next_eq.mp h ▸ inv_resetMove s

/-- Settles O49: a unit after reset is blank and at a legal position. -/
theorem resetMeetsTheInvariant : Obligations.ResetMeetsTheInvariant := fun u => by
  cases u <;> exact UnitInv.reset _

/-- Settles O50: a step is a move, and every move keeps the invariant of both units. -/
theorem everyStepKeepsTheInvariant : Obligations.EveryStepKeepsTheInvariant := by
  intro s t hs h
  obtain ⟨m, -, -, hm⟩ := step_next h
  exact (hs.withSched s.sched.tail).perform hm

end Sys2Proof.Machine
end

section
/-! PROOFS. A unit at a position of the microprogram has the step the microprogram gives it (spec/44_sequencer.md R200, R201), and a unit
that meets the invariant reads `NOVAL` in it only where its host forgot a value (spec/10_state.md R39). -/

namespace Sys2Proof.Machine

/-! ### The operation at a position -/

/-- Decoding the word of a well-formed operation gives the operation (R81, R84, R87). -/
theorem decode_encode {i : Instr} (h : WellFormed i = true) : decode (encode i) = .op i := by
  cases i with
  | sha1Start => exact Laws.RoundTrip.sha1Start h
  | sha1Checklen => exact Laws.RoundTrip.sha1Checklen h
  | sha1Init => exact Laws.RoundTrip.sha1Init h
  | sha1Pad => exact Laws.RoundTrip.sha1Pad h
  | sha1Wload j => exact Laws.RoundTrip.sha1Wload j h
  | sha1Wexp i => exact Laws.RoundTrip.sha1Wexp i h
  | sha1Loadv => exact Laws.RoundTrip.sha1Loadv h
  | sha1Round t => exact Laws.RoundTrip.sha1Round t h
  | sha1Addh => exact Laws.RoundTrip.sha1Addh h
  | sha1Nextblk => exact Laws.RoundTrip.sha1Nextblk h
  | sha1Serialize => exact Laws.RoundTrip.sha1Serialize h
  | sha1Hexenc => exact Laws.RoundTrip.sha1Hexenc h
  | sha256Start => exact Laws.RoundTrip.sha256Start h
  | sha256Checklen => exact Laws.RoundTrip.sha256Checklen h
  | sha256Init => exact Laws.RoundTrip.sha256Init h
  | sha256Pad => exact Laws.RoundTrip.sha256Pad h
  | sha256Wload j => exact Laws.RoundTrip.sha256Wload j h
  | sha256Wexp i => exact Laws.RoundTrip.sha256Wexp i h
  | sha256Loadv => exact Laws.RoundTrip.sha256Loadv h
  | sha256Round t => exact Laws.RoundTrip.sha256Round t h
  | sha256Addh => exact Laws.RoundTrip.sha256Addh h
  | sha256Nextblk => exact Laws.RoundTrip.sha256Nextblk h
  | sha256Serialize => exact Laws.RoundTrip.sha256Serialize h
  | sha256Hexenc => exact Laws.RoundTrip.sha256Hexenc h

/-- The word of an operation as the microprogram writes it: the unit's `A` and the `op` and `idx` fields (R81, R200). -/
theorem encode_eq_algBase_add (i : Instr) : encode i = BitVec.ofNat 16 (algBase i.unit + ((opIdx i).1 * 2 ^ 8 + (opIdx i).2)) := by
  rw [encode, algBase, Nat.add_assoc]

theorem uop_wload (u : UnitId) {j : Nat} (hj : j ≤ 15) :
    uop u .processingBlock j = some (BitVec.ofNat 16 (algBase u + (0x5 * 2 ^ 8 + j))) := by
  simp only [uop, hj, if_true, Nat.reducePow, Nat.reduceMul]

theorem uop_wexp (u : UnitId) {k : Nat} (hk : 16 ≤ k ∧ k ≤ Config.nw u - 1) :
    uop u .processingBlock k = some (BitVec.ofNat 16 (algBase u + (0x6 * 2 ^ 8 + k))) := by
  have hload : ¬ k ≤ 15 := by omega
  simp only [uop, hload, hk.2, if_true, if_false, Nat.reducePow, Nat.reduceMul]

theorem uop_round (u : UnitId) {t : Nat} (ht : t < Config.nr u) :
    uop u .processingBlock (Config.nw u + 1 + t) = some (BitVec.ofNat 16 (algBase u + (0x8 * 2 ^ 8 + t))) := by
  have hnw := sixteen_lt_nw u
  have hload : ¬ Config.nw u + 1 + t ≤ 15 := by omega
  have hexp : ¬ Config.nw u + 1 + t ≤ Config.nw u - 1 := by omega
  have hcopy : ¬ Config.nw u + 1 + t = Config.nw u := by omega
  have hround : Config.nw u + 1 + t ≤ Config.nw u + Config.nr u := by omega
  simp only [uop, hload, hexp, hcopy, hround, if_true, if_false, Nat.add_sub_cancel_left, Nat.reducePow, Nat.reduceMul]

/-- At the position of a well-formed operation the microprogram gives its word (R200). -/
theorem uop_positionOf {i : Instr} {ph : Phase} {st : Nat} (hw : WellFormed i = true) (hp : positionOf i = some (ph, st)) :
    uop i.unit ph st = some (encode i) := by
  rw [encode_eq_algBase_add]
  cases i with
  | sha1Start | sha256Start => nomatch hp
  | sha1Checklen | sha1Init | sha1Pad | sha1Loadv | sha1Addh | sha1Nextblk | sha1Serialize | sha1Hexenc | sha256Checklen
  | sha256Init | sha256Pad | sha256Loadv | sha256Addh | sha256Nextblk | sha256Serialize | sha256Hexenc => cases hp; rfl
  | sha1Wload j | sha256Wload j => cases hp; exact uop_wload _ (of_decide_eq_true hw)
  | sha1Wexp k | sha256Wexp k => cases hp; exact uop_wexp _ (of_decide_eq_true hw)
  | sha1Round t | sha256Round t => cases hp; exact uop_round _ (Nat.lt_succ_of_le (of_decide_eq_true hw))

/-- The six parts of a block's microprogram (R191): a legal step of it stands in one of them. -/
theorem block_step_cases {u : UnitId} {st : Nat} (h : st ≤ Config.nw u + Config.nr u + 2) :
    st ≤ 15 ∨ (16 ≤ st ∧ st ≤ Config.nw u - 1) ∨ st = Config.nw u ∨ (∃ t, t ≤ Config.nr u - 1 ∧ st = Config.nw u + 1 + t) ∨
      st = Config.nw u + 1 + Config.nr u ∨ st = Config.nw u + Config.nr u + 2 := by
  have hnw := sixteen_lt_nw u
  by_cases hround : Config.nw u < st ∧ st ≤ Config.nw u + Config.nr u
  · exact .inr (.inr (.inr (.inl ⟨st - (Config.nw u + 1), by omega, by omega⟩)))
  · omega

/-- Every step of a block is an operation's (R200). -/
theorem exists_positionOf_block {u : UnitId} {st : Nat} (h : st ≤ Config.nw u + Config.nr u + 2) :
    ∃ i : Instr, i.unit = u ∧ WellFormed i = true ∧ positionOf i = some (.processingBlock, st) := by
  obtain hj | hk | rfl | ⟨t, ht, rfl⟩ | rfl | rfl := block_step_cases h <;> cases u
  · exact ⟨.sha1Wload st, rfl, decide_eq_true hj, rfl⟩
  · exact ⟨.sha256Wload st, rfl, decide_eq_true hj, rfl⟩
  · exact ⟨.sha1Wexp st, rfl, decide_eq_true hk, rfl⟩
  · exact ⟨.sha256Wexp st, rfl, decide_eq_true hk, rfl⟩
  · exact ⟨.sha1Loadv, rfl, rfl, rfl⟩
  · exact ⟨.sha256Loadv, rfl, rfl, rfl⟩
  · exact ⟨.sha1Round t, rfl, decide_eq_true ht, rfl⟩
  · exact ⟨.sha256Round t, rfl, decide_eq_true ht, rfl⟩
  · exact ⟨.sha1Addh, rfl, rfl, rfl⟩
  · exact ⟨.sha256Addh, rfl, rfl, rfl⟩
  · exact ⟨.sha1Nextblk, rfl, rfl, rfl⟩
  · exact ⟨.sha256Nextblk, rfl, rfl, rfl⟩

/-- Every busy position of R191 is an operation's (R200). -/
theorem exists_positionOf {u : UnitId} {p : Pos} (hp : legalPos u p) (hb : busy p.phase = true) :
    ∃ i : Instr, i.unit = u ∧ WellFormed i = true ∧ positionOf i = some (p.phase, p.step) := by
  obtain ⟨ph, blk, st⟩ := p
  cases ph with
  | idle | finalized | failed => nomatch hb
  | start =>
    obtain rfl | rfl : st = 0 ∨ st = 1 := Nat.le_one_iff_eq_zero_or_eq_one.mp hp.2
    · cases u
      · exact ⟨.sha1Checklen, rfl, rfl, rfl⟩
      · exact ⟨.sha256Checklen, rfl, rfl, rfl⟩
    · cases u
      · exact ⟨.sha1Init, rfl, rfl, rfl⟩
      · exact ⟨.sha256Init, rfl, rfl, rfl⟩
  | padding =>
    obtain ⟨-, rfl⟩ := hp
    cases u
    · exact ⟨.sha1Pad, rfl, rfl, rfl⟩
    · exact ⟨.sha256Pad, rfl, rfl, rfl⟩
  | processingBlock => exact exists_positionOf_block hp
  | finalizing =>
    obtain rfl | rfl : st = 0 ∨ st = 1 := Nat.le_one_iff_eq_zero_or_eq_one.mp hp.2
    · cases u
      · exact ⟨.sha1Serialize, rfl, rfl, rfl⟩
      · exact ⟨.sha256Serialize, rfl, rfl, rfl⟩
    · cases u
      · exact ⟨.sha1Hexenc, rfl, rfl, rfl⟩
      · exact ⟨.sha256Hexenc, rfl, rfl, rfl⟩

/-- A unit at the position of a well-formed operation executes it (R201). -/
theorem sequencerStep_eq_exec {i : Instr} {s : State} (hw : WellFormed i = true)
    (hp : positionOf i = some ((s.unit i.unit).pos.phase, (s.unit i.unit).pos.step)) : sequencerStep i.unit s = exec i s := by
  simp only [sequencerStep, uop_positionOf hw hp, execWord, decode_encode hw]

/-! ### Each micro-operation has its next state -/

/-- What the host of a unit is asked for at its position (R252): the length before `CHECKLEN`, the length and the message before `PAD`. -/
def HostDuty {u : UnitId} (x : UnitState u) : Prop :=
  (x.pos = ⟨.start, 0, 0⟩ → x.mlen ≠ none) ∧ (x.pos.phase = .padding → HostReady x)

/-- A micro-operation gives a next state, and records nothing if the host did its duty (R39, R252). -/
def Completes {u : UnitId} (f : UnitState u → UnitOutcome u) (x : UnitState u) : Prop :=
  ∃ y, f x = .next y ∧ (HostDuty x → x.noValueRead = none → y.noValueRead = none)

theorem checklenUnit_completes {u : UnitId} {x : UnitState u} (hx : UnitInv x) (hph : x.pos.phase = .start) (hst : x.pos.step = 0) :
    Completes checklenUnit x := by
  have hpos := hx.pos
  simp only [legalPos, hph] at hpos
  refine ⟨_, if_pos ⟨hph, hst⟩, fun hd hr => ?_⟩
  have hat : x.pos = ⟨.start, 0, 0⟩ := by
    show (⟨x.pos.phase, x.pos.blk, x.pos.step⟩ : Pos) = _
    rw [hph, hpos.1, hst]
  obtain ⟨n, hn⟩ := Option.ne_none_iff_exists'.mp (hd.1 hat)
  simp only [hn]
  split <;> exact hr

theorem initUnit_completes {u : UnitId} {x : UnitState u} (hph : x.pos.phase = .start) (hst : x.pos.step = 1) :
    Completes initUnit x :=
  ⟨_, if_pos ⟨hph, hst⟩, fun _ hr => hr⟩

theorem padUnit_completes {u : UnitId} {x : UnitState u} (hx : UnitInv x) (hph : x.pos.phase = .padding) (hst : x.pos.step = 0) :
    Completes padUnit x := by
  cases hm : x.mlen with
  | none =>
    refine ⟨_, padUnit_next.mpr ⟨⟨hph, hst⟩, .inr ⟨hm, rfl⟩⟩, fun hd _ => ?_⟩
    obtain ⟨n, hn, -⟩ := hd.2 hph
    simp [hm] at hn
  | some n =>
    have hl := hx.length (by simp [lengthChecked, hph]) n hm
    refine ⟨_, padUnit_next.mpr ⟨⟨hph, hst⟩, .inl ⟨n, hm, hl, rfl⟩⟩, fun hd hr => ?_⟩
    obtain ⟨n', hn, hmsg⟩ := hd.2 hph
    obtain rfl : n = n' := Option.some.inj (hm ▸ hn)
    exact (UnitState.record_eq_none ..).mpr ⟨hr, missingByte_pmBytes.mpr hmsg⟩

theorem wloadUnit_completes {u : UnitId} {j : Nat} {x : UnitState u} (hx : UnitInv x) (hj : j ≤ 15)
    (hph : x.pos.phase = .processingBlock) (hst : x.pos.step = j) : Completes (wloadUnit j) x := by
  refine ⟨_, wloadUnit_next.mpr ⟨hj, ⟨hph, hst⟩, rfl⟩, fun _ hr => (UnitState.record_eq_none ..).mpr ⟨hr, ?_⟩⟩
  obtain ⟨n, hn, hfill⟩ := (hx.complete hr).blocks (by rw [hph]; rfl)
  obtain ⟨-, -, -, -, hblk⟩ := hx.blocks n hn
  have hlt := hblk hph
  rw [Option.isNone_eq_false_iff, Memory.readWord_isSome]
  exact fun k hk => (hfill _).mpr (by omega)

/-- The schedule entries below the step are there unless a read of `NOVAL` is recorded (R23). -/
theorem UnitInv.at_isSome {u : UnitId} {x : UnitState u} (hx : UnitInv x) (hr : x.noValueRead = none)
    (hph : x.pos.phase = .processingBlock) {k : Nat} (hk : k < x.pos.step) (hn : k < Config.nw u) : (x.w.at k).isSome = true := by
  rw [Cells.at_of_lt _ hn]
  exact (hx.complete hr).schedule hph ⟨k, hn⟩ hk

theorem wexpS1_completes {i : Nat} {x : UnitState .s1} (hx : UnitInv x) (hi : 16 ≤ i ∧ i ≤ 79)
    (hph : x.pos.phase = .processingBlock) (hst : x.pos.step = i) : Completes (wexpS1 i) x := by
  refine ⟨_, wexpS1_next.mpr ⟨hi, ⟨hph, hst⟩, rfl⟩, fun _ hr => (UnitState.record_eq_none ..).mpr ⟨hr, ?_⟩⟩
  have hat (d : Nat) (h1 : 1 ≤ d) : (x.w.at (i - d)).isSome = true :=
    hx.at_isSome hr hph (by omega) (show i - d < 80 by omega)
  rw [Option.isNone_eq_false_iff, fromFour_isSome]
  exact ⟨hat 3 (by omega), hat 8 (by omega), hat 14 (by omega), hat 16 (by omega)⟩

theorem wexpS256_completes {i : Nat} {x : UnitState .s256} (hx : UnitInv x) (hi : 16 ≤ i ∧ i ≤ 63)
    (hph : x.pos.phase = .processingBlock) (hst : x.pos.step = i) : Completes (wexpS256 i) x := by
  refine ⟨_, wexpS256_next.mpr ⟨hi, ⟨hph, hst⟩, rfl⟩, fun _ hr => (UnitState.record_eq_none ..).mpr ⟨hr, ?_⟩⟩
  have hat (d : Nat) (h1 : 1 ≤ d) : (x.w.at (i - d)).isSome = true :=
    hx.at_isSome hr hph (by omega) (show i - d < 64 by omega)
  rw [Option.isNone_eq_false_iff, fromFour_isSome]
  exact ⟨hat 16 (by omega), hat 15 (by omega), hat 7 (by omega), hat 2 (by omega)⟩

theorem loadvUnit_completes {u : UnitId} {x : UnitState u} (hx : UnitInv x) (hph : x.pos.phase = .processingBlock)
    (hst : x.pos.step = Config.nw u) : Completes loadvUnit x :=
  ⟨_, loadvUnit_next.mpr ⟨⟨hph, hst⟩, rfl⟩, fun _ hr => (UnitState.record_eq_none ..).mpr
    ⟨hr, Cells.missing_eq_false.mpr ((hx.complete hr).chain (by rw [hph]; rfl))⟩⟩

theorem roundUnit_completes {u : UnitId} {t : Nat} {x : UnitState u} (hx : UnitInv x) (ht : t < Config.nr u)
    (hph : x.pos.phase = .processingBlock) (hst : x.pos.step = Config.nw u + 1 + t) : Completes (roundUnit t) x := by
  refine ⟨_, roundUnit_next.mpr ⟨ht, ⟨hph, hst⟩, rfl⟩, fun _ hr => ?_⟩
  have hv := (hx.complete hr).working hph (by omega)
  have hw : (x.w.at t).isSome = true := hx.at_isSome hr hph (by omega) (by cases u <;> exact ht)
  exact (UnitState.record_eq_none ..).mpr ⟨(UnitState.record_eq_none ..).mpr ⟨hr, Cells.missing_eq_false.mpr hv⟩,
    Option.isNone_eq_false_iff.mpr hw⟩

theorem addhUnit_completes {u : UnitId} {x : UnitState u} (hx : UnitInv x) (hph : x.pos.phase = .processingBlock)
    (hst : x.pos.step = Config.nw u + 1 + Config.nr u) : Completes addhUnit x := by
  refine ⟨_, addhUnit_next.mpr ⟨⟨hph, hst⟩, rfl⟩, fun _ hr => ?_⟩
  have hv := (hx.complete hr).working hph (by omega)
  have hh := (hx.complete hr).chain (by rw [hph]; rfl)
  exact (UnitState.record_eq_none ..).mpr ⟨(UnitState.record_eq_none ..).mpr ⟨hr, Cells.missing_eq_false.mpr hh⟩,
    Cells.missing_eq_false.mpr hv⟩

theorem nextblkUnit_completes {u : UnitId} {x : UnitState u} (hx : UnitInv x) (hph : x.pos.phase = .processingBlock)
    (hst : x.pos.step = Config.nw u + Config.nr u + 2) : Completes nextblkUnit x := by
  refine ⟨_, if_pos ⟨hph, hst⟩, fun _ hr => ?_⟩
  obtain ⟨n, hn, -⟩ := (hx.complete hr).blocks (by rw [hph]; rfl)
  simp only [hn]
  split <;> exact hr

theorem serializeUnit_completes {u : UnitId} {x : UnitState u} (hx : UnitInv x) (hph : x.pos.phase = .finalizing)
    (hst : x.pos.step = 0) : Completes serializeUnit x :=
  ⟨_, serializeUnit_next.mpr ⟨⟨hph, hst⟩, rfl⟩, fun _ hr => (UnitState.record_eq_none ..).mpr
    ⟨hr, Cells.missing_eq_false.mpr ((hx.complete hr).chain (by rw [hph]; rfl))⟩⟩

theorem hexencUnit_completes {u : UnitId} {x : UnitState u} (hx : UnitInv x) (hph : x.pos.phase = .finalizing)
    (hst : x.pos.step = 1) : Completes hexencUnit x := by
  refine ⟨_, hexencUnit_next.mpr ⟨⟨hph, hst⟩, rfl⟩, fun _ hr => (UnitState.record_eq_none ..).mpr ⟨hr, ?_⟩⟩
  exact ((hx.complete hr).raw (by simp [hasRaw, hph, hst])).missingByte_readBytes

/-- A well-formed micro-operation at its position completes. -/
theorem meaning_completes {i : Instr} {x : UnitState i.unit} (hx : UnitInv x) (hw : WellFormed i = true)
    (hp : positionOf i = some (x.pos.phase, x.pos.step)) : Completes (meaning i) x := by
  generalize hph : x.pos.phase = ph at hp
  generalize hst : x.pos.step = st at hp
  cases i with
  | sha1Start | sha256Start => nomatch hp
  | sha1Checklen | sha256Checklen => cases hp; exact checklenUnit_completes hx hph hst
  | sha1Init | sha256Init => cases hp; exact initUnit_completes hph hst
  | sha1Pad | sha256Pad => cases hp; exact padUnit_completes hx hph hst
  | sha1Wload j | sha256Wload j => cases hp; exact wloadUnit_completes hx (of_decide_eq_true hw) hph hst
  | sha1Wexp k => cases hp; exact wexpS1_completes hx (of_decide_eq_true hw) hph hst
  | sha256Wexp k => cases hp; exact wexpS256_completes hx (of_decide_eq_true hw) hph hst
  | sha1Loadv | sha256Loadv => cases hp; exact loadvUnit_completes hx hph hst
  | sha1Round t | sha256Round t =>
    cases hp; exact roundUnit_completes hx (Nat.lt_succ_of_le (of_decide_eq_true hw)) hph hst
  | sha1Addh | sha256Addh => cases hp; exact addhUnit_completes hx hph hst
  | sha1Nextblk | sha256Nextblk => cases hp; exact nextblkUnit_completes hx hph hst
  | sha1Serialize | sha256Serialize => cases hp; exact serializeUnit_completes hx hph hst
  | sha1Hexenc | sha256Hexenc => cases hp; exact hexencUnit_completes hx hph hst

/-- A busy unit of a state that meets the invariant has its step, and records nothing in it if the host did its duty (R39, R201). -/
theorem unitMove_busy_completes {u : UnitId} {s : State} (hx : UnitInv (s.unit u)) (hb : busy (s.unit u).pos.phase = true) :
    ∃ t, unitMove u s = .next t ∧
      (HostDuty (s.unit u) → (s.unit u).noValueRead = none → (t.unit u).noValueRead = none) := by
  obtain ⟨i, rfl, hw, hp⟩ := exists_positionOf hx.pos hb
  obtain ⟨y, hy, hr⟩ := meaning_completes hx hw hp
  refine ⟨s.setUnit i.unit y, ?_, by rwa [State.unit_setUnit]⟩
  rw [unitMove, if_pos hb, sequencerStep_eq_exec hw hp, exec_eq_onUnit]
  exact onUnit_next.mpr ⟨y, hy, rfl⟩

/-- Settles O51: the invariant holds the position in the microprogram, and everything its operation reads but what the host writes. -/
theorem busyUnitsNeverStop : Obligations.BusyUnitsNeverStop := by
  intro s u hs hm hb
  obtain ⟨t, ht, hr⟩ := unitMove_busy_completes ((hs.withSched s.sched.tail) u) (by rwa [State.unit_withSched])
  rw [State.unit_withSched] at hr
  exact ⟨t, (step_of_nextMove hm).trans ht, fun hlen hmsg => hr ⟨hlen, hmsg⟩⟩

end Sys2Proof.Machine
end

section
/-! PROOFS. What a micro-operation does where it reads `NOVAL` (spec/10_state.md R39; spec/60_exceptions.md R235 a): the read is recorded,
what is computed from it is `NOVAL`, and every other effect happens. -/

namespace Sys2Proof.Machine

/-! ### Reading the results -/

/-- In a list of pieces of one length, the place of an element follows from its piece and its place there. -/
theorem getElem?_flatMap_of_length {α β : Type} {f : α → List β} {c : Nat} (hf : ∀ a, (f a).length = c) (l : List α) (k : Nat)
    {m : Nat} (hm : m < c) : (l.flatMap f)[c * k + m]? = l[k]?.bind fun a => (f a)[m]? := by
  induction l generalizing k with
  | nil => simp
  | cons a l ih =>
    rw [List.flatMap_cons]
    cases k with
    | zero => simp [List.getElem?_append_left, hf, hm]
    | succ k =>
      have hle : (f a).length ≤ c * (k + 1) + m := by rw [hf, Nat.mul_succ]; omega
      have hsub : c * (k + 1) + m - (f a).length = c * k + m := by rw [hf, Nat.mul_succ]; omega
      rw [List.getElem?_append_right hle, hsub, ih, List.getElem?_cons_succ]

/-- Byte `m` of Word `k` stands at `4*k + m` (R171). -/
theorem getElem?_cellBytes {n : Nat} (h : Cells n) (k : Fin n) (m : Fin 4) :
    (cellBytes h)[4 * k.val + m.val]? = some ((h.get k).map (byteOf m.val)) := by
  have hk : h.toList[k.val]? = some (h.get k) := by simp [Vector.get_eq_getElem]
  rw [cellBytes, getElem?_flatMap_of_length (c := 4) (fun _ => rfl) _ _ m.isLt, hk, Option.bind_some]
  match m with
  | 0 | 1 | 2 | 3 => rfl

/-- The characters of byte `i` stand at `2*i` and `2*i + 1` (R174). -/
theorem getElem?_hexCells {bs : List (Option Byte)} {i : Nat} {o : Option Byte} (h : bs[i]? = some o) :
    (hexCells bs)[2 * i]? = some (o.map fun d => hexchar (d.toNat / 16)) ∧
      (hexCells bs)[2 * i + 1]? = some (o.map fun d => hexchar (d.toNat % 16)) := by
  have hget (m : Nat) (hm : m < 2) := getElem?_flatMap_of_length (c := 2)
    (f := fun o : Option Byte => [o.map fun d => hexchar (d.toNat / 16), o.map fun d => hexchar (d.toNat % 16)])
    (fun _ => rfl) bs i hm
  rw [h] at hget
  exact ⟨hget 0 (by decide), hget 1 (by decide)⟩

/-- `PM_u` after `PAD` with a length (R104): `PMbyte` in the padded message, the old content beyond. -/
theorem read_putBytes_pmBytes (msg pm : Memory) (n a : Nat) :
    Memory.read (Memory.putBytes pm 0 (pmBytes msg n)) a =
      if a < 64 * blockCount n then pmByte msg n a else Memory.read pm a := by
  rw [Memory.read_putBytes]
  by_cases ha : a < 64 * blockCount n
  · simp [ha, pmBytes]
  · simp [ha]

theorem Memory.missingByte_readBytes {m : Memory} {k j : Nat} (hj : j < k) (h : Memory.read m j = none) :
    missingByte (Memory.readBytes m 0 k) = true := by
  rw [missingByte_eq_true, Memory.readBytes, List.mem_map]
  exact ⟨j, List.mem_range.mpr hj, by rwa [Nat.zero_add]⟩

/-- Of two reads of which one is of `NOVAL` the first one that is gets recorded (R235 a; log entry 25). -/
theorem record_record_noValueRead {u : UnitId} (x : UnitState u) {j k : Store} {b c : Bool} (h : b = true ∨ c = true) :
    ((x.record j b).record k c).noValueRead = x.noValueRead.or (some (if b then j else k)) := by
  cases b with
  | true => cases hx : x.noValueRead <;> simp [hx]
  | false =>
    obtain rfl : c = true := h.resolve_left nofun
    simp

/-! ### The operations on `NOVAL` -/

theorem padUnit_of_no_length {u : UnitId} {x : UnitState u} (hph : x.pos.phase = .padding) (hst : x.pos.step = 0)
    (hm : x.mlen = none) :
    padUnit x = .next { x with
      nblk := none, pm := [], pos := ⟨.processingBlock, 0, 0⟩, noValueRead := x.noValueRead.or (some .mlen) } :=
  padUnit_next.mpr ⟨⟨hph, hst⟩, .inr ⟨hm, rfl⟩⟩

theorem padUnit_of_missing {u : UnitId} {x : UnitState u} {n j : Nat} (hph : x.pos.phase = .padding) (hst : x.pos.step = 0)
    (hm : x.mlen = some n) (hn : 8 * n < 2 ^ 64) (hj : j < n) (hmsg : Memory.read x.msg j = none) :
    padUnit x = .next { x with
      nblk := some (blockCount n), pm := Memory.putBytes x.pm 0 (pmBytes x.msg n), pos := ⟨.processingBlock, 0, 0⟩,
      noValueRead := x.noValueRead.or (some .msg) } := by
  have hmiss : missingByte (pmBytes x.msg n) = true := by
    rw [← Bool.not_eq_false, missingByte_pmBytes]
    exact fun h => by simpa [hmsg] using h j hj
  refine padUnit_next.mpr ⟨⟨hph, hst⟩, .inl ⟨n, hm, hn, ?_⟩⟩
  rw [hmiss]
  rfl

theorem wloadUnit_of_missing {u : UnitId} {x : UnitState u} {j m : Nat} (hj : j ≤ 15) (hph : x.pos.phase = .processingBlock)
    (hst : x.pos.step = j) (hm : m < 4) (hpm : Memory.read x.pm (64 * x.pos.blk + 4 * j + m) = none) :
    wloadUnit j x = .next { x with
      w := x.w.put j none, pos := ⟨.processingBlock, x.pos.blk, j + 1⟩, noValueRead := x.noValueRead.or (some .pm) } := by
  have hword : Memory.readWord x.pm (64 * x.pos.blk + 4 * j) = none := by
    rw [← Option.not_isSome_iff_eq_none, Memory.readWord_isSome]
    exact fun h => by simpa [hpm] using h m hm
  refine wloadUnit_next.mpr ⟨hj, ⟨hph, hst⟩, ?_⟩
  simp [UnitState.schedule, UnitState.advance, UnitState.record, hword, hph, hst]

theorem loadvUnit_of_missing {u : UnitId} {x : UnitState u} (hph : x.pos.phase = .processingBlock)
    (hst : x.pos.step = Config.nw u) (hh : ∃ k, x.h.get k = none) :
    loadvUnit x = .next { x with
      v := x.h, pos := ⟨.processingBlock, x.pos.blk, Config.nw u + 1⟩, noValueRead := x.noValueRead.or (some .h) } := by
  refine loadvUnit_next.mpr ⟨⟨hph, hst⟩, ?_⟩
  simp [UnitState.advance, UnitState.record, Cells.missing_eq_true.mpr hh, hph, hst]

/-- A Word made of four is `NOVAL` where one of them is. -/
theorem fromFour_eq_none {f : Word → Word → Word → Word → Word} {a b c d : Option Word}
    (h : a = none ∨ b = none ∨ c = none ∨ d = none) : fromFour f a b c d = none := by
  rw [← Option.not_isSome_iff_eq_none, fromFour_isSome]
  rintro ⟨ha, hb, hc, hd⟩
  obtain rfl | rfl | rfl | rfl := h <;> contradiction

/-- A schedule entry made of `NOVAL` (log entry 24). -/
theorem schedule_none {u : UnitId} {x : UnitState u} {i : Nat} (k : Store) (hph : x.pos.phase = .processingBlock)
    (hst : x.pos.step = i) :
    x.schedule i k none = { x with
      w := x.w.put i none, pos := ⟨.processingBlock, x.pos.blk, i + 1⟩, noValueRead := x.noValueRead.or (some k) } := by
  simp [UnitState.schedule, UnitState.advance, UnitState.record, hph, hst]

theorem wexpS1_of_missing {x : UnitState .s1} {i d : Nat} (hi : 16 ≤ i ∧ i ≤ 79) (hd : d ∈ [3, 8, 14, 16])
    (hph : x.pos.phase = .processingBlock) (hst : x.pos.step = i) (hw : x.w.at (i - d) = none) :
    wexpS1 i x = .next { x with
      w := x.w.put i none, pos := ⟨.processingBlock, x.pos.blk, i + 1⟩, noValueRead := x.noValueRead.or (some .w) } := by
  refine wexpS1_next.mpr ⟨hi, ⟨hph, hst⟩, ?_⟩
  rw [fromFour_eq_none, schedule_none .w hph hst]
  simp only [List.mem_cons, List.not_mem_nil, or_false] at hd
  obtain rfl | rfl | rfl | rfl := hd <;> simp [hw]

theorem wexpS256_of_missing {x : UnitState .s256} {i d : Nat} (hi : 16 ≤ i ∧ i ≤ 63) (hd : d ∈ [16, 15, 7, 2])
    (hph : x.pos.phase = .processingBlock) (hst : x.pos.step = i) (hw : x.w.at (i - d) = none) :
    wexpS256 i x = .next { x with
      w := x.w.put i none, pos := ⟨.processingBlock, x.pos.blk, i + 1⟩, noValueRead := x.noValueRead.or (some .w) } := by
  refine wexpS256_next.mpr ⟨hi, ⟨hph, hst⟩, ?_⟩
  rw [fromFour_eq_none, schedule_none .w hph hst]
  simp only [List.mem_cons, List.not_mem_nil, or_false] at hd
  obtain rfl | rfl | rfl | rfl := hd <;> simp [hw]

/-- What a unit's meaning answers is put back in its place (R20, R82). -/
theorem onUnit_of_next {s : State} {u : UnitId} {f : UnitState u → UnitOutcome u} {y : UnitState u} (h : f (s.unit u) = .next y) :
    s.onUnit u f = .next (s.setUnit u y) :=
  onUnit_next.mpr ⟨y, h, rfl⟩

/-- Settles O27: what the operations make of `NOVAL` holds `NOVAL`, clause by clause. -/
theorem novalIsRecordedAndNeverBecomesAValue : Obligations.NovalIsRecordedAndNeverBecomesAValue := by
  intro s u x pad wload loadv
  have hpad : exec (pad u) s = s.onUnit u padUnit := by cases u <;> rfl
  have hwload (j : Nat) : exec (wload u j) s = s.onUnit u (wloadUnit j) := by cases u <;> rfl
  have hloadv : exec (loadv u) s = s.onUnit u loadvUnit := by cases u <;> rfl
  refine ⟨fun hph hst hm => ?_, fun n j hph hst hm hn hj hmsg => ?_, fun j m hj hph hst hm hpm => ?_, fun hph hst hh => ?_,
    fun i d hi hi' hd hph hst hw => ?_, fun i d hi hi' hd hph hst hw => ?_⟩
  · exact hpad.trans (onUnit_of_next (padUnit_of_no_length hph hst hm))
  · refine ⟨_, hpad.trans (onUnit_of_next (padUnit_of_missing hph hst hm hn hj hmsg)), fun a ha => ?_, fun a ha ha' => ?_,
      fun a ha => ?_⟩
    · have hlt : a < 64 * blockCount n := by unfold blockCount; omega
      rw [read_putBytes_pmBytes, if_pos hlt, pmByte, if_pos ha]
    · exact (read_putBytes_pmBytes ..).trans ((if_pos ha').trans (if_neg (Nat.not_lt.mpr ha)))
    · exact (read_putBytes_pmBytes ..).trans (if_neg (Nat.not_lt.mpr ha))
  · exact (hwload j).trans (onUnit_of_next (wloadUnit_of_missing hj hph hst hm hpm))
  · exact hloadv.trans (onUnit_of_next (loadvUnit_of_missing hph hst hh))
  · exact onUnit_of_next (u := .s1) (wexpS1_of_missing ⟨hi, hi'⟩ hd hph hst hw)
  · exact onUnit_of_next (u := .s256) (wexpS256_of_missing ⟨hi, hi'⟩ hd hph hst hw)

/-! ### The rounds, `ADDH` and the finalizer on `NOVAL` -/

/-- The new `a` of a SHA-1 round has a value exactly where its six sources have, the rule's sum (R145). -/
theorem roundCellsS1_get_zero_eq_some {t : Nat} {wt : Option Word} {r : Cells 5} {z : Word} :
    (roundCellsS1 t wt r).get 0 = some z ↔ ∃ w a b c d e, wt = some w ∧ r.get 0 = some a ∧ r.get 1 = some b ∧ r.get 2 = some c ∧
      r.get 3 = some d ∧ r.get 4 = some e ∧ tempS1 t w a b c d e = z := by
  simp [roundCellsS1, Option.bind_eq_some_iff, Vector.get_eq_getElem]

/-- The new `a` of a SHA-256 round has a value exactly where its eight sources have, the rule's sum (R151). -/
theorem roundCellsS256_get_zero_eq_some {t : Nat} {wt : Option Word} {r : Cells 8} {z : Word} :
    (roundCellsS256 t wt r).get 0 = some z ↔ ∃ w e f g h a b c, wt = some w ∧ r.get 4 = some e ∧ r.get 5 = some f ∧
      r.get 6 = some g ∧ r.get 7 = some h ∧ r.get 0 = some a ∧ r.get 1 = some b ∧ r.get 2 = some c ∧
      temp1S256 t w e f g h + temp2S256 a b c = z := by
  have hget : (roundCellsS256 t wt r).get 0 =
      (wt.bind fun w => (r.get 4).bind fun e => (r.get 5).bind fun f => (r.get 6).bind fun g => (r.get 7).bind fun h =>
        some (temp1S256 t w e f g h)).bind fun x =>
      ((r.get 0).bind fun a => (r.get 1).bind fun b => (r.get 2).bind fun c => some (temp2S256 a b c)).bind fun y =>
        some (add32 [x, y]) := rfl
  simp only [hget, Option.bind_eq_some_iff, Option.some.injEq, add32_two]
  constructor
  · rintro ⟨_, ⟨w, hw, e, he, f, hf, g, hg, h, hh, rfl⟩, _, ⟨a, ha, b, hb, c, hc, rfl⟩, hz⟩
    exact ⟨w, e, f, g, h, a, b, c, hw, he, hf, hg, hh, ha, hb, hc, hz⟩
  · rintro ⟨w, e, f, g, h, a, b, c, hw, he, hf, hg, hh, ha, hb, hc, hz⟩
    exact ⟨_, ⟨w, hw, e, he, f, hf, g, hg, h, hh, rfl⟩, _, ⟨a, ha, b, hb, c, hc, rfl⟩, hz⟩

/-- The new `e` of a SHA-256 round has a value exactly where its six sources have, the rule's sum (R151). -/
theorem roundCellsS256_get_four_eq_some {t : Nat} {wt : Option Word} {r : Cells 8} {z : Word} :
    (roundCellsS256 t wt r).get 4 = some z ↔ ∃ d w e f g h, r.get 3 = some d ∧ wt = some w ∧ r.get 4 = some e ∧ r.get 5 = some f ∧
      r.get 6 = some g ∧ r.get 7 = some h ∧ d + temp1S256 t w e f g h = z := by
  have hget : (roundCellsS256 t wt r).get 4 =
      (r.get 3).bind fun d =>
        (wt.bind fun w => (r.get 4).bind fun e => (r.get 5).bind fun f => (r.get 6).bind fun g => (r.get 7).bind fun h =>
          some (temp1S256 t w e f g h)).bind fun x => some (add32 [d, x]) := rfl
  simp only [hget, Option.bind_eq_some_iff, Option.some.injEq, add32_two]
  constructor
  · rintro ⟨d, hd, _, ⟨w, hw, e, he, f, hf, g, hg, h, hh, rfl⟩, hz⟩
    exact ⟨d, w, e, f, g, h, hd, hw, he, hf, hg, hh, hz⟩
  · rintro ⟨d, w, e, f, g, h, hd, hw, he, hf, hg, hh, hz⟩
    exact ⟨d, hd, _, ⟨w, hw, e, he, f, hf, g, hg, h, hh, rfl⟩, hz⟩

/-- The registers a SHA-1 round only moves (R145). -/
theorem roundCellsS1_of_missing {t : Nat} {wt : Option Word} {r : Cells 5} (h : (∃ k, r.get k = none) ∨ wt = none) :
    roundCellsS1 t wt r = #v[none, r.get 0, (r.get 1).map (rotl32 · 30), r.get 2, r.get 3] := by
  have hzero : (roundCellsS1 t wt r).get 0 = none := Option.eq_none_iff_forall_ne_some.mpr fun z hz => by
    obtain ⟨w, a, b, c, d, e, hw, ha, hb, hc, hd, he, -⟩ := roundCellsS1_get_zero_eq_some.mp hz
    obtain ⟨k, hk⟩ | hn := h
    · fin_cases k <;> simp_all
    · simp [hw] at hn
  rw [← hzero]
  rfl

/-- The new `a` of a SHA-256 round is `NOVAL` where one of its sources is. -/
theorem roundCellsS256_get_zero_of_missing {t : Nat} {wt : Option Word} {r : Cells 8}
    (h : (∃ k, k ≠ 3 ∧ r.get k = none) ∨ wt = none) : (roundCellsS256 t wt r).get 0 = none :=
  Option.eq_none_iff_forall_ne_some.mpr fun z hz => by
    obtain ⟨w, e, f, g, i, a, b, c, hw, he, hf, hg, hi, ha, hb, hc, -⟩ := roundCellsS256_get_zero_eq_some.mp hz
    obtain ⟨k, hk, hn⟩ | hn := h
    · fin_cases k <;> simp_all
    · simp [hw] at hn

/-- The new `e` of a SHA-256 round is `NOVAL` where one of its sources is. -/
theorem roundCellsS256_get_four_of_missing {t : Nat} {wt : Option Word} {r : Cells 8}
    (h : (∃ k, 3 ≤ k.val ∧ r.get k = none) ∨ wt = none) : (roundCellsS256 t wt r).get 4 = none :=
  Option.eq_none_iff_forall_ne_some.mpr fun z hz => by
    obtain ⟨d, w, e, f, g, i, hd, hw, he, hf, hg, hi, -⟩ := roundCellsS256_get_four_eq_some.mp hz
    obtain ⟨k, hk, hn⟩ | hn := h
    · fin_cases k <;> simp_all
    · simp [hw] at hn

/-- A round on a register or a schedule entry that is `NOVAL`: the first of them read is recorded. -/
theorem roundUnit_of_missing {u : UnitId} {x : UnitState u} {t : Nat} (ht : t < Config.nr u) (hph : x.pos.phase = .processingBlock)
    (hst : x.pos.step = Config.nw u + 1 + t) (h : (∃ k, x.v.get k = none) ∨ x.w.at t = none) :
    roundUnit t x = .next { x with
      v := roundCells u t (x.w.at t) x.v, pos := ⟨.processingBlock, x.pos.blk, Config.nw u + 1 + t + 1⟩,
      noValueRead := x.noValueRead.or (some (if ∃ k, x.v.get k = none then .v else .w)) } := by
  have hrec := record_record_noValueRead x (j := .v) (k := .w) (b := x.v.missing) (c := (x.w.at t).isNone) (by
    simpa [Cells.missing_eq_true] using h)
  simp only [Cells.missing_eq_true] at hrec
  refine roundUnit_next.mpr ⟨ht, ⟨hph, hst⟩, ?_⟩
  rw [← hrec, ← hph, ← hst]
  rfl

theorem addhUnit_of_missing {u : UnitId} {x : UnitState u} (hph : x.pos.phase = .processingBlock)
    (hst : x.pos.step = Config.nw u + 1 + Config.nr u) (h : (∃ k, x.h.get k = none) ∨ ∃ k, x.v.get k = none) :
    addhUnit x = .next { x with
      h := Vector.ofFn fun k => addCell (x.h.get k) (x.v.get k)
      pos := ⟨.processingBlock, x.pos.blk, Config.nw u + 1 + Config.nr u + 1⟩
      noValueRead := x.noValueRead.or (some (if ∃ k, x.h.get k = none then .h else .v)) } := by
  have hrec := record_record_noValueRead x (j := .h) (k := .v) (b := x.h.missing) (c := x.v.missing) (by
    simpa only [Cells.missing_eq_true] using h)
  simp only [Cells.missing_eq_true] at hrec
  refine addhUnit_next.mpr ⟨⟨hph, hst⟩, ?_⟩
  rw [← hrec, ← hph, ← hst]
  rfl

theorem serializeUnit_of_missing {u : UnitId} {x : UnitState u} (hph : x.pos.phase = .finalizing) (hst : x.pos.step = 0)
    (h : ∃ k, x.h.get k = none) :
    serializeUnit x = .next { x with
      dig := Memory.putBytes x.dig 0 (cellBytes x.h), pos := ⟨.finalizing, x.pos.blk, 1⟩,
      noValueRead := x.noValueRead.or (some .h) } := by
  refine serializeUnit_next.mpr ⟨⟨hph, hst⟩, ?_⟩
  simp [UnitState.advance, UnitState.record, Cells.missing_eq_true.mpr h, hph, hst]

theorem hexencUnit_of_missing {u : UnitId} {x : UnitState u} {j : Nat} (hph : x.pos.phase = .finalizing) (hst : x.pos.step = 1)
    (hj : j < Config.db u) (h : Memory.read x.dig j = none) :
    hexencUnit x = .next { x with
      hex := Memory.putBytes x.hex 0 (hexCells (Memory.readBytes x.dig 0 (Config.db u))), pos := ⟨.finalized, 0, 0⟩,
      noValueRead := x.noValueRead.or (some .dig) } := by
  refine hexencUnit_next.mpr ⟨⟨hph, hst⟩, ?_⟩
  rw [Memory.missingByte_readBytes hj h]
  rfl

/-- The sum of two Words that may be `NOVAL` is there where both are (R153). -/
theorem addCell_eq_bind (a b : Option Word) : addCell a b = a.bind fun a => b.map fun b => a + b := by
  cases a <;> cases b <;> simp [addCell, add32_two]

/-- `DIG_u` after `SERIALIZE` (R171): byte `m` of Word `k` at `4*k + m`, the old content beyond. -/
theorem read_putBytes_cellBytes {n : Nat} (dig : Memory) (h : Cells n) :
    (∀ (k : Fin n) (m : Fin 4), Memory.read (Memory.putBytes dig 0 (cellBytes h)) (4 * k.val + m.val) = (h.get k).map (byteOf m.val)) ∧
      ∀ a, 4 * n ≤ a → Memory.read (Memory.putBytes dig 0 (cellBytes h)) a = Memory.read dig a := by
  refine ⟨fun k m => ?_, fun a ha => ?_⟩
  · have hlt : 4 * k.val + m.val < 4 * n := by omega
    rw [Memory.read_putBytes, length_cellBytes, if_pos (by omega), Nat.sub_zero, getElem?_cellBytes, Option.join_some]
  · rw [Memory.read_putBytes, length_cellBytes, if_neg (by omega)]

/-- `HEX_u` after `HEXENC` (R174): the two characters of byte `i` at `2*i` and `2*i + 1`, the old content beyond. -/
theorem read_putBytes_hexCells (hex dig : Memory) (n : Nat) :
    (∀ i, i < n →
      Memory.read (Memory.putBytes hex 0 (hexCells (Memory.readBytes dig 0 n))) (2 * i) =
          (Memory.read dig i).map (fun d => hexchar (d.toNat / 16)) ∧
        Memory.read (Memory.putBytes hex 0 (hexCells (Memory.readBytes dig 0 n))) (2 * i + 1) =
          (Memory.read dig i).map fun d => hexchar (d.toNat % 16)) ∧
      ∀ a, 2 * n ≤ a → Memory.read (Memory.putBytes hex 0 (hexCells (Memory.readBytes dig 0 n))) a = Memory.read hex a := by
  simp only [Memory.read_putBytes, length_hexCells, Memory.length_readBytes]
  refine ⟨fun i hi => ?_, fun a ha => if_neg (by omega)⟩
  have hbyte : (Memory.readBytes dig 0 n)[i]? = some (Memory.read dig i) := by
    simp [Memory.readBytes, hi]
  obtain ⟨hhigh, hlow⟩ := getElem?_hexCells hbyte
  rw [if_pos (by omega), if_pos (by omega), Nat.sub_zero, Nat.sub_zero, hhigh, hlow, Option.join_some, Option.join_some]
  exact ⟨rfl, rfl⟩

/-- Settles O28: each result is `NOVAL` exactly where one of its sources is, and the rest is moved or kept. -/
theorem novalStaysInItsPlace : Obligations.NovalStaysInItsPlace := by
  refine ⟨fun s t ht hph hst h => ?_, fun s t ht hph hst h => ?_, fun s u => ?_⟩
  · have hround := onUnit_of_next (s := s) (u := .s1) (roundUnit_of_missing (Nat.lt_succ_of_le ht) hph hst h)
    rw [roundCells, State.unit_s1, roundCellsS1_of_missing h] at hround
    exact hround
  · refine ⟨(roundCellsS256 t (s.s256.w.at t) s.s256.v).get 0, (roundCellsS256 t (s.s256.w.at t) s.s256.v).get 4,
      roundCellsS256_get_zero_of_missing, roundCellsS256_get_four_of_missing, ?_, ?_, ?_⟩
    · intro a b c e f g i wt ha hb hc he hf hg hi hw
      exact roundCellsS256_get_zero_eq_some.mpr ⟨wt, e, f, g, i, a, b, c, hw, he, hf, hg, hi, ha, hb, hc, rfl⟩
    · intro d e f g i wt hd he hf hg hi hw
      exact roundCellsS256_get_four_eq_some.mpr ⟨d, wt, e, f, g, i, hd, hw, he, hf, hg, hi, rfl⟩
    · exact onUnit_of_next (s := s) (u := .s256) (roundUnit_of_missing (Nat.lt_succ_of_le ht) hph hst h)
  · intro x addh serialize hexenc
    have haddh : exec (addh u) s = s.onUnit u addhUnit := by cases u <;> rfl
    have hserialize : exec (serialize u) s = s.onUnit u serializeUnit := by cases u <;> rfl
    have hhexenc : exec (hexenc u) s = s.onUnit u hexencUnit := by cases u <;> rfl
    refine ⟨fun hph hst h => ?_, fun hph hst h => ?_, fun j hph hst hj h => ?_⟩
    · have hnext := haddh.trans (onUnit_of_next (addhUnit_of_missing hph hst h))
      rw [Nat.add_right_comm (Config.nw u) 1] at hnext
      exact ⟨_, fun k => by rw [get_ofFn, addCell_eq_bind], hnext⟩
    · obtain ⟨hin, hout⟩ := read_putBytes_cellBytes x.dig x.h
      rw [← db_eq_four_mul_ns] at hout
      exact ⟨_, hin, hout, hserialize.trans (onUnit_of_next (serializeUnit_of_missing hph hst h))⟩
    · obtain ⟨hin, hout⟩ := read_putBytes_hexCells x.hex x.dig (Config.db u)
      rw [← hx_eq_two_mul_db] at hout
      exact ⟨_, hin, hout, hhexenc.trans (onUnit_of_next (hexencUnit_of_missing hph hst hj h))⟩

end Sys2Proof.Machine
end

section
/-! PROOFS. Frames (spec/10_state.md R20, R37): an operation reads and writes its own unit only, and there only what its row of the access
summary lists. -/

namespace Sys2Proof.Machine

/-- Settles O30: an operation is its meaning on its own unit. -/
theorem operationsTouchOnlyTheirUnit : Obligations.OperationsTouchOnlyTheirUnit := by
  intro i s t h
  rw [exec_eq_onUnit, onUnit_next] at h
  obtain ⟨y, hy, rfl⟩ := h
  refine ⟨fun u hu => State.unit_setUnit_of_ne s hu y, State.sched_setUnit s i.unit y, fun s' hs' => ⟨s'.setUnit i.unit y, ?_, ?_⟩⟩
  · rw [exec_eq_onUnit]
    exact onUnit_of_next (hs' ▸ hy)
  · rw [State.unit_setUnit, State.unit_setUnit]

/-- A piece of a unit's state in the write column of the access summary (R37), and the model's count of free values. -/
inductive Piece where
  | draws
  | err
  | nblk
  | pm
  | dig
  | hex
  | h
  | v
  | w (k : Nat)

/-- The write column of the access summary, by operation (R37). -/
def writes : Instr → Piece → Prop
  | .sha1Start, p | .sha256Start, p => p ≠ .draws
  | .sha1Checklen, p | .sha256Checklen, p => p = .err ∨ p = .draws
  | .sha1Init, p | .sha256Init, p => p = .h
  | .sha1Pad, p | .sha256Pad, p => p = .nblk ∨ p = .pm
  | .sha1Wload k, p | .sha256Wload k, p | .sha1Wexp k, p | .sha256Wexp k, p => p = .w k
  | .sha1Loadv, p | .sha256Loadv, p | .sha1Round _, p | .sha256Round _, p => p = .v
  | .sha1Addh, p | .sha256Addh, p => p = .h
  | .sha1Nextblk, p | .sha256Nextblk, p => p = .draws ∨ p = .v ∨ ∃ k, p = .w k
  | .sha1Serialize, p | .sha256Serialize, p => p = .dig
  | .sha1Hexenc, p | .sha256Hexenc, p => p = .hex

/-- From `x` to `y` no piece outside `P` changes, the host's message, length and port are kept, and so is a record of a read of `NOVAL`
(R28, R51, R235 a). A piece that is left out of a proof is unchanged by computation. -/
structure ChangesOnly {u : UnitId} (x y : UnitState u) (P : Piece → Prop) : Prop where
  recorded : ∀ p, x.noValueRead = some p → y.noValueRead = some p := by intro p hp; simp [hp]
  mlen : y.mlen = x.mlen := by rfl
  held : y.held = x.held := by rfl
  inbox : y.inbox = x.inbox := by rfl
  reply : y.reply = x.reply := by rfl
  msg : y.msg = x.msg := by rfl
  draws : y.draws ≠ x.draws → P .draws := by exact fun hne => absurd rfl hne
  err : y.err ≠ x.err → P .err := by exact fun hne => absurd rfl hne
  nblk : y.nblk ≠ x.nblk → P .nblk := by exact fun hne => absurd rfl hne
  pm : ∀ a, Memory.read y.pm a ≠ Memory.read x.pm a → P .pm := by exact fun _ hne => absurd rfl hne
  dig : ∀ a, Memory.read y.dig a ≠ Memory.read x.dig a → P .dig := by exact fun _ hne => absurd rfl hne
  hex : ∀ a, Memory.read y.hex a ≠ Memory.read x.hex a → P .hex := by exact fun _ hne => absurd rfl hne
  h : ∀ k, y.h.get k ≠ x.h.get k → P .h := by exact fun _ hne => absurd rfl hne
  v : ∀ k, y.v.get k ≠ x.v.get k → P .v := by exact fun _ hne => absurd rfl hne
  w : ∀ k, y.w.get k ≠ x.w.get k → P (.w k.val) := by exact fun _ hne => absurd rfl hne

section
variable {u : UnitId} {x y : UnitState u}

theorem startUnit_changesOnly (hy : startUnit x = .next y) : ChangesOnly x y (· ≠ .draws) := by
  obtain ⟨-, rfl⟩ := startUnit_next.mp hy
  exact { err := nofun, nblk := nofun, pm := nofun, dig := nofun, hex := nofun, h := nofun, v := nofun, w := nofun }

theorem checklenUnit_changesOnly (hy : checklenUnit x = .next y) : ChangesOnly x y fun p => p = .err ∨ p = .draws := by
  obtain ⟨-, ⟨-, -, ⟨-, rfl⟩ | ⟨-, rfl⟩⟩ | ⟨-, ⟨-, rfl⟩ | ⟨-, rfl⟩⟩⟩ := checklenUnit_next.mp hy
  · exact { err := fun _ => .inl rfl }
  · exact { }
  · exact { err := fun _ => .inl rfl, draws := fun _ => .inr rfl }
  · exact { draws := fun _ => .inr rfl }

theorem initUnit_changesOnly (hy : initUnit x = .next y) : ChangesOnly x y (· = .h) := by
  obtain ⟨-, rfl⟩ := initUnit_next.mp hy
  exact { h := fun _ _ => rfl }

theorem padUnit_changesOnly (hy : padUnit x = .next y) : ChangesOnly x y fun p => p = .nblk ∨ p = .pm := by
  obtain ⟨-, ⟨n, -, -, rfl⟩ | ⟨-, rfl⟩⟩ := padUnit_next.mp hy
  · exact { nblk := fun _ => .inl rfl, pm := fun _ _ => .inr rfl }
  · exact { nblk := fun _ => .inl rfl, pm := fun _ _ => .inr rfl }

/-- A micro-operation of the scheduler writes one entry (R121, R123, R127). -/
theorem schedule_changesOnly (x : UnitState u) (i : Nat) (k : Store) (o : Option Word) :
    ChangesOnly x (x.schedule i k o) (· = .w i) where
  w k hne := by
    rw [UnitState.schedule_w, Cells.put_get] at hne
    split at hne
    next heq => rw [heq]
    next => exact absurd rfl hne

theorem wloadUnit_changesOnly {j : Nat} (hy : wloadUnit j x = .next y) : ChangesOnly x y (· = .w j) := by
  obtain ⟨-, -, rfl⟩ := wloadUnit_next.mp hy
  exact schedule_changesOnly ..

theorem wexpS1_changesOnly {i : Nat} {x y : UnitState .s1} (hy : wexpS1 i x = .next y) : ChangesOnly x y (· = .w i) := by
  obtain ⟨-, -, rfl⟩ := wexpS1_next.mp hy
  exact schedule_changesOnly ..

theorem wexpS256_changesOnly {i : Nat} {x y : UnitState .s256} (hy : wexpS256 i x = .next y) : ChangesOnly x y (· = .w i) := by
  obtain ⟨-, -, rfl⟩ := wexpS256_next.mp hy
  exact schedule_changesOnly ..

theorem loadvUnit_changesOnly (hy : loadvUnit x = .next y) : ChangesOnly x y (· = .v) := by
  obtain ⟨-, rfl⟩ := loadvUnit_next.mp hy
  exact { v := fun _ _ => rfl }

theorem roundUnit_changesOnly {t : Nat} (hy : roundUnit t x = .next y) : ChangesOnly x y (· = .v) := by
  obtain ⟨-, -, rfl⟩ := roundUnit_next.mp hy
  exact { v := fun _ _ => rfl }

theorem addhUnit_changesOnly (hy : addhUnit x = .next y) : ChangesOnly x y (· = .h) := by
  obtain ⟨-, rfl⟩ := addhUnit_next.mp hy
  exact { h := fun _ _ => rfl }

theorem nextblkUnit_changesOnly (hy : nextblkUnit x = .next y) :
    ChangesOnly x y fun p => p = .draws ∨ p = .v ∨ ∃ k, p = .w k := by
  obtain ⟨-, ⟨-, -, ⟨-, rfl⟩ | ⟨-, rfl⟩⟩ | ⟨-, ⟨-, rfl⟩ | ⟨-, rfl⟩⟩⟩ := nextblkUnit_next.mp hy <;>
    exact { draws := fun _ => .inl rfl, v := fun _ _ => .inr (.inl rfl), w := fun k _ => .inr (.inr ⟨k, rfl⟩) }

theorem serializeUnit_changesOnly (hy : serializeUnit x = .next y) : ChangesOnly x y (· = .dig) := by
  obtain ⟨-, rfl⟩ := serializeUnit_next.mp hy
  exact { dig := fun _ _ => rfl }

theorem hexencUnit_changesOnly (hy : hexencUnit x = .next y) : ChangesOnly x y (· = .hex) := by
  obtain ⟨-, rfl⟩ := hexencUnit_next.mp hy
  exact { hex := fun _ _ => rfl }

end

/-- An operation changes only what its row of the write column lists (R37). -/
theorem meaning_changesOnly (i : Instr) {x y : UnitState i.unit} (hy : meaning i x = .next y) : ChangesOnly x y (writes i) := by
  cases i with
  | sha1Start | sha256Start => exact startUnit_changesOnly hy
  | sha1Checklen | sha256Checklen => exact checklenUnit_changesOnly hy
  | sha1Init | sha256Init => exact initUnit_changesOnly hy
  | sha1Pad | sha256Pad => exact padUnit_changesOnly hy
  | sha1Wload j | sha256Wload j => exact wloadUnit_changesOnly hy
  | sha1Wexp i => exact wexpS1_changesOnly hy
  | sha256Wexp i => exact wexpS256_changesOnly hy
  | sha1Loadv | sha256Loadv => exact loadvUnit_changesOnly hy
  | sha1Round t | sha256Round t => exact roundUnit_changesOnly hy
  | sha1Addh | sha256Addh => exact addhUnit_changesOnly hy
  | sha1Nextblk | sha256Nextblk => exact nextblkUnit_changesOnly hy
  | sha1Serialize | sha256Serialize => exact serializeUnit_changesOnly hy
  | sha1Hexenc | sha256Hexenc => exact hexencUnit_changesOnly hy

/-! The same column by piece (R37). -/

theorem mem_of_writes_draws {i : Instr} (h : writes i .draws) :
    i ∈ [.sha1Checklen, .sha256Checklen, .sha1Nextblk, .sha256Nextblk] := by
  cases i <;> simp_all [writes]

theorem mem_of_writes_err {i : Instr} (h : writes i .err) : i ∈ [.sha1Start, .sha256Start, .sha1Checklen, .sha256Checklen] := by
  cases i <;> simp_all [writes]

theorem mem_of_writes_nblk {i : Instr} (h : writes i .nblk) : i ∈ [.sha1Start, .sha256Start, .sha1Pad, .sha256Pad] := by
  cases i <;> simp_all [writes]

theorem mem_of_writes_pm {i : Instr} (h : writes i .pm) : i ∈ [.sha1Start, .sha256Start, .sha1Pad, .sha256Pad] := by
  cases i <;> simp_all [writes]

theorem mem_of_writes_dig {i : Instr} (h : writes i .dig) : i ∈ [.sha1Start, .sha256Start, .sha1Serialize, .sha256Serialize] := by
  cases i <;> simp_all [writes]

theorem mem_of_writes_hex {i : Instr} (h : writes i .hex) : i ∈ [.sha1Start, .sha256Start, .sha1Hexenc, .sha256Hexenc] := by
  cases i <;> simp_all [writes]

theorem mem_of_writes_h {i : Instr} (h : writes i .h) :
    i ∈ [.sha1Start, .sha256Start, .sha1Init, .sha256Init, .sha1Addh, .sha256Addh] := by
  cases i <;> simp_all [writes]

theorem mem_of_writes_v {i : Instr} (h : writes i .v) : (∃ n, i = .sha1Round n ∨ i = .sha256Round n) ∨
    i ∈ [.sha1Start, .sha256Start, .sha1Loadv, .sha256Loadv, .sha1Nextblk, .sha256Nextblk] := by
  cases i <;> simp_all [writes]

theorem mem_of_writes_w {i : Instr} {k : Nat} (h : writes i (.w k)) :
    (i = .sha1Wload k ∨ i = .sha256Wload k ∨ i = .sha1Wexp k ∨ i = .sha256Wexp k) ∨
      i ∈ [.sha1Start, .sha256Start, .sha1Nextblk, .sha256Nextblk] := by
  cases i <;> simp_all [writes]

/-- Settles O31: row by row an operation changes what the write column lists, and column by column these are its writers. -/
theorem onlyListedOperationsWrite : Obligations.OnlyListedOperationsWrite := by
  intro i s t h x y
  rw [exec_eq_onUnit, onUnit_next] at h
  obtain ⟨y', hy, rfl⟩ := h
  have heq : y = y' := State.unit_setUnit ..
  have hc : ChangesOnly x y (writes i) := heq ▸ meaning_changesOnly i hy
  exact ⟨hc.recorded, fun hne => mem_of_writes_draws (hc.draws hne), hc.mlen, hc.held, hc.inbox, hc.reply, fun a => by rw [hc.msg],
    fun hne => mem_of_writes_err (hc.err hne), fun hne => mem_of_writes_nblk (hc.nblk hne),
    fun a hne => mem_of_writes_pm (hc.pm a hne), fun a hne => mem_of_writes_dig (hc.dig a hne),
    fun a hne => mem_of_writes_hex (hc.hex a hne), fun k hne => mem_of_writes_h (hc.h k hne),
    fun k hne => mem_of_writes_v (hc.v k hne), fun k hne => mem_of_writes_w (hc.w k hne)⟩

end Sys2Proof.Machine
end

section
/-! PROOFS. Numbers that are `NOVAL` (spec/10_state.md R39; spec/44_sequencer.md R188, R192), the host's reads and its refused accesses
(spec/20_memory.md R71), and the state after a reset (R38, R250). -/

namespace Sys2Proof.Machine

/-! ### `CHECKLEN` and `NEXTBLK` without their number -/

theorem checklenUnit_of_no_length {u : UnitId} {x : UnitState u} (hph : x.pos.phase = .start) (hst : x.pos.step = 0)
    (hm : x.mlen = none) :
    ∃ (err : BitVec 2) (pos : Pos),
      ((err = 1 ∧ pos = ⟨.failed, 0, 0⟩) ∨ (err = x.err ∧ pos = ⟨.start, x.pos.blk, 1⟩)) ∧
      checklenUnit x = .next { x with
        err := err, pos := pos, noValueRead := x.noValueRead.or (some .mlen), draws := x.draws + 1 } := by
  cases hb : Config.freeBranch u x.draws with
  | true =>
    exact ⟨1, ⟨.failed, 0, 0⟩, .inl ⟨rfl, rfl⟩, checklenUnit_next.mpr ⟨⟨hph, hst⟩, .inr ⟨hm, .inl ⟨hb, rfl⟩⟩⟩⟩
  | false =>
    refine ⟨x.err, ⟨.start, x.pos.blk, 1⟩, .inr ⟨rfl, rfl⟩, checklenUnit_next.mpr ⟨⟨hph, hst⟩, .inr ⟨hm, .inr ⟨hb, ?_⟩⟩⟩⟩
    simp [UnitState.advance, UnitState.record, UnitState.drawn, hph, hst]

theorem nextblkUnit_of_no_count {u : UnitId} {x : UnitState u} (hph : x.pos.phase = .processingBlock)
    (hst : x.pos.step = Config.nw u + Config.nr u + 2) (hn : x.nblk = none) :
    ∃ pos : Pos, (pos = ⟨.processingBlock, x.pos.blk + 1, 0⟩ ∨ pos = ⟨.finalizing, 0, 0⟩) ∧
      nextblkUnit x = .next { x with
        w := Cells.noval _, v := Cells.noval _, pos := pos,
        noValueRead := x.noValueRead.or (some .nblk), draws := x.draws + 1 } := by
  cases hb : Config.freeBranch u x.draws with
  | true => exact ⟨_, .inl rfl, nextblkUnit_next.mpr ⟨⟨hph, hst⟩, .inr ⟨hn, .inl ⟨hb, rfl⟩⟩⟩⟩
  | false => exact ⟨_, .inr rfl, nextblkUnit_next.mpr ⟨⟨hph, hst⟩, .inr ⟨hn, .inr ⟨hb, rfl⟩⟩⟩⟩

/-- Settles O26: the free value names one of the two ways, and the read is recorded on both. -/
theorem novalNumbersLeaveTheWayFree : Obligations.NovalNumbersLeaveTheWayFree := by
  intro s u x checklen nextblk
  have hchecklen : exec (checklen u) s = s.onUnit u checklenUnit := by cases u <;> rfl
  have hnextblk : exec (nextblk u) s = s.onUnit u nextblkUnit := by cases u <;> rfl
  refine ⟨fun hph hst hm => ?_, fun hph hst hn => ?_⟩
  · obtain ⟨err, pos, hway, hnext⟩ := checklenUnit_of_no_length hph hst hm
    exact ⟨err, pos, hway, hchecklen.trans (onUnit_of_next hnext)⟩
  · obtain ⟨pos, hway, hnext⟩ := nextblkUnit_of_no_count hph hst hn
    exact ⟨pos, hway, hnextblk.trans (onUnit_of_next hnext)⟩

/-! ### The host -/

/-- Settles O37: the fields of the byte, phase by phase and error by error, and the read that answers it. -/
theorem statusShowsPhaseAndError : Obligations.StatusShowsPhaseAndError := by
  refine ⟨fun ph => ?_, fun u s => rfl⟩
  cases ph <;> decide

/-- A write that is never held is refused in every phase (R71). -/
theorem hostWrite_of_not_holdable {u : UnitId} {w : HostWrite} {s : State} (h : holdable w = false) :
    hostWrite u w s = .next (s.setUnit u ((s.unit u).answer .refused)) := by
  have heffect : writeEffect u w s = .next (s.setUnit u ((s.unit u).answer .refused)) := by
    cases w with
    | msg j b => exact if_neg (of_decide_eq_false h)
    | mlen n => nomatch h
    | cmd c => nomatch h
    | status | nblk | otherReg | dig | hex | internal => rfl
  simp [hostWrite, h, heffect]

/-- Settles O41: writes that are never held, and reads outside a space. -/
theorem refusedAccessesChangeNothing : Obligations.RefusedAccessesChangeNothing := by
  intro u op s h
  have hread {r : HostRead} (hr : hostRead r (s.unit u) = (s.unit u).answer .refused) :
      hostAccess u (.read r) s = .next (s.setUnit u ((s.unit u).answer .refused)) := by rw [hostAccess, hr]
  obtain ⟨v, rfl⟩ | ⟨n, rfl⟩ | ⟨n, v, rfl⟩ | ⟨n, rfl⟩ | ⟨l, v, rfl⟩ | ⟨l, rfl⟩ | ⟨j, b, rfl, hj⟩ | ⟨j, rfl, hj⟩ | ⟨j, rfl, hj⟩ |
    ⟨j, rfl, hj⟩ | ⟨j, b, rfl⟩ | ⟨j, b, rfl⟩ := h
  · exact hostWrite_of_not_holdable rfl
  · exact hostWrite_of_not_holdable rfl
  · exact hostWrite_of_not_holdable rfl
  · exact hread rfl
  · exact hostWrite_of_not_holdable rfl
  · exact hread rfl
  · exact hostWrite_of_not_holdable (decide_eq_false (Nat.not_le.mpr hj))
  · exact hread (if_neg (Nat.not_le.mpr hj))
  · exact hread (if_neg (Nat.not_lt.mpr hj))
  · exact hread (if_neg (Nat.not_lt.mpr hj))
  · exact hostWrite_of_not_holdable rfl
  · exact hostWrite_of_not_holdable rfl

/-- Settles O43: a read answers the content of its place, and a content that is `NOVAL` is recorded. -/
theorem hostReadsAnswerTheStoredValue : Obligations.HostReadsAnswerTheStoredValue := by
  intro u s none'
  have hvalue {r : HostRead} {what : Store} {a : HostReply} (hr : hostRead r (s.unit u) = (s.unit u).answerRead what (some a)) :
      hostAccess u (.read r) s = .next (s.setUnit u { s.unit u with reply := some a }) := by
    rw [hostAccess, hr, UnitState.answerRead_some]
    rfl
  have hnoval {r : HostRead} {what : Store} (hr : hostRead r (s.unit u) = (s.unit u).answerRead what none) :
      hostAccess u (.read r) s = none' what := by
    rw [hostAccess, hr]
    rfl
  refine ⟨fun n hn => hvalue (what := .mlen) ?_, fun hn => hnoval ?_, fun j b hj hb => hvalue (what := .msg) ?_,
    fun j hj hb => hnoval ?_, fun n hph hn => hvalue (what := .nblk) ?_, fun h => hnoval ?_, hnoval rfl⟩
  · rw [hostRead, hn, Option.map_some]
  · rw [hostRead, hn, Option.map_none]
  · rw [hostRead, if_pos hj, hb, Option.map_some]
  · rw [hostRead, if_pos hj, hb, Option.map_none]
  · have hread : nblkReadable (s.unit u).pos.phase = true := by
      cases hp : (s.unit u).pos.phase <;> simp_all [nblkReadable]
    rw [hostRead, if_pos hread, hn, Option.map_some]
  · rw [hostRead]
    obtain hph | hn := h
    · have hread : ¬ nblkReadable (s.unit u).pos.phase = true := by
        cases hp : (s.unit u).pos.phase <;> simp_all [nblkReadable]
      rw [if_neg hread]
    · rw [hn, Option.map_none, ite_self]

/-! ### Reset -/

/-- Settles O48: a reset gives both units their reset values. -/
theorem resetLeavesEverythingNoval : Obligations.ResetLeavesEverythingNoval := by
  intro s hm
  refine ⟨_, step_of_nextMove hm, fun u => ?_⟩
  rw [resetMove_unit, State.unit_withSched]
  exact ⟨rfl, rfl, rfl, rfl, rfl, rfl, fun _ => ⟨rfl, rfl, rfl, rfl⟩, Cells.noval_get,
    fun k => ⟨Cells.noval_get k, Cells.noval_get k⟩, rfl, rfl⟩

end Sys2Proof.Machine
end

section
/-! PROOFS. The SHA-256 constants as root fractions of the first primes (spec/10_state.md R33, R34). -/

namespace Sys2Proof.Machine

/-- Below `18^2` a number is prime exactly if no smaller number from 2 to 17 divides it. -/
theorem prime_iff_of_lt {p : Nat} (hp : p < 18 ^ 2) : p.Prime ↔ 2 ≤ p ∧ ∀ m < 18, 2 ≤ m → m < p → ¬ m ∣ p := by
  refine ⟨fun h => ⟨h.two_le, fun m _ hm2 hmp hd => ?_⟩, fun ⟨h2, h⟩ => Nat.prime_def_le_sqrt.mpr ⟨h2, fun m hm2 hm => ?_⟩⟩
  · obtain rfl | rfl := (Nat.dvd_prime h).mp hd <;> omega
  · have hsqrt : Nat.sqrt p < 18 := Nat.sqrt_lt'.mpr hp
    exact h m (by omega) hm2 (lt_of_le_of_lt hm (Nat.sqrt_lt_self h2))

/-- Settles O8: each root lies between its first 32 fractional bits and the next such fraction, and trial division finds the primes. The
numbers below 312 are tried in rows of 18. -/
theorem sha256ConstantsAreRootFractions : Obligations.Sha256ConstantsAreRootFractions := by
  refine ⟨by decide, by decide, fun p hp => ?_, by decide, by decide⟩
  rw [prime_iff_of_lt (by omega)]
  obtain ⟨a, b, rfl⟩ : ∃ a b : Fin 18, 18 * a.val + b.val = p :=
    ⟨⟨p / 18, by omega⟩, ⟨p % 18, by omega⟩, Nat.div_add_mod p 18⟩
  revert a b hp
  decide

end Sys2Proof.Machine
end

section
/-! PROOFS. A unit's own move and a host's access act on that unit alone (spec/10_state.md R20; spec/20_memory.md R67, R69, R71): the two
units commute, and the host disturbs no computation (spec/44_sequencer.md R187; spec/70_reset_and_hazards.md R255, R256). -/

namespace Sys2Proof.Machine

/-! ### Acting on one unit -/

/-- What `m` does is a function of unit `u`'s state put back in its place: it neither reads nor writes the other unit or the schedule. -/
def ActsOn (u : UnitId) (m : State → Host.Outcome State Fault Refusal) : Prop :=
  ∃ f : UnitState u → UnitOutcome u, ∀ s, m s = s.onUnit u f

theorem onUnit_setUnit (s : State) (u : UnitId) (x : UnitState u) (f : UnitState u → UnitOutcome u) :
    (s.setUnit u x).onUnit u f = s.onUnit u fun _ => f x := by
  simp only [State.onUnit, State.unit_setUnit, State.setUnit_setUnit]

/-- The function may be given for one content of the unit at a time. -/
theorem ActsOn.of_each {u : UnitId} {m : State → Host.Outcome State Fault Refusal}
    (h : ∀ x : UnitState u, ∃ f : UnitState u → UnitOutcome u, ∀ s, s.unit u = x → m s = s.onUnit u f) : ActsOn u m := by
  choose f hf using h
  exact ⟨fun x => f x x, fun s => hf _ s rfl⟩

theorem ActsOn.after_update {u : UnitId} {m : State → Host.Outcome State Fault Refusal} (h : ActsOn u m)
    (g : UnitState u → UnitState u) : ActsOn u fun s => m (s.setUnit u (g (s.unit u))) := by
  obtain ⟨f, hf⟩ := h
  exact ⟨fun x => f (g x), fun s => (hf _).trans (onUnit_setUnit ..)⟩

/-- The other unit keeps everything (R20). -/
theorem ActsOn.unit_eq_of_ne {u v : UnitId} {m : State → Host.Outcome State Fault Refusal} (h : ActsOn u m) {s t : State}
    (ht : m s = .next t) (hv : v ≠ u) : t.unit v = s.unit v := by
  obtain ⟨f, hf⟩ := h
  rw [hf] at ht
  obtain ⟨y, -, rfl⟩ := onUnit_next.mp ht
  exact State.unit_setUnit_of_ne s hv y

/-- Two actions, one on each unit, commute (R69). -/
theorem ActsOn.commute {m₁ m₂ : State → Host.Outcome State Fault Refusal} (h₁ : ActsOn .s1 m₁) (h₂ : ActsOn .s256 m₂) {s a b : State}
    (ha : m₁ s = .next a) (hb : m₂ s = .next b) : ∃ t, m₂ a = .next t ∧ m₁ b = .next t := by
  obtain ⟨f, hf⟩ := h₁
  obtain ⟨g, hg⟩ := h₂
  rw [hf] at ha
  rw [hg] at hb
  obtain ⟨x, hx, rfl⟩ := onUnit_next.mp ha
  obtain ⟨y, hy, rfl⟩ := onUnit_next.mp hb
  exact ⟨(s.setUnit .s1 x).setUnit .s256 y, (hg _).trans (onUnit_of_next hy), (hf _).trans (onUnit_of_next hx)⟩

/-! ### A unit's own move -/

/-- The microprogram gives words at the busy positions of R191 only (R200). -/
theorem legalPos_of_uop {u : UnitId} {ph : Phase} {st : Nat} {w : OpWord} (h : uop u ph st = some w) :
    busy ph = true ∧ legalPos u ⟨ph, 0, st⟩ := by
  cases ph with
  | idle | finalized | failed => nomatch h
  | start | finalizing =>
    refine ⟨rfl, rfl, show st ≤ 1 from ?_⟩
    simp only [uop] at h
    split_ifs at h <;> omega
  | padding =>
    refine ⟨rfl, rfl, show st = 0 from ?_⟩
    simp only [uop] at h
    split_ifs at h
    assumption
  | processingBlock =>
    have hnw := sixteen_lt_nw u
    refine ⟨rfl, show st ≤ Config.nw u + Config.nr u + 2 from ?_⟩
    simp only [uop] at h
    split_ifs at h <;> omega

/-- Each word of the microprogram is that of a well-formed operation of the unit which stands at the position (R200). -/
theorem exists_positionOf_of_uop {u : UnitId} {ph : Phase} {st : Nat} {w : OpWord} (h : uop u ph st = some w) :
    ∃ i : Instr, i.unit = u ∧ WellFormed i = true ∧ positionOf i = some (ph, st) :=
  exists_positionOf (p := ⟨ph, 0, st⟩) (legalPos_of_uop h).2 (legalPos_of_uop h).1

theorem exec_actsOn (i : Instr) : ActsOn i.unit (exec i) := ⟨meaning i, exec_eq_onUnit i⟩

theorem start_actsOn (u : UnitId) : ActsOn u (exec (Instr.start u)) := by
  cases u
  · exact exec_actsOn .sha1Start
  · exact exec_actsOn .sha256Start

/-- A sequencer's step is the operation at its position, which is one of its own unit (R82, R201). -/
theorem sequencerStep_actsOn (u : UnitId) : ActsOn u (sequencerStep u) := by
  refine .of_each fun x => ?_
  cases h : uop u x.pos.phase x.pos.step with
  | none =>
    refine ⟨fun _ => .refused .noMicroOperation, ?_⟩
    rintro s rfl
    simp only [sequencerStep, h, State.onUnit]
  | some w =>
    obtain ⟨i, rfl, hw, hp⟩ := exists_positionOf_of_uop h
    refine ⟨meaning i, ?_⟩
    rintro s rfl
    rw [sequencerStep_eq_exec hw hp, exec_eq_onUnit]

theorem command_actsOn (u : UnitId) (w : OpWord) : ActsOn u (command u w) := by
  by_cases hd : decode w = .op (Instr.start u)
  · obtain ⟨f, hf⟩ := (start_actsOn u).after_update (·.answer .accepted)
    exact ⟨f, fun s => (if_pos hd).trans (hf s)⟩
  · refine ⟨fun x => .next (({ x with err := errIllegalCommand }).answer .refused), fun s => ?_⟩
    rw [command, if_neg hd]
    rfl

theorem writeEffect_actsOn (u : UnitId) (w : HostWrite) : ActsOn u (writeEffect u w) := by
  cases w with
  | msg j b =>
    by_cases hj : j ≤ Config.maxMsgAddr
    · refine ⟨fun x => .next (({ x with msg := Memory.write x.msg j b }).answer .accepted), fun s => ?_⟩
      simp only [writeEffect, hj, if_true, State.onUnit]
    · refine ⟨fun x => .next (x.answer .refused), fun s => ?_⟩
      simp only [writeEffect, hj, if_false, State.onUnit]
  | mlen n => exact ⟨fun x => .next (({ x with mlen := some n }).answer .accepted), fun s => rfl⟩
  | cmd c => exact command_actsOn u c
  | status | nblk | otherReg | dig | hex | internal => exact ⟨fun x => .next (x.answer .refused), fun s => rfl⟩

/-- A unit's own move is the operation at its position, or its held write taking effect. -/
theorem unitMove_actsOn (u : UnitId) : ActsOn u (unitMove u) := by
  obtain ⟨f, hf⟩ := sequencerStep_actsOn u
  refine .of_each fun x => ?_
  cases hb : busy x.pos.phase with
  | true =>
    refine ⟨f, ?_⟩
    rintro s rfl
    exact (if_pos hb).trans (hf s)
  | false =>
    cases hw : x.held with
    | none =>
      refine ⟨fun _ => .refused .noStep, ?_⟩
      rintro s rfl
      simp only [unitMove, hb, hw, State.onUnit, Bool.false_eq_true, if_false]
    | some w =>
      obtain ⟨g, hg⟩ := (writeEffect_actsOn u w).after_update fun x => { x with held := none }
      refine ⟨g, ?_⟩
      rintro s rfl
      simp only [unitMove, hb, hw, Bool.false_eq_true, if_false]
      exact hg s

/-- Settles O36: each unit's move acts on its own unit. -/
theorem unitStepsCommute : Obligations.UnitStepsCommute :=
  fun _ _ _ => (unitMove_actsOn .s1).commute (unitMove_actsOn .s256)

/-! ### The host's access -/

theorem hostWrite_of_ready {u : UnitId} {w : HostWrite} {s : State} (hb : busy (s.unit u).pos.phase = false) :
    hostWrite u w s = writeEffect u w s := by
  simp only [hostWrite, hb, Bool.false_eq_true, if_false]

/-- A busy unit holds a write of the message, its length or a command (R71, R187). -/
theorem hostWrite_of_holdable {u : UnitId} {w : HostWrite} {s : State} (hb : busy (s.unit u).pos.phase = true) (hw : holdable w = true) :
    hostWrite u w s = .next (s.setUnit u { s.unit u with held := some w, reply := some .held }) := by
  simp only [hostWrite, hb, hw, if_true]
  rfl

/-- An access to a busy unit changes its host port and the record of a read of `NOVAL` only (R67, R255). -/
theorem hostAccess_of_busy {u : UnitId} (op : HostOp) {s : State} (hb : busy (s.unit u).pos.phase = true) :
    ∃ (held : Option HostWrite) (reply : Option HostReply) (rec : Option Store),
      hostAccess u op s = .next (s.setUnit u { s.unit u with held := held, reply := reply, noValueRead := rec }) := by
  cases op with
  | write w =>
    cases hw : holdable w with
    | true => exact ⟨_, _, _, hostWrite_of_holdable hb hw⟩
    | false => exact ⟨_, _, _, hostWrite_of_not_holdable hw⟩
  | read r =>
    obtain ⟨a, -, hr⟩ | ⟨what, hr⟩ := hostRead_cases r (s.unit u)
    · exact ⟨_, _, _, by rw [hostAccess, hr]; rfl⟩
    · exact ⟨_, _, _, by rw [hostAccess, hr]; rfl⟩

theorem hostAccess_actsOn (u : UnitId) (op : HostOp) : ActsOn u (hostAccess u op) := by
  cases op with
  | write w =>
    obtain ⟨f, hf⟩ := writeEffect_actsOn u w
    refine .of_each fun x => ?_
    cases hb : busy x.pos.phase with
    | false =>
      refine ⟨f, ?_⟩
      rintro s rfl
      exact (hostWrite_of_ready hb).trans (hf s)
    | true =>
      cases hw : holdable w with
      | true =>
        refine ⟨fun x => .next { x with held := some w, reply := some .held }, ?_⟩
        rintro s rfl
        exact hostWrite_of_holdable hb hw
      | false => exact ⟨fun x => .next (x.answer .refused), fun s _ => hostWrite_of_not_holdable hw⟩
  | read r => exact ⟨fun x => .next (hostRead r x), fun s => rfl⟩

/-- A host move acts on the unit accessed, and of a busy one it changes the host port and the record only. -/
theorem hostMove_frame {v : UnitId} {s t : State} (h : hostMove v s = .next t) :
    (∀ w, w ≠ v → t.unit w = s.unit w) ∧ (busy (s.unit v).pos.phase = true →
      ∃ (held : Option HostWrite) (inbox : List HostOp) (reply : Option HostReply) (rec : Option Store),
        t.unit v = { s.unit v with held := held, inbox := inbox, reply := reply, noValueRead := rec }) := by
  obtain ⟨op, rest, -, hop⟩ := hostMove_next h
  refine ⟨fun w hw => ?_, fun hb => ?_⟩
  · rw [(hostAccess_actsOn v op).unit_eq_of_ne hop hw, State.unit_setUnit_of_ne s hw]
  · obtain ⟨held, reply, rec, heq⟩ := hostAccess_of_busy op (s := s.setUnit v { s.unit v with inbox := rest })
      (by rwa [State.unit_setUnit])
    obtain rfl := next_eq.mp (heq.symm.trans hop)
    refine ⟨held, rest, reply, rec, ?_⟩
    rw [State.unit_setUnit, State.unit_setUnit]

/-- Settles O44: the busy unit is the one accessed, whose host port alone changes, or the other one. -/
theorem hostCannotDisturbABusyUnit : Obligations.HostCannotDisturbABusyUnit := by
  intro s t u v hm hb ht
  rw [step_of_nextMove hm] at ht
  obtain ⟨hother, hbusy⟩ := hostMove_frame (v := v) ht
  simp only [State.unit_withSched] at hother hbusy
  refine ⟨?_, hother⟩
  by_cases hu : u = v
  · subst hu
    exact hbusy hb
  · exact ⟨_, _, _, _, hother u hu⟩

/-! ### Held writes, writes in a ready phase, and the digest -/

/-- Settles O39: a holdable write is held, the host waits while it is, and its effect is that of a write in a ready phase. -/
theorem busyWritesAreHeld : Obligations.BusyWritesAreHeld := by
  refine ⟨fun u w s hb _ hw => hostWrite_of_holdable hb ?_, fun s u hheld hm => ?_, fun u w s hb hheld => ?_⟩
  · obtain ⟨j, b, rfl, hj⟩ | ⟨n, rfl⟩ | ⟨c, rfl⟩ := hw
    · exact decide_eq_true hj
    · rfl
    · rfl
  · have he : enabled s (.host u) = true := List.find?_some hm
    simp only [enabled, hostEnabled, Bool.and_eq_true, Option.isNone_iff_eq_none] at he
    exact hheld he.2
  · have hready : hostAccess u (.write w) (s.setUnit u { s.unit u with held := none }) =
        writeEffect u w (s.setUnit u { s.unit u with held := none }) := hostWrite_of_ready (by rwa [State.unit_setUnit])
    rw [hready]
    simp only [unitMove, hb, hheld, Bool.false_eq_true, if_false]

/-- Settles O40: a ready unit's write takes effect, and the byte written is read back at its address alone. -/
theorem readyWritesTakeEffect : Obligations.ReadyWritesTakeEffect := by
  intro u s hb
  refine ⟨fun n => hostWrite_of_ready hb, fun j b hj => ⟨Memory.write (s.unit u).msg j b, ?_, Memory.read_write _ j b⟩⟩
  exact (hostWrite_of_ready hb).trans (if_pos hj)

/-- A byte of the digest is answered in `Finalized` (R71, R256). -/
theorem readDigest_of_finalized {u : UnitId} {x : UnitState u} (what : Store) {m : Memory} {size j : Nat} {b : Byte} (hj : j < size)
    (hph : x.pos.phase = .finalized) (hb : Memory.read m j = some b) : readDigest x what m size j = x.answer (.byte b) := by
  rw [readDigest, if_pos hj, if_pos hph, hb, Option.map_some, UnitState.answerRead_some]

/-- In any other phase, or where the space holds `NOVAL`, there is no value to answer (R71, R235 a). -/
theorem readDigest_of_no_value {u : UnitId} {x : UnitState u} (what : Store) {m : Memory} {size j : Nat} (hj : j < size)
    (h : x.pos.phase ≠ .finalized ∨ Memory.read m j = none) : readDigest x what m size j = x.answerRead what none := by
  rw [readDigest, if_pos hj]
  obtain hph | hm := h
  · rw [if_neg hph]
  · rw [hm, Option.map_none, ite_self]

/-- Settles O42: raw and textual digest are read by one rule, with a value in `Finalized` and without one elsewhere. -/
theorem digestIsReadOnlyWhenFinalized : Obligations.DigestIsReadOnlyWhenFinalized := by
  intro u s
  have hread {r : HostRead} {y : UnitState u} (hr : hostRead r (s.unit u) = y) : hostAccess u (.read r) s = .next (s.setUnit u y) := by
    rw [hostAccess, hr]
  exact ⟨fun j b hj hph hb => hread (readDigest_of_finalized .dig hj hph hb),
    fun j b hj hph hb => hread (readDigest_of_finalized .hex hj hph hb),
    fun j hj h => hread (readDigest_of_no_value .dig hj h),
    fun j hj h => hread (readDigest_of_no_value .hex hj h)⟩

end Sys2Proof.Machine
end

section
/-! PROOFS. Operations and their words: the words that spell an operation, the reserved words, and the words `CMD_u` accepts
(spec/30_encoding.md R81 to R87; spec/60_exceptions.md R223). -/

namespace Sys2Proof.Machine

/-! ### The two checks of the index field -/

theorem zeroIdx_eq_op {idx : Nat} {i j : Instr} : zeroIdx idx i = .op j ↔ idx = 0 ∧ i = j := by
  unfold zeroIdx
  split_ifs with h <;> simp [h]

theorem checkIdx_eq_op {i j : Instr} : checkIdx i = .op j ↔ WellFormed i = true ∧ i = j := by
  unfold checkIdx
  split_ifs with h <;> simp [h]

theorem exists_zeroIdx_eq_reserved {idx : Nat} {i : Instr} : (∃ why, zeroIdx idx i = .reserved why) ↔ idx ≠ 0 := by
  unfold zeroIdx
  split_ifs with h <;> simp [h]

theorem exists_checkIdx_eq_reserved {i : Instr} : (∃ why, checkIdx i = .reserved why) ↔ WellFormed i = false := by
  unfold checkIdx
  split_ifs with h <;> simp [h]

/-! ### The opcode map -/

/-- The opcode map gives an operation of the unit with these fields, its index legal (R83, R84). -/
theorem fields_of_decodeOp {u : UnitId} {op idx : Nat} {i : Instr} (h : decodeOp u op idx = .op i) :
    i.unit = u ∧ opIdx i = (op, idx) ∧ WellFormed i = true := by
  unfold decodeOp at h
  split at h
  case h_5 | h_6 | h_8 | h_17 | h_18 | h_20 =>
    obtain ⟨hw, rfl⟩ := checkIdx_eq_op.mp h
    exact ⟨rfl, rfl, hw⟩
  case h_25 => nomatch h
  all_goals
    obtain ⟨rfl, rfl⟩ := zeroIdx_eq_op.mp h
    exact ⟨rfl, rfl, rfl⟩

/-- The fields the opcode map reserves: an `op` without a row (R83), or an index outside the range of R84. -/
theorem exists_decodeOp_eq_reserved (u : UnitId) {op : Nat} (idx : Nat) (hop : op < 16) :
    (∃ why, decodeOp u op idx = .reserved why) ↔
      (op = 0x0 ∨ op = 0xD ∨ op = 0xE ∨ op = 0xF ∨ (op = 0x5 ∧ 15 < idx) ∨ (op = 0x6 ∧ (idx < 16 ∨ Config.nw u - 1 < idx)) ∨
        (op = 0x8 ∧ Config.nr u - 1 < idx) ∨ (op ≠ 0x5 ∧ op ≠ 0x6 ∧ op ≠ 0x8 ∧ idx ≠ 0)) := by
  match op, hop with
  | 0x0, _ | 0xD, _ | 0xE, _ | 0xF, _ => cases u <;> simp [decodeOp]
  | 0x5, _ | 0x6, _ | 0x8, _ => cases u <;> simp [decodeOp, exists_checkIdx_eq_reserved, WellFormed, imp_iff_not_or]
  | 0x1, _ | 0x2, _ | 0x3, _ | 0x4, _ | 0x7, _ | 0x9, _ | 0xA, _ | 0xB, _ | 0xC, _ => cases u <;> simp [decodeOp, exists_zeroIdx_eq_reserved]
  | n + 16, h => omega

/-! ### Words -/

theorem slice_lt (x hi lo : Nat) : slice x hi lo < 2 ^ (hi - lo + 1) := Nat.mod_lt _ (Nat.two_pow_pos _)

theorem unitAlg_algUnit {a : Nat} (ha : a < 2) : unitAlg (algUnit a) = a := by
  obtain rfl | rfl : a = 0 ∨ a = 1 := by omega
  · rfl
  · rfl

/-- A word is the sum of its four fields (R81). -/
theorem toNat_eq_sum_of_slices (w : OpWord) :
    w.toNat = slice w.toNat 15 15 * 2 ^ 15 + slice w.toNat 14 12 * 2 ^ 12 + slice w.toNat 11 8 * 2 ^ 8 + slice w.toNat 7 0 := by
  have hw := w.isLt
  simp only [slice]
  omega

theorem decode_eq_op {w : OpWord} {i : Instr} : decode w = .op i ↔
    slice w.toNat 14 12 = 0 ∧ decodeOp (algUnit (slice w.toNat 15 15)) (slice w.toNat 11 8) (slice w.toNat 7 0) = .op i := by
  unfold decode
  split_ifs with h
  · simp [h]
  · exact (and_iff_right (not_not.mp h)).symm

theorem exists_decode_eq_reserved {w : OpWord} : (∃ why, decode w = .reserved why) ↔
    slice w.toNat 14 12 ≠ 0 ∨
      ∃ why, decodeOp (algUnit (slice w.toNat 15 15)) (slice w.toNat 11 8) (slice w.toNat 7 0) = .reserved why := by
  unfold decode
  split_ifs with h <;> simp [h]

/-- The words that spell an operation are the encodings of the well-formed ones (R81, R84, R87). -/
theorem decode_eq_op_iff_encode {w : OpWord} {i : Instr} : decode w = .op i ↔ WellFormed i = true ∧ encode i = w := by
  refine ⟨fun h => ?_, fun ⟨hw, he⟩ => he ▸ decode_encode hw⟩
  obtain ⟨hzero, hop⟩ := decode_eq_op.mp h
  obtain ⟨hunit, hfields, hw⟩ := fields_of_decodeOp hop
  have halg : unitAlg i.unit = slice w.toNat 15 15 := hunit ▸ unitAlg_algUnit (slice_lt _ 15 15)
  have hsum := toNat_eq_sum_of_slices w
  rw [hzero, Nat.zero_mul, Nat.add_zero] at hsum
  refine ⟨hw, ?_⟩
  rw [encode, halg, hfields, ← hsum, BitVec.ofNat_toNat, BitVec.setWidth_eq]

/-- Settles O2: each operation's word is read back as the operation. -/
theorem decodeReturnsEncodedOperation : Obligations.DecodeReturnsEncodedOperation := fun _ => decode_encode

/-- Settles O3: a word is the sum of its fields, and those of a word that spells an operation are the operation's own. -/
theorem decodedWordIsTheEncoding : Obligations.DecodedWordIsTheEncoding := fun _ _ => decode_eq_op_iff_encode.mp

/-- Settles O4: a word is reserved for its bits 14:12, or for what the opcode map reserves. -/
theorem reservedWordsAreExactlyThese : Obligations.ReservedWordsAreExactlyThese := by
  intro w
  have halg : slice w.toNat 15 15 = w.toNat / 2 ^ 15 := Nat.mod_eq_of_lt (by have := w.isLt; omega)
  have hidx : slice w.toNat 7 0 = w.toNat % 2 ^ 8 := congrArg (· % 2 ^ 8) (Nat.div_one _)
  -- `NR(u)` is `NW(u)` for both units (R4), so this is the last index of `WEXP` and of `ROUND`.
  have hlast (a : Nat) : Config.nw (algUnit a) - 1 = if a = 0 then 79 else 63 := by unfold algUnit; split_ifs <;> rfl
  rw [exists_decode_eq_reserved, exists_decodeOp_eq_reserved _ _ (slice_lt _ 11 8), halg, hidx, hlast]
  rfl

/-- Settles O38: `START` alone has the word `0x0100` or `0x8100`, and a ready unit's command is its `START` or an illegal one. -/
theorem onlyStartIsAcceptedByCmd : Obligations.OnlyStartIsAcceptedByCmd := by
  refine ⟨fun w => ⟨?_, ?_⟩, fun u w s hb => ⟨fun hd => ?_, fun hd => ?_⟩⟩
  · exact decode_eq_op_iff_encode.trans ⟨fun h => h.2.symm, fun h => ⟨rfl, h.symm⟩⟩
  · exact decode_eq_op_iff_encode.trans ⟨fun h => h.2.symm, fun h => ⟨rfl, h.symm⟩⟩
  · exact (hostWrite_of_ready hb).trans (if_neg hd)
  · exact (hostWrite_of_ready hb).trans (if_pos hd)

/-- Settles O1, by running the decoder on the ten words. -/
theorem sampleWordsDecode : Obligations.SampleWordsDecode := by
  unfold Obligations.SampleWordsDecode
  decide

end Sys2Proof.Machine
end

section
/-! PROOFS. The padder: the padded message in its four parts, its length and that it determines the message
(spec/40_padder.md R101 to R107), and what `PAD` writes (R104). -/

namespace Sys2Proof.Machine

/-! ### The padding bytes -/

/-- `z`, the number of zero bytes between the marker and the length (R102). -/
def zeroCount (n : Nat) : Nat := 64 * blockCount n - n - 9

/-- The length field of a message of `n` bytes: its bit length in 8 bytes, big-endian (R102). -/
def lengthField (n : Nat) : List Byte := [56, 48, 40, 32, 24, 16, 8, 0].map fun e => BitVec.ofNat 8 (8 * n / 2 ^ e)

/-- The four parts of the padded message fill its blocks (R101, R102). -/
theorem parts_eq_blocks (n : Nat) : n + (1 + zeroCount n + 8) = 64 * blockCount n := by
  unfold zeroCount blockCount
  omega

theorem padByte_marker (n : Nat) : padByte n n = 0x80 := if_pos rfl

theorem padByte_zero {n j : Nat} (hn : n < j) (hj : j < 64 * blockCount n - 8) : padByte n j = 0 := by
  rw [padByte, if_neg (Nat.ne_of_gt hn), if_pos hj]

theorem padByte_length {n i : Nat} (hi : i < 8) :
    padByte n (n + (1 + zeroCount n + i)) = BitVec.ofNat 8 (8 * n / 2 ^ (8 * (7 - i))) := by
  have hparts := parts_eq_blocks n
  have hexp : 64 * blockCount n - 1 - (n + (1 + zeroCount n + i)) = 7 - i := by omega
  rw [padByte, if_neg (by omega), if_neg (by omega), hexp]
  exact BitVec.eq_of_toNat_eq (by simp)

theorem map_padByte_zeros (n : Nat) :
    (List.range (1 + zeroCount n)).map (fun i => padByte n (n + i)) = 0x80 :: List.replicate (zeroCount n) 0 := by
  have hparts := parts_eq_blocks n
  rw [Nat.add_comm, List.range_succ_eq_map, List.map_cons, Nat.add_zero, padByte_marker]
  have hzero : ∀ i ∈ List.range (zeroCount n), padByte n (n + (i + 1)) = 0 := fun i hi => by
    have := List.mem_range.mp hi
    exact padByte_zero (by omega) (by omega)
  rw [List.map_map, Function.comp_def, List.map_congr_left hzero, List.map_const', List.length_range]

theorem map_padByte_length (n : Nat) :
    (List.range 8).map (fun i => padByte n (n + (1 + zeroCount n + i))) = lengthField n :=
  List.map_congr_left fun _ hi => padByte_length (List.mem_range.mp hi)

/-! ### The padded message -/

theorem map_range_getD (m : List Byte) (f : Nat → Byte) : (List.range m.length).map (fun j => m[j]?.getD (f j)) = m := by
  refine List.ext_getElem (by simp) fun i _ hi => ?_
  simp [hi]

/-- The padded message is the message, the marker, the zero bytes and the length field (R102). -/
theorem padmsg_eq_append (m : List Byte) :
    padmsg m = m ++ [0x80] ++ List.replicate (zeroCount m.length) 0 ++ lengthField m.length := by
  have hpast (i : Nat) : m[m.length + i]? = none := List.getElem?_eq_none (Nat.le_add_right ..)
  rw [padmsg, ← parts_eq_blocks, List.range_add, List.range_add]
  simp only [List.map_append, List.map_map, Function.comp_def, map_range_getD, hpast, Option.getD_none,
    map_padByte_zeros, map_padByte_length, List.append_assoc, List.cons_append, List.nil_append]

@[simp] theorem length_padmsg (m : List Byte) : (padmsg m).length = 64 * blockCount m.length := by simp [padmsg]

/-- Settles O9: the bytes by `padmsg_eq_append`; fewer zeros than 64, and the least `k` is the only one below 512. -/
theorem paddedMessageIsMessageMarkerZerosLength : Obligations.PaddedMessageIsMessageMarkerZerosLength := by
  intro m n z k
  have hz : z ≤ 63 := by unfold z blockCount; omega
  have hbits : 8 * n + 1 + k + 64 = 512 * blockCount n := by
    have hparts : n + (1 + z + 8) = 64 * blockCount n := parts_eq_blocks n
    omega
  exact ⟨padmsg_eq_append m, by omega, fun k' hk' => by omega, hbits⟩

/-- Two numbers that agree above a byte and in that byte agree from that byte upwards. -/
theorem div_eq_of_byte_eq {a b e : Nat} (hhigh : a / 2 ^ (e + 8) = b / 2 ^ (e + 8))
    (hbyte : BitVec.ofNat 8 (a / 2 ^ e) = BitVec.ofNat 8 (b / 2 ^ e)) : a / 2 ^ e = b / 2 ^ e := by
  have hmod := congrArg BitVec.toNat hbyte
  rw [Nat.pow_add, ← Nat.div_div_eq_div_mul, ← Nat.div_div_eq_div_mul] at hhigh
  rw [BitVec.toNat_ofNat, BitVec.toNat_ofNat] at hmod
  omega

/-- The length field determines a legal length: byte by byte, from the most significant. -/
theorem lengthField_injective {n n' : Nat} (hn : 8 * n < 2 ^ 64) (hn' : 8 * n' < 2 ^ 64) (h : lengthField n = lengthField n') :
    n = n' := by
  simp only [lengthField, List.map_cons, List.map_nil, List.cons.injEq] at h
  obtain ⟨h56, h48, h40, h32, h24, h16, h8, h0, -⟩ := h
  have h64 : 8 * n / 2 ^ 64 = 8 * n' / 2 ^ 64 := by rw [Nat.div_eq_of_lt hn, Nat.div_eq_of_lt hn']
  have hupper := div_eq_of_byte_eq (div_eq_of_byte_eq (div_eq_of_byte_eq (div_eq_of_byte_eq h64 h56) h48) h40) h32
  have hall := div_eq_of_byte_eq (div_eq_of_byte_eq (div_eq_of_byte_eq (div_eq_of_byte_eq hupper h24) h16) h8) h0
  omega

/-- Legal messages with one padded message have one length, that in its last 8 bytes, and are its beginning (R105 d). -/
theorem padmsg_injective {m m' : List Byte} (hm : 8 * m.length < 2 ^ 64) (hm' : 8 * m'.length < 2 ^ 64)
    (h : padmsg m = padmsg m') : m = m' := by
  rw [padmsg_eq_append, padmsg_eq_append] at h
  obtain ⟨hbody, hfield⟩ := List.append_inj' h (by simp [lengthField])
  have hlen := lengthField_injective hm hm' hfield
  rw [List.append_assoc, List.append_assoc] at hbody
  exact List.append_inj_left hbody hlen

/-- Settles O10: the length is that of the blocks, and the padded message determines the message. -/
theorem paddingIsWholeBlocksAndInjective : Obligations.PaddingIsWholeBlocksAndInjective := by
  refine ⟨fun m => ?_, fun m m' => padmsg_injective⟩
  rw [length_padmsg]
  unfold blockCount
  exact ⟨rfl, by omega, by omega, fun _ => by omega⟩

/-! ### `PAD` -/

theorem padUnit_of_message {u : UnitId} {x : UnitState u} {n : Nat} (hph : x.pos.phase = .padding) (hst : x.pos.step = 0)
    (hm : x.mlen = some n) (hn : 8 * n < 2 ^ 64) (hmsg : ∀ j, j < n → (Memory.read x.msg j).isSome = true) :
    padUnit x = .next { x with
      nblk := some (blockCount n), pm := Memory.putBytes x.pm 0 (pmBytes x.msg n), pos := ⟨.processingBlock, 0, 0⟩ } := by
  refine padUnit_next.mpr ⟨⟨hph, hst⟩, .inl ⟨n, hm, hn, ?_⟩⟩
  rw [missingByte_pmBytes.mpr hmsg, UnitState.record_false]
  rfl

/-- `PM_u` after `PAD`, address by address in the order of R103's cases. -/
theorem read_pm_after_pad (msg pm : Memory) (n j : Nat) :
    Memory.read (Memory.putBytes pm 0 (pmBytes msg n)) j =
      if j < n then Memory.read msg j
      else if j = n then some 0x80
      else if j < 64 * blockCount n - 8 then some 0x00
      else if j < 64 * blockCount n then some (BitVec.ofNat 8 (8 * n / 2 ^ (8 * (64 * blockCount n - 1 - j)) % 256))
      else Memory.read pm j := by
  have hparts := parts_eq_blocks n
  rw [read_putBytes_pmBytes]
  by_cases hj : j < 64 * blockCount n
  · simp only [if_pos hj, pmByte, padByte, apply_ite some]
  · rw [if_neg hj, if_neg (by omega), if_neg (by omega), if_neg (by omega), if_neg hj]

/-- Settles O15: `PAD` on a legal message that is there, and each address of the space it wrote; the same on both units. -/
theorem padWritesThePaddedMessage : Obligations.PadWritesThePaddedMessage :=
  ⟨by decide, by decide,
    fun _ _ hph hst hm hn hmsg =>
      ⟨_, onUnit_of_next (u := .s1) (padUnit_of_message hph hst hm hn hmsg), read_pm_after_pad _ _ _⟩,
    fun _ _ hph hst hm hn hmsg =>
      ⟨_, onUnit_of_next (u := .s256) (padUnit_of_message hph hst hm hn hmsg), read_pm_after_pad _ _ _⟩⟩

end Sys2Proof.Machine
end

section
/-! PROOFS. The scheduler: what `WLOAD` and `WEXP` write where their sources hold values (spec/41_scheduler.md R121 to R127), that
`EXPAND_u` meets its recurrence (R129), and that the scheduler's steps leave it in `W_u`. -/

namespace Sys2Proof.Machine

/-! ### `WLOAD` and `WEXP` on values -/

/-- A schedule entry made of values: nothing is recorded. -/
theorem schedule_some {u : UnitId} {x : UnitState u} {i : Nat} (k : Store) (y : Word) (hph : x.pos.phase = .processingBlock)
    (hst : x.pos.step = i) :
    x.schedule i k (some y) = { x with w := x.w.put i (some y), pos := ⟨.processingBlock, x.pos.blk, i + 1⟩ } := by
  simp [UnitState.schedule, UnitState.advance, hph, hst]

theorem wloadUnit_of_word {u : UnitId} {x : UnitState u} {j : Nat} {y : Word} (hj : j ≤ 15) (hph : x.pos.phase = .processingBlock)
    (hst : x.pos.step = j) (hpm : Memory.readWord x.pm (64 * x.pos.blk + 4 * j) = some y) :
    wloadUnit j x = .next { x with w := x.w.put j (some y), pos := ⟨.processingBlock, x.pos.blk, j + 1⟩ } := by
  refine wloadUnit_next.mpr ⟨hj, ⟨hph, hst⟩, ?_⟩
  rw [hpm, schedule_some .pm y hph hst]

theorem wexpS1_of_words {x : UnitState .s1} {i : Nat} {w3 w8 w14 w16 : Word} (hi : 16 ≤ i ∧ i ≤ 79)
    (hph : x.pos.phase = .processingBlock) (hst : x.pos.step = i) (h3 : x.w.at (i - 3) = some w3) (h8 : x.w.at (i - 8) = some w8)
    (h14 : x.w.at (i - 14) = some w14) (h16 : x.w.at (i - 16) = some w16) :
    wexpS1 i x = .next { x with
      w := x.w.put i (some (expandS1 w3 w8 w14 w16)), pos := ⟨.processingBlock, x.pos.blk, i + 1⟩ } := by
  refine wexpS1_next.mpr ⟨hi, ⟨hph, hst⟩, ?_⟩
  rw [h3, h8, h14, h16, fromFour, schedule_some .w _ hph hst]

theorem wexpS256_of_words {x : UnitState .s256} {i : Nat} {w16 w15 w7 w2 : Word} (hi : 16 ≤ i ∧ i ≤ 63)
    (hph : x.pos.phase = .processingBlock) (hst : x.pos.step = i) (h16 : x.w.at (i - 16) = some w16)
    (h15 : x.w.at (i - 15) = some w15) (h7 : x.w.at (i - 7) = some w7) (h2 : x.w.at (i - 2) = some w2) :
    wexpS256 i x = .next { x with
      w := x.w.put i (some (expandS256 w16 w15 w7 w2)), pos := ⟨.processingBlock, x.pos.blk, i + 1⟩ } := by
  refine wexpS256_next.mpr ⟨hi, ⟨hph, hst⟩, ?_⟩
  rw [h16, h15, h7, h2, fromFour, schedule_some .w _ hph hst]

/-- The SHA-256 recurrence as a wrapping sum (R127). -/
theorem expandS256_eq_add (w16 w15 w7 w2 : Word) : expandS256 w16 w15 w7 w2 = w16 + ssig0 w15 + w7 + ssig1 w2 := add32_four ..

/-- Settles O16: the four bytes read make the Word, and the entry is there in both schedules. -/
theorem wloadReadsABigEndianWord : Obligations.WloadReadsABigEndianWord := by
  refine ⟨fun j _ => by simp [encode, Instr.unit, unitAlg, opIdx], fun s j hj b0 b1 b2 b3 hph hst h0 h1 h2 h3 => ?_,
    fun s j hj b0 b1 b2 b3 hph hst h0 h1 h2 h3 => ?_⟩
  · rw [← Cells.put_eq_set]
    exact onUnit_of_next (u := .s1) (wloadUnit_of_word hj hph hst (Memory.readWord_eq_some h0 h1 h2 h3))
  · rw [← Cells.put_eq_set]
    exact onUnit_of_next (u := .s256) (wloadUnit_of_word hj hph hst (Memory.readWord_eq_some h0 h1 h2 h3))

/-- Settles O17: the four sources lie in the schedule and hold Words, so the entry is the recurrence on them. -/
theorem sha1WexpFollowsTheRecurrence : Obligations.Sha1WexpFollowsTheRecurrence := by
  refine ⟨fun i _ _ => by simp [encode, Instr.unit, unitAlg, opIdx], fun s i hlo hhi w3 w8 w14 w16 hph hst h3 h8 h14 h16 => ?_⟩
  rw [← Cells.at_of_lt] at h3 h8 h14 h16
  rw [← Cells.put_eq_set]
  exact onUnit_of_next (u := .s1) (wexpS1_of_words ⟨hlo, hhi⟩ hph hst h3 h8 h14 h16)

/-- Settles O18: as O17, the recurrence being the wrapping sum. -/
theorem sha256WexpFollowsTheRecurrence : Obligations.Sha256WexpFollowsTheRecurrence := by
  refine ⟨fun i _ _ => by simp [encode, Instr.unit, unitAlg, opIdx], fun s i hlo hhi w16 w15 w7 w2 hph hst h16 h15 h7 h2 => ?_⟩
  rw [← Cells.at_of_lt] at h16 h15 h7 h2
  rw [← Cells.put_eq_set]
  refine (onUnit_of_next (u := .s256) (wexpS256_of_words ⟨hlo, hhi⟩ hph hst h16 h15 h7 h2)).trans ?_
  rw [expandS256_eq_add, ssig0, ssig1]
  rfl

/-! ### `EXPAND_u` -/

theorem wordAt_of_lt {n : Nat} (w : Vector Word n) {i : Nat} (h : i < n) : wordAt w i = w.get ⟨i, h⟩ := dif_pos h

theorem wordAt_ofFn {n : Nat} (f : Fin n → Word) {i : Nat} (h : i < n) : wordAt (Vector.ofFn f) i = f ⟨i, h⟩ := by
  rw [wordAt_of_lt _ h, get_ofFn]

/-- The recurrence at `i` reads entries before `i` only (R122, R124). -/
theorem expandWord_congr {u : UnitId} {w w' : Vector Word (Config.nw u)} {i : Nat} (hi : 16 ≤ i)
    (h : ∀ j, j < i → wordAt w j = wordAt w' j) : expandWord u w i = expandWord u w' i := by
  have hback (d : Nat) (hd : 0 < d) : wordAt w (i - d) = wordAt w' (i - d) := h _ (by omega)
  cases u with
  | s1 => simp only [expandWord, hback 3, hback 8, hback 14, hback 16, Nat.ofNat_pos]
  | s256 => simp only [expandWord, hback 16, hback 15, hback 7, hback 2, Nat.ofNat_pos]

theorem wordAt_expandSteps_zero (u : UnitId) (b : List Byte) {i : Nat} (hi : i < 16) :
    wordAt (expandSteps u b 0) i = blockWord b i := by
  have hnw := sixteen_lt_nw u
  rw [expandSteps, wordAt_ofFn _ (by omega), if_pos hi]

theorem wordAt_expandSteps_succ (u : UnitId) (b : List Byte) (k : Nat) {i : Nat} (hi : i < Config.nw u) :
    wordAt (expandSteps u b (k + 1)) i =
      if i = 16 + k then expandWord u (expandSteps u b k) (16 + k) else wordAt (expandSteps u b k) i := by
  rw [expandSteps, wordAt_ofFn _ hi, ← wordAt_of_lt _ hi]

/-- Later steps of `EXPAND_u` leave the entries made before them. -/
theorem wordAt_expandSteps_add (u : UnitId) (b : List Byte) {k i : Nat} (d : Nat) (hi : i < 16 + k) (hn : i < Config.nw u) :
    wordAt (expandSteps u b (k + d)) i = wordAt (expandSteps u b k) i := by
  induction d with
  | zero => rfl
  | succ d ih => rw [← Nat.add_assoc, wordAt_expandSteps_succ u b _ hn, if_neg (by omega), ih]

/-- An entry of `EXPAND_u` is there as soon as its own step is made. -/
theorem wordAt_expand_eq_steps (u : UnitId) (b : List Byte) {k i : Nat} (hk : 16 + k ≤ Config.nw u) (hi : i < 16 + k) :
    wordAt (expand u b) i = wordAt (expandSteps u b k) i := by
  have hsteps : Config.nw u - 16 = k + (Config.nw u - 16 - k) := by omega
  rw [expand, hsteps, wordAt_expandSteps_add u b _ hi (by omega)]

/-- Entries 0 to 15 of `EXPAND_u` are the block's Words (R129). -/
theorem wordAt_expand_block (u : UnitId) (b : List Byte) {i : Nat} (hi : i < 16) : wordAt (expand u b) i = blockWord b i := by
  rw [wordAt_expand_eq_steps u b (k := 0) (sixteen_lt_nw u).le hi, wordAt_expandSteps_zero u b hi]

/-- Every later entry of `EXPAND_u` is the recurrence on the earlier ones (R122, R124, R129). -/
theorem wordAt_expand_rec (u : UnitId) (b : List Byte) {i : Nat} (hi : 16 ≤ i) (hn : i < Config.nw u) :
    wordAt (expand u b) i = expandWord u (expand u b) i := by
  obtain ⟨k, rfl⟩ := Nat.exists_eq_add_of_le hi
  calc wordAt (expand u b) (16 + k)
      _ = wordAt (expandSteps u b (k + 1)) (16 + k) := wordAt_expand_eq_steps u b (by omega) (by omega)
      _ = expandWord u (expandSteps u b k) (16 + k) := by rw [wordAt_expandSteps_succ u b k hn, if_pos rfl]
      _ = expandWord u (expand u b) (16 + k) :=
        expandWord_congr hi fun j hj => (wordAt_expand_eq_steps u b hn.le hj).symm

/-- A Word of a whole block is made of four bytes that are there (R56). -/
theorem blockWord_eq_be32 {b : List Byte} {j : Nat} (h : 4 * j + 3 < b.length) :
    blockWord b j = be32 b[4 * j] b[4 * j + 1] b[4 * j + 2] b[4 * j + 3] := by
  simp only [blockWord, List.getD_eq_getElem _ _ h, List.getD_eq_getElem _ _ (show 4 * j < b.length by omega),
    List.getD_eq_getElem _ _ (show 4 * j + 1 < b.length by omega), List.getD_eq_getElem _ _ (show 4 * j + 2 < b.length by omega)]

/-- Settles O53: the first entries are the block's Words, the later ones each unit's recurrence. -/
theorem expandMeetsItsRecurrence : Obligations.ExpandMeetsItsRecurrence := by
  intro b h
  refine ⟨fun j => ?_, fun i hi hn => wordAt_expand_rec .s1 b hi hn, fun i hi hn => ?_⟩
  · have hword := blockWord_eq_be32 (b := b) (j := j) (by omega)
    exact ⟨(wordAt_expand_block .s1 b j.isLt).trans hword, (wordAt_expand_block .s256 b j.isLt).trans hword⟩
  · exact (wordAt_expand_rec .s256 b hi hn).trans (expandS256_eq_add ..)

/-! ### The scheduler's steps -/

theorem Cells.at_put_self {n : Nat} (r : Cells n) {i : Nat} (h : i < n) (y : Option Word) : (r.put i y).at i = y := by
  rw [Cells.at_of_lt _ h, Cells.put_get, if_pos rfl]

theorem Cells.at_put_of_ne {n : Nat} (r : Cells n) {i k : Nat} (h : k ≠ i) (y : Option Word) : (r.put i y).at k = r.at k := by
  unfold Cells.at
  split
  next => rw [Cells.put_get, if_neg h]
  next => rfl

/-- A unit before the scheduler's step `t` on the block `b`: the bytes of `b` stand in `PM_u` as the current block (R52), and the first `t`
entries of `W_u` are those of `EXPAND_u` (R129). -/
structure Scheduling {u : UnitId} (x : UnitState u) (b : List Byte) (t : Nat) : Prop where
  phase : x.pos.phase = .processingBlock
  step : x.pos.step = t
  size : b.length = 64
  block : ∀ m, m < 64 → Memory.read x.pm (64 * x.pos.blk + m) = b[m]?
  entries : ∀ k, k < t → x.w.at k = some (wordAt (expand u b) k)

/-- The unit after the scheduler's step `t`: entry `t` is that of `EXPAND_u`, and nothing else but the position is touched. -/
def UnitState.scheduled {u : UnitId} (x : UnitState u) (b : List Byte) (t : Nat) : UnitState u :=
  { x with w := x.w.put t (some (wordAt (expand u b) t)), pos := ⟨.processingBlock, x.pos.blk, t + 1⟩ }

namespace Scheduling

section
variable {u : UnitId} {x : UnitState u} {b : List Byte} {t : Nat}

theorem scheduled (h : Scheduling x b t) (hn : t < Config.nw u) : Scheduling (x.scheduled b t) b (t + 1) where
  phase := rfl
  step := rfl
  size := h.size
  block := h.block
  entries k hk := by
    obtain hlt | rfl := Nat.lt_succ_iff_lt_or_eq.mp hk
    · exact (Cells.at_put_of_ne _ (Nat.ne_of_lt hlt) _).trans (h.entries k hlt)
    · exact Cells.at_put_self _ hn _

/-- After its last step the schedule is `EXPAND_u` (R129). -/
theorem w_eq_full (h : Scheduling x b (Config.nw u)) : x.w = Cells.full (expand u b) :=
  Cells.eq_full fun k => by rw [← wordAt_of_lt _ k.isLt, ← h.entries k k.isLt, Cells.at_of_lt _ k.isLt]

/-- Word `j` of the current block, read from `PM_u` (R56). -/
theorem readWord (h : Scheduling x b t) {j : Nat} (hj : j < 16) :
    Memory.readWord x.pm (64 * x.pos.blk + 4 * j) = some (blockWord b j) := by
  have hsize := h.size
  have hbyte (m : Nat) (hm : m < b.length) : Memory.read x.pm (64 * x.pos.blk + m) = some b[m] :=
    (h.block m (hsize ▸ hm)).trans (List.getElem?_eq_getElem hm)
  rw [blockWord_eq_be32 (by omega)]
  exact Memory.readWord_eq_some (hbyte _ _) (hbyte (4 * j + 1) _) (hbyte (4 * j + 2) _) (hbyte (4 * j + 3) _)

end

section
variable {u : UnitId} {s : State} {b : List Byte} {t : Nat}

theorem position (h : Scheduling (s.unit u) b t) :
    some (Phase.processingBlock, t) = some ((s.unit u).pos.phase, (s.unit u).pos.step) := by rw [h.phase, h.step]

/-- At steps 0 to 15 a unit executes `WLOAD` (R200). -/
theorem sequencerStep_wload (h : Scheduling (s.unit u) b t) (ht : t < 16) :
    sequencerStep u s = .next (s.setUnit u ((s.unit u).scheduled b t)) := by
  have hle : t ≤ 15 := Nat.le_of_lt_succ ht
  have hexec : sequencerStep u s = s.onUnit u (wloadUnit t) := by
    cases u with
    | s1 => exact sequencerStep_eq_exec (i := .sha1Wload t) (decide_eq_true hle) h.position
    | s256 => exact sequencerStep_eq_exec (i := .sha256Wload t) (decide_eq_true hle) h.position
  rw [hexec, UnitState.scheduled, wordAt_expand_block u b ht]
  exact onUnit_of_next (wloadUnit_of_word hle h.phase h.step (h.readWord ht))

/-- At steps 16 to `NW(u)-1` a unit executes `WEXP` (R200). -/
theorem sequencerStep_wexp (h : Scheduling (s.unit u) b t) (ht : 16 ≤ t) (hn : t < Config.nw u) :
    sequencerStep u s = .next (s.setUnit u ((s.unit u).scheduled b t)) := by
  have hback (d : Nat) (hd : 0 < d) := h.entries (t - d) (by omega)
  rw [UnitState.scheduled, wordAt_expand_rec u b ht hn]
  cases u with
  | s1 =>
    have hrange : 16 ≤ t ∧ t ≤ 79 := ⟨ht, Nat.le_of_lt_succ hn⟩
    refine (sequencerStep_eq_exec (i := .sha1Wexp t) (decide_eq_true hrange) h.position).trans (onUnit_of_next ?_)
    exact wexpS1_of_words hrange h.phase h.step (hback 3 (by decide)) (hback 8 (by decide)) (hback 14 (by decide))
      (hback 16 (by decide))
  | s256 =>
    have hrange : 16 ≤ t ∧ t ≤ 63 := ⟨ht, Nat.le_of_lt_succ hn⟩
    refine (sequencerStep_eq_exec (i := .sha256Wexp t) (decide_eq_true hrange) h.position).trans (onUnit_of_next ?_)
    exact wexpS256_of_words hrange h.phase h.step (hback 16 (by decide)) (hback 15 (by decide)) (hback 7 (by decide))
      (hback 2 (by decide))

end

end Scheduling

/-- The step of a busy unit the schedule names is its micro-operation (R201). -/
theorem step_of_sched_unit {u : UnitId} {s : State} {rest : List Move} (hs : s.sched = .unit u :: rest)
    (hb : busy (s.unit u).pos.phase = true) : step s = sequencerStep u { s with sched := rest } := by
  have hen : enabled s (.unit u) = true := by simp [enabled, unitEnabled, hb]
  rw [step_of_nextMove (nextMove_of_sched hs hen), hs, perform, unitMove, State.unit_withSched, if_pos hb, List.tail_cons]

/-- Every step of the scheduler makes the next entry of `EXPAND_u` (R129). -/
theorem Scheduling.step_eq {u : UnitId} {s : State} {b : List Byte} {t : Nat} {rest : List Move} (h : Scheduling (s.unit u) b t)
    (hn : t < Config.nw u) (hs : s.sched = .unit u :: rest) :
    Machine.step s = .next (State.setUnit { s with sched := rest } u ((s.unit u).scheduled b t)) := by
  rw [step_of_sched_unit hs (by rw [h.phase]; rfl)]
  rw [← State.unit_withSched s rest u] at h ⊢
  obtain ht | ht := Nat.lt_or_ge t 16
  · exact h.sequencerStep_wload ht
  · exact h.sequencerStep_wexp ht hn

/-- From step `t` the remaining `k` steps of the scheduler leave `EXPAND_u` in `W_u`. -/
theorem Scheduling.run_eq {u : UnitId} {b : List Byte} {rest : List Move} {k : Nat} {s : State} {t : Nat}
    (h : Scheduling (s.unit u) b t) (hk : t + k = Config.nw u) (hs : s.sched = List.replicate k (.unit u) ++ rest) :
    Host.Core.run Sys2Proof.core k s = .next (State.setUnit { s with sched := rest } u
      { s.unit u with w := Cells.full (expand u b), pos := ⟨.processingBlock, (s.unit u).pos.blk, Config.nw u⟩ }) := by
  induction k generalizing s t with
  | zero =>
    obtain rfl : t = Config.nw u := hk
    obtain rfl : s.sched = rest := hs
    rw [← h.w_eq_full, ← h.step, ← h.phase]
    exact congrArg _ (State.setUnit_unit s u).symm
  | succ k ih =>
    have hn : t < Config.nw u := by omega
    rw [run_succ_of_step (h.step_eq hn hs), ih (t := t + 1) ?_ (by omega) (State.sched_setUnit ..), State.unit_setUnit]
    · cases u <;> rfl
    · rw [State.unit_setUnit]
      exact h.scheduled hn

/-- Settles O54: the run from step 0, where no entry is made yet. -/
theorem schedulerStepsComputeExpand : Obligations.SchedulerStepsComputeExpand := by
  intro u s b rest hb hblk hph hst hs
  have h : Scheduling (s.unit u) b 0 := ⟨hph, hst, hb, hblk, nofun⟩
  exact h.run_eq (Nat.zero_add _) hs

end Sys2Proof.Machine
end

section
/-! PROOFS. The compressor: its logical functions bit by bit (spec/42_compressor.md R143, R149, R150), what `INIT`, `LOADV`, `ROUND` and
`ADDH` write where their sources hold values (R141 to R153), and that the compressor's steps leave `COMPRESS_u` in `H_u` (R155). -/

namespace Sys2Proof.Machine

/-! ### The logical functions -/

/-- A bit of `ch` is chosen by the bit of the first Word (R149). -/
theorem getLsbD_ch (x y z : Word) {k : Nat} (hk : k < 32) :
    (ch x y z).getLsbD k = if x.getLsbD k then y.getLsbD k else z.getLsbD k := by
  rw [ch, BitVec.getLsbD_xor, BitVec.getLsbD_and, BitVec.getLsbD_and, BitVec.getLsbD_not, decide_eq_true hk]
  cases x.getLsbD k <;> simp

/-- A bit of `maj` is the majority of the three (R150). -/
theorem getLsbD_maj (x y z : Word) (k : Nat) :
    (maj x y z).getLsbD k = decide (2 ≤ (x.getLsbD k).toNat + (y.getLsbD k).toNat + (z.getLsbD k).toNat) := by
  rw [maj, BitVec.getLsbD_xor, BitVec.getLsbD_xor, BitVec.getLsbD_and, BitVec.getLsbD_and, BitVec.getLsbD_and]
  generalize x.getLsbD k = a, y.getLsbD k = b, z.getLsbD k = c
  revert a b c
  decide

theorem f1_eq_ch {t : Nat} (ht : t ≤ 19) (x y z : Word) : f1 t x y z = ch x y z := by
  refine BitVec.eq_of_getLsbD_eq fun k hk => ?_
  rw [f1, if_pos ht, getLsbD_ch x y z hk, BitVec.getLsbD_or, BitVec.getLsbD_and, BitVec.getLsbD_and, BitVec.getLsbD_not,
    decide_eq_true hk]
  cases x.getLsbD k <;> simp

theorem f1_eq_maj {t : Nat} (hlo : 40 ≤ t) (hhi : t ≤ 59) (x y z : Word) : f1 t x y z = maj x y z := by
  refine BitVec.eq_of_getLsbD_eq fun k _ => ?_
  rw [f1, if_neg (by omega), if_neg (by omega), if_pos hhi, getLsbD_maj]
  simp only [BitVec.getLsbD_or, BitVec.getLsbD_and]
  generalize x.getLsbD k = a, y.getLsbD k = b, z.getLsbD k = c
  revert a b c
  decide

/-- Settles O7: each function by its bits. -/
theorem logicalFunctionsChooseAndVote : Obligations.LogicalFunctionsChooseAndVote := fun x y z =>
  ⟨fun _ ht => f1_eq_ch ht x y z, fun _ hlo hhi => f1_eq_maj hlo hhi x y z, fun _ hk => getLsbD_ch x y z hk,
    fun k _ => getLsbD_maj x y z k⟩

/-! ### The rounds' sums -/

/-- The SHA-1 round constant of each twenty rounds (R32, R144). -/
theorem k1_eq_ite {t : Nat} (ht : t ≤ 79) :
    k1 t = if t ≤ 19 then 0x5A827999 else if t ≤ 39 then 0x6ED9EBA1 else if t ≤ 59 then 0x8F1BBCDC else 0xCA62C1D6 := by
  have hget {q : Nat} (hq : q < 4) (h : t / 20 = q) : k1 t = Config.k1.get ⟨q, hq⟩ := by
    subst h
    exact dif_pos hq
  split_ifs
  · exact hget (q := 0) (by decide) (by omega)
  · exact hget (q := 1) (by decide) (by omega)
  · exact hget (q := 2) (by decide) (by omega)
  · exact hget (q := 3) (by decide) (by omega)

theorem k256_of_lt {t : Nat} (ht : t < 64) : k256 t = Config.k256.get ⟨t, ht⟩ := dif_pos ht

/-- `temp` of a SHA-1 round as a wrapping sum (R145). -/
theorem tempS1_eq_add (t : Nat) (wt a b c d e : Word) : tempS1 t wt a b c d e = rotl32 a 5 + f1 t b c d + e + wt + k1 t :=
  add32_five ..

/-- `temp1` of a SHA-256 round as a wrapping sum (R151). -/
theorem temp1S256_eq_add (t : Nat) (wt e f g h : Word) : temp1S256 t wt e f g h = h + bsig1 e + ch e f g + k256 t + wt :=
  add32_five ..

/-- `temp2` of a SHA-256 round as a wrapping sum (R151). -/
theorem temp2S256_eq_add (a b c : Word) : temp2S256 a b c = bsig0 a + maj a b c := add32_two ..

theorem roundOf_five (t : Nat) (wt a b c d e : Word) :
    roundOf .s1 t wt #v[a, b, c, d, e] = #v[tempS1 t wt a b c d e, a, rotl32 b 30, c, d] := rfl

theorem roundOf_eight (t : Nat) (wt a b c d e f g h : Word) :
    roundOf .s256 t wt #v[a, b, c, d, e, f, g, h] =
      #v[temp1S256 t wt e f g h + temp2S256 a b c, a, b, c, d + temp1S256 t wt e f g h, e, f, g] := by
  rw [← add32_two, ← add32_two]
  rfl

/-! ### The compressor's operations on values: nothing is recorded -/

section
variable {u : UnitId} {x : UnitState u}

theorem initUnit_at_position (hph : x.pos.phase = .start) (hst : x.pos.step = 1) :
    initUnit x = .next { x with h := Cells.full (Config.iv u), pos := ⟨.padding, 0, 0⟩ } :=
  initUnit_next.mpr ⟨⟨hph, hst⟩, rfl⟩

theorem loadvUnit_of_words (hph : x.pos.phase = .processingBlock) (hst : x.pos.step = Config.nw u)
    (hh : ∀ k, (x.h.get k).isSome = true) :
    loadvUnit x = .next { x with v := x.h, pos := ⟨.processingBlock, x.pos.blk, Config.nw u + 1⟩ } := by
  refine loadvUnit_next.mpr ⟨⟨hph, hst⟩, ?_⟩
  rw [Cells.missing_eq_false.mpr hh, UnitState.record_false, ← hph, ← hst]
  rfl

theorem roundUnit_of_words {t : Nat} {r : Vector Word (Config.ns u)} {wt : Word} (ht : t < Config.nr u)
    (hph : x.pos.phase = .processingBlock) (hst : x.pos.step = Config.nw u + 1 + t) (hv : x.v = Cells.full r)
    (hw : x.w.at t = some wt) :
    roundUnit t x = .next { x with
      v := Cells.full (roundOf u t wt r), pos := ⟨.processingBlock, x.pos.blk, Config.nw u + 1 + t + 1⟩ } := by
  refine roundUnit_next.mpr ⟨ht, ⟨hph, hst⟩, ?_⟩
  rw [hv, hw, Cells.missing_full, Option.isNone_some, UnitState.record_false, UnitState.record_false, roundCells_full, ← hph, ← hst]
  rfl

theorem addhUnit_of_words {h r : Vector Word (Config.ns u)} (hph : x.pos.phase = .processingBlock)
    (hst : x.pos.step = Config.nw u + 1 + Config.nr u) (hh : x.h = Cells.full h) (hv : x.v = Cells.full r) :
    addhUnit x = .next { x with
      h := Cells.full (addWords h r), pos := ⟨.processingBlock, x.pos.blk, Config.nw u + Config.nr u + 2⟩ } := by
  refine addhUnit_next.mpr ⟨⟨hph, hst⟩, ?_⟩
  have hnext : Config.nw u + Config.nr u + 2 = x.pos.step + 1 := by omega
  have hmh : x.h.missing = false := hh ▸ Cells.missing_full h
  have hmv : x.v.missing = false := hv ▸ Cells.missing_full r
  rw [hmh, hmv, UnitState.record_false, UnitState.record_false, ← addCell_full, ← hh, ← hv, ← hph, hnext]
  rfl

end

/-- Settles O14: the initial State is the constant table, written out. -/
theorem initLoadsTheInitialState : Obligations.InitLoadsTheInitialState :=
  ⟨⟨by decide, fun _ hph hst => onUnit_of_next (u := .s1) (initUnit_at_position hph hst)⟩,
    ⟨by decide, fun _ hph hst => onUnit_of_next (u := .s256) (initUnit_at_position hph hst)⟩⟩

/-- Settles O19: a State that holds its Words is copied and nothing is recorded; the same on both units. -/
theorem loadvCopiesTheState : Obligations.LoadvCopiesTheState :=
  ⟨⟨by decide, fun _ hph hst hh => onUnit_of_next (u := .s1) (loadvUnit_of_words hph hst hh)⟩,
    ⟨by decide, fun _ hph hst hh => onUnit_of_next (u := .s256) (loadvUnit_of_words hph hst hh)⟩⟩

/-- Settles O20: the round on five Words, its `temp` and its constant written out. -/
theorem sha1RoundRotatesTheTuple : Obligations.Sha1RoundRotatesTheTuple := by
  refine ⟨fun t _ => by simp [encode, Instr.unit, unitAlg, opIdx], fun s t ht a b c d e wt hph hst hv hw => ?_⟩
  rw [← Cells.at_of_lt] at hw
  have hround := roundUnit_of_words (u := .s1) (r := #v[a, b, c, d, e]) (Nat.lt_succ_of_le ht) hph hst hv hw
  rw [roundOf_five, tempS1_eq_add, k1_eq_ite ht, f1] at hround
  exact onUnit_of_next (u := .s1) hround

/-- Settles O21: the round on eight Words, its `temp1` and `temp2` written out. -/
theorem sha256RoundRotatesTheTuple : Obligations.Sha256RoundRotatesTheTuple := by
  refine ⟨fun t _ => by simp [encode, Instr.unit, unitAlg, opIdx], fun s t ht a b c d e f g h wt hph hst hv hw => ?_⟩
  rw [← Cells.at_of_lt] at hw
  have hround := roundUnit_of_words (u := .s256) (r := #v[a, b, c, d, e, f, g, h]) (Nat.lt_succ_of_le ht) hph hst hv hw
  rw [roundOf_eight, temp1S256_eq_add, temp2S256_eq_add, k256_of_lt (Nat.lt_succ_of_le ht)] at hround
  exact onUnit_of_next (u := .s256) hround

/-- A Word of a component-wise sum, by its value (R10, R153). -/
theorem addWords_get_eq_ofNat {n : Nat} (x y : Vector Word n) (k : Fin n) :
    (addWords x y).get k = BitVec.ofNat 32 (((x.get k).toNat + (y.get k).toNat) % 2 ^ 32) := by
  rw [addWords_get, add32_two, ← BitVec.toNat_add, BitVec.ofNat_toNat, BitVec.setWidth_eq]

/-- Settles O22: the State and the registers are full of `x` and `y`, so the sum is that of `addWords`. -/
theorem addhAddsWordByWord : Obligations.AddhAddsWordByWord :=
  ⟨by decide, by decide,
    fun _ x y hph hst hh hv => ⟨Cells.full (addWords x y), fun k => by rw [Cells.full_get, addWords_get_eq_ofNat],
      onUnit_of_next (u := .s1) (addhUnit_of_words hph hst (Cells.eq_full hh) (Cells.eq_full hv))⟩,
    fun _ x y hph hst hh hv => ⟨Cells.full (addWords x y), fun k => by rw [Cells.full_get, addWords_get_eq_ofNat],
      onUnit_of_next (u := .s256) (addhUnit_of_words hph hst (Cells.eq_full hh) (Cells.eq_full hv))⟩⟩

/-! ### Runs of one unit -/

/-- `k` steps take unit `u` from `x` to `z` where the schedule gives it these steps (R201), and touch nothing else. -/
def RunsTo (u : UnitId) (k : Nat) (x z : UnitState u) : Prop :=
  ∀ (s : State) (rest : List Move), s.unit u = x → s.sched = List.replicate k (.unit u) ++ rest →
    Host.Core.run Sys2Proof.core k s = .next (State.setUnit { s with sched := rest } u z)

theorem RunsTo.refl {u : UnitId} (x : UnitState u) : RunsTo u 0 x x := by
  rintro s rest rfl hs
  obtain rfl : s.sched = rest := hs
  exact congrArg _ (State.setUnit_unit s u).symm

theorem RunsTo.trans {u : UnitId} {j k : Nat} {x y z : UnitState u} (hxy : RunsTo u j x y) (hyz : RunsTo u k y z) :
    RunsTo u (j + k) x z := by
  intro s rest hx hs
  rw [← List.replicate_append_replicate, List.append_assoc] at hs
  rw [run_add (hxy s _ hx hs), hyz _ rest (State.unit_setUnit ..) (State.sched_setUnit ..)]
  cases u <;> rfl

/-- A unit at the position of an operation runs to what the operation answers (R200, R201). -/
theorem RunsTo.of_meaning {i : Instr} {x y : UnitState i.unit} (hw : WellFormed i = true)
    (hp : positionOf i = some (x.pos.phase, x.pos.step)) (hy : meaning i x = .next y) : RunsTo i.unit 1 x y := by
  rintro s rest rfl hs
  replace hs : s.sched = .unit i.unit :: rest := hs
  have hbusy : busy (s.unit i.unit).pos.phase = true := (legalPos_of_uop (uop_positionOf hw hp)).1
  have hstep : step s = .next (State.setUnit { s with sched := rest } i.unit y) := by
    rw [← State.unit_withSched s rest] at hp hy
    rw [step_of_sched_unit hs hbusy, sequencerStep_eq_exec hw hp, exec_eq_onUnit, onUnit_of_next hy]
  exact run_succ_of_step hstep 0

/-! ### The compressor's steps -/

section
variable {u : UnitId}

/-- The unit after `LOADV` and `t` rounds from the State `h` over the schedule `w`: the tuple `v_t` in `V_u` (R155), and nothing else but the
position touched. -/
def UnitState.rounded (x : UnitState u) (h : Vector Word (Config.ns u)) (w : Vector Word (Config.nw u)) (t : Nat) : UnitState u :=
  { x with v := Cells.full (roundsFrom u h w t), pos := ⟨.processingBlock, x.pos.blk, Config.nw u + 1 + t⟩ }

/-- The unit after the compressor's last step: `COMPRESS_u` in `H_u`, the rounds' tuple in `V_u` (R155). -/
def UnitState.compressed (x : UnitState u) (h : Vector Word (Config.ns u)) (w : Vector Word (Config.nw u)) : UnitState u :=
  { x with
    h := Cells.full (compress u h w)
    v := Cells.full (roundsFrom u h w (Config.nr u))
    pos := ⟨.processingBlock, x.pos.blk, Config.nw u + Config.nr u + 2⟩ }

variable {x : UnitState u} {h : Vector Word (Config.ns u)} {w : Vector Word (Config.nw u)}

/-- At step `NW(u)` a unit executes `LOADV` (R200), which makes the State the tuple `v_0` (R155). -/
theorem runsTo_loadv (w : Vector Word (Config.nw u)) (hh : x.h = Cells.full h) (hph : x.pos.phase = .processingBlock)
    (hst : x.pos.step = Config.nw u) : RunsTo u 1 x (x.rounded h w 0) := by
  have hpos : some (Phase.processingBlock, Config.nw u) = some (x.pos.phase, x.pos.step) := by rw [hph, hst]
  have hy : loadvUnit x = .next (x.rounded h w 0) := by
    rw [UnitState.rounded, roundsFrom, ← hh]
    exact loadvUnit_of_words hph hst fun k => by rw [hh, Cells.full_get, Option.isSome_some]
  cases u with
  | s1 => exact .of_meaning (i := .sha1Loadv) rfl hpos hy
  | s256 => exact .of_meaning (i := .sha256Loadv) rfl hpos hy

/-- At step `NW(u)+1+t` a unit executes round `t` (R200), which turns the tuple `v_t` into `v_(t+1)` (R155). -/
theorem runsTo_round {t : Nat} (ht : t < Config.nr u) (hw : x.w = Cells.full w) :
    RunsTo u 1 (x.rounded h w t) (x.rounded h w (t + 1)) := by
  have hentry : (x.rounded h w t).w.at t = some (wordAt w t) := by
    have hlt : t < Config.nw u := by cases u <;> exact ht
    rw [wordAt_of_lt w hlt, Cells.at_of_lt _ hlt, UnitState.rounded, hw, Cells.full_get]
  have hy : roundUnit t (x.rounded h w t) = .next (x.rounded h w (t + 1)) := roundUnit_of_words ht rfl rfl rfl hentry
  cases u with
  | s1 => exact .of_meaning (i := .sha1Round t) (decide_eq_true (Nat.le_of_lt_succ ht)) rfl hy
  | s256 => exact .of_meaning (i := .sha256Round t) (decide_eq_true (Nat.le_of_lt_succ ht)) rfl hy

/-- The rounds leave the tuple `v_t` in `V_u`, after each number `t` of them (R155). -/
theorem runsTo_rounds {t : Nat} (ht : t ≤ Config.nr u) (hw : x.w = Cells.full w) :
    RunsTo u t (x.rounded h w 0) (x.rounded h w t) := by
  induction t with
  | zero => exact .refl _
  | succ t ih => exact (ih (Nat.le_of_succ_le ht)).trans (runsTo_round ht hw)

/-- At step `NW(u)+NR(u)+1` a unit executes `ADDH` (R200), which leaves `COMPRESS_u` in `H_u` (R155). -/
theorem runsTo_addh (hh : x.h = Cells.full h) : RunsTo u 1 (x.rounded h w (Config.nr u)) (x.compressed h w) := by
  have hy : addhUnit (x.rounded h w (Config.nr u)) = .next (x.compressed h w) := addhUnit_of_words rfl rfl hh rfl
  cases u with
  | s1 => exact .of_meaning (i := .sha1Addh) rfl rfl hy
  | s256 => exact .of_meaning (i := .sha256Addh) rfl rfl hy

end

/-- Settles O55: `LOADV` makes the tuple `v_0`, the rounds make the last one, and `ADDH` adds that into the State. -/
theorem compressorStepsComputeCompress : Obligations.CompressorStepsComputeCompress := by
  intro u s h w rest hh hw hph hst hs
  have hrun : RunsTo u (1 + Config.nr u + 1) (s.unit u) ((s.unit u).compressed h w) :=
    ((runsTo_loadv w hh hph hst).trans (runsTo_rounds le_rfl hw)).trans (runsTo_addh hh)
  rw [Nat.add_comm 1] at hrun
  exact hrun s rest rfl hs

end Sys2Proof.Machine
end

section
/-! PROOFS. The finalizer: what `SERIALIZE` and `HEXENC` write where their sources hold values, that the two steps of it compute `FINALIZE`,
and that both forms of a digest have their fixed length and determine the State (spec/43_finalizer.md R171 to R175). -/

namespace Sys2Proof.Machine

/-! ### Hexadecimal characters -/

/-- The code of a digit's character (R173): the digits from `0` on, the letters from `a` on. -/
theorem toNat_hexchar {v : Nat} (hv : v < 16) : (hexchar v).toNat = if v ≤ 9 then 0x30 + v else 0x61 + (v - 10) := by
  unfold hexchar
  split <;> rw [BitVec.toNat_ofNat] <;> omega

theorem hexchar_range {v : Nat} (hv : v < 16) :
    (0x30 ≤ (hexchar v).toNat ∧ (hexchar v).toNat ≤ 0x39) ∨ (0x61 ≤ (hexchar v).toNat ∧ (hexchar v).toNat ≤ 0x66) := by
  rw [toNat_hexchar hv]
  split
  · left; omega
  · right; omega

/-- Different digits have different characters: the letters stand above the digits (R173). -/
theorem hexchar_inj {v w : Nat} (hv : v < 16) (hw : w < 16) (h : hexchar v = hexchar w) : v = w := by
  have hcode := congrArg BitVec.toNat h
  rw [toNat_hexchar hv, toNat_hexchar hw] at hcode
  split at hcode <;> split at hcode <;> omega

/-- The two halves of a byte are hexadecimal digits (R174). -/
theorem nibbles_lt (d : Byte) : d.toNat / 16 < 16 ∧ d.toNat % 16 < 16 :=
  ⟨by omega, Nat.mod_lt _ (by decide)⟩

theorem hexByte_injective : Function.Injective hexByte := by
  intro d e h
  obtain ⟨hdHigh, hdLow⟩ := nibbles_lt d
  obtain ⟨heHigh, heLow⟩ := nibbles_lt e
  obtain ⟨hhigh, hlow⟩ : hexchar (d.toNat / 16) = hexchar (e.toNat / 16) ∧ hexchar (d.toNat % 16) = hexchar (e.toNat % 16) := by
    simpa [hexByte] using h
  have hdiv := hexchar_inj hdHigh heHigh hhigh
  have hmod := hexchar_inj hdLow heLow hlow
  exact BitVec.eq_of_toNat_eq (by omega)

/-- Every character of a text is that of a digit (R173, R174). -/
theorem exists_hexchar_of_mem_hexText {bs : List Byte} {c : Byte} (h : c ∈ hexText bs) : ∃ v < 16, c = hexchar v := by
  obtain ⟨d, -, hc⟩ := List.mem_flatMap.mp h
  obtain ⟨hhigh, hlow⟩ := nibbles_lt d
  obtain rfl | rfl : c = hexchar (d.toNat / 16) ∨ c = hexchar (d.toNat % 16) := by simpa [hexByte] using hc
  · exact ⟨_, hhigh, rfl⟩
  · exact ⟨_, hlow, rfl⟩

/-! ### The raw and the textual digest -/

@[simp] theorem length_rawBytes {n : Nat} (h : Vector Word n) : (rawBytes h).length = 4 * n := by
  simp [rawBytes, List.length_flatMap, wordBytes, Nat.mul_comm]

@[simp] theorem length_hexText (bs : List Byte) : (hexText bs).length = 2 * bs.length := by
  simp [hexText, List.length_flatMap, hexByte, Nat.mul_comm]

/-- The bytes of a Word assemble it again, so they determine it (R15). -/
theorem wordBytes_injective : Function.Injective wordBytes := by
  intro x y h
  obtain ⟨h0, h1, h2, h3⟩ :
      byteOf 0 x = byteOf 0 y ∧ byteOf 1 x = byteOf 1 y ∧ byteOf 2 x = byteOf 2 y ∧ byteOf 3 x = byteOf 3 y := by
    simpa [wordBytes] using h
  rw [← be32_byteOf x, h0, h1, h2, h3, be32_byteOf]

/-- A list of elements is determined by their pieces put together, where each piece has one length and determines its element. -/
theorem flatMap_inj_of_length {α β : Type} {f : α → List β} {c : Nat} (hf : Function.Injective f) (hc : ∀ a, (f a).length = c)
    {l l' : List α} (hl : l.length = l'.length) (h : l.flatMap f = l'.flatMap f) : l = l' := by
  have hlen (l : List α) : (l.map f).map List.length = List.replicate l.length c := by simp [Function.comp_def, hc]
  refine List.map_injective_iff.mpr hf (List.eq_iff_flatten_eq.mpr ⟨?_, ?_⟩)
  · simpa [List.flatMap_def] using h
  · rw [hlen, hlen, hl]

theorem rawBytes_injective {n : Nat} : Function.Injective (rawBytes (n := n)) := fun x y h =>
  Vector.toList_inj.mp (flatMap_inj_of_length (c := 4) wordBytes_injective (fun _ => rfl) (by simp) h)

theorem hexText_inj {bs bs' : List Byte} (hl : bs.length = bs'.length) (h : hexText bs = hexText bs') : bs = bs' :=
  flatMap_inj_of_length (c := 2) hexByte_injective (fun _ => rfl) hl h

/-- Settles O60: Words are determined by their four bytes, bytes by their two characters. -/
theorem finalizeIsInjective : Obligations.FinalizeIsInjective := fun _ _ _ =>
  ⟨fun h => rawBytes_injective h, fun h => rawBytes_injective (hexText_inj (by simp) h)⟩

/-- Settles O59: four bytes to each Word of the State, two characters to each byte. -/
theorem digestHasItsFixedLength : Obligations.DigestHasItsFixedLength := by
  intro u m d hd
  obtain ⟨h, rfl⟩ : ∃ h : Vector Word (Config.ns u), d = finalize h := by
    unfold digest at hd
    split at hd
    · cases hd
    · exact ⟨_, (Option.some.inj hd).symm⟩
  refine ⟨?_, ?_, hx_eq_two_mul_db u, fun c hc => ?_⟩
  · rw [finalize, length_rawBytes, db_eq_four_mul_ns]
  · rw [finalize, length_hexText, length_rawBytes, hx_eq_two_mul_db, db_eq_four_mul_ns]
  · obtain ⟨v, hv, rfl⟩ := exists_hexchar_of_mem_hexText hc
    exact hexchar_range hv

/-! ### `SERIALIZE` and `HEXENC` on values: nothing is recorded -/

/-- A space that holds the bytes `d` from address 0 on is read as them (R18). -/
theorem Memory.readBytes_eq_toList {m : Memory} {n : Nat} {d : Vector Byte n} (hd : ∀ j : Fin n, Memory.read m j.val = some (d.get j)) :
    Memory.readBytes m 0 n = d.toList.map some := by
  have hbytes : Memory.readBytes m 0 d.toList.length = d.toList.map some := Memory.readBytes_eq_map fun j hj => by
    rw [Vector.length_toList] at hj
    simpa [Vector.get_eq_getElem, hj] using hd ⟨j, hj⟩
  rwa [Vector.length_toList] at hbytes

section
variable {u : UnitId} {x : UnitState u}

/-- The unit after `SERIALIZE` (R171): the bytes of `H_u` in `DIG_u`. -/
def UnitState.serialized (x : UnitState u) : UnitState u :=
  { x with dig := Memory.putBytes x.dig 0 (cellBytes x.h), pos := ⟨.finalizing, x.pos.blk, 1⟩ }

/-- The unit after `HEXENC` (R174): the characters of `DIG_u` in `HEX_u`. -/
def UnitState.hexencoded (x : UnitState u) : UnitState u :=
  { x with hex := Memory.putBytes x.hex 0 (hexCells (Memory.readBytes x.dig 0 (Config.db u))), pos := ⟨.finalized, 0, 0⟩ }

theorem serializeUnit_of_words {h : Vector Word (Config.ns u)} (hph : x.pos.phase = .finalizing) (hst : x.pos.step = 0)
    (hh : x.h = Cells.full h) : serializeUnit x = .next x.serialized := by
  have hm : x.h.missing = false := hh ▸ Cells.missing_full h
  refine serializeUnit_next.mpr ⟨⟨hph, hst⟩, ?_⟩
  rw [hm, UnitState.record_false]
  simp [UnitState.serialized, UnitState.advance, hph, hst]

theorem hexencUnit_of_bytes {bs : List Byte} (hph : x.pos.phase = .finalizing) (hst : x.pos.step = 1)
    (hbs : Memory.readBytes x.dig 0 (Config.db u) = bs.map some) : hexencUnit x = .next x.hexencoded := by
  refine hexencUnit_next.mpr ⟨⟨hph, hst⟩, ?_⟩
  rw [hbs, missingByte_map_some, UnitState.record_false, ← hbs]
  rfl

/-- `DIG_u` after `SERIALIZE` of the State `h` (R171): byte `m` of Word `k` at `4*k + m`, the old content beyond. -/
theorem read_dig_serialized {h : Vector Word (Config.ns u)} (hh : x.h = Cells.full h) :
    (∀ (k : Fin (Config.ns u)) (m : Fin 4), Memory.read x.serialized.dig (4 * k.val + m.val) = some (byteOf m.val (h.get k))) ∧
      ∀ a, Config.db u ≤ a → Memory.read x.serialized.dig a = Memory.read x.dig a := by
  obtain ⟨hin, hout⟩ := read_putBytes_cellBytes x.dig x.h
  refine ⟨fun k m => (hin k m).trans ?_, db_eq_four_mul_ns u ▸ hout⟩
  rw [hh, Cells.full_get, Option.map_some]

/-- `HEX_u` after `HEXENC` of the digest bytes `d` (R174): the characters of byte `j` at `2*j` and `2*j + 1`, the old content beyond. -/
theorem read_hex_hexencoded {d : Vector Byte (Config.db u)} (hd : ∀ j : Fin (Config.db u), Memory.read x.dig j.val = some (d.get j)) :
    (∀ j : Fin (Config.db u), Memory.read x.hexencoded.hex (2 * j.val) = some (hexchar ((d.get j).toNat / 16)) ∧
        Memory.read x.hexencoded.hex (2 * j.val + 1) = some (hexchar ((d.get j).toNat % 16))) ∧
      ∀ a, Config.hx u ≤ a → Memory.read x.hexencoded.hex a = Memory.read x.hex a := by
  obtain ⟨hin, hout⟩ := read_putBytes_hexCells x.hex x.dig (Config.db u)
  refine ⟨fun j => ?_, hx_eq_two_mul_db u ▸ hout⟩
  have hchars := hin j.val j.isLt
  rwa [hd j] at hchars

end

/-- Settles O24: a State that holds its Words is serialized and nothing is recorded; the same on both units. -/
theorem serializeWritesBigEndianWords : Obligations.SerializeWritesBigEndianWords :=
  ⟨by decide, by decide,
    fun s _ hph hst hh => ⟨(s.unit .s1).serialized.dig,
      onUnit_of_next (u := .s1) (serializeUnit_of_words hph hst (Cells.eq_full hh)),
      read_dig_serialized (u := .s1) (Cells.eq_full hh)⟩,
    fun s _ hph hst hh => ⟨(s.unit .s256).serialized.dig,
      onUnit_of_next (u := .s256) (serializeUnit_of_words hph hst (Cells.eq_full hh)),
      read_dig_serialized (u := .s256) (Cells.eq_full hh)⟩⟩

/-- Settles O25: a digest that holds its bytes is spelled out and nothing is recorded; the same on both units. -/
theorem hexencWritesLowercaseHex : Obligations.HexencWritesLowercaseHex :=
  ⟨by decide, by decide, fun _ => rfl,
    fun s _ hph hst hd => ⟨(s.unit .s1).hexencoded.hex,
      onUnit_of_next (u := .s1) (hexencUnit_of_bytes hph hst (Memory.readBytes_eq_toList hd)), read_hex_hexencoded (u := .s1) hd⟩,
    fun s _ hph hst hd => ⟨(s.unit .s256).hexencoded.hex,
      onUnit_of_next (u := .s256) (hexencUnit_of_bytes hph hst (Memory.readBytes_eq_toList hd)), read_hex_hexencoded (u := .s256) hd⟩⟩

/-! ### The finalizer's steps -/

/-- Bytes written from address 0 are read back there (R18). -/
theorem Memory.read_putBytes_map_some (m : Memory) (bs : List Byte) {j : Nat} (hj : j < bs.length) :
    Memory.read (Memory.putBytes m 0 (bs.map some)) j = bs[j]? := by
  simp [Memory.read_putBytes, hj]

section
variable {u : UnitId} {x : UnitState u} {h : Vector Word (Config.ns u)}

/-- `DIG_u` after `SERIALIZE` is `RAW_u` (R171, R175). -/
theorem readBytes_dig_serialized (hh : x.h = Cells.full h) :
    Memory.readBytes x.serialized.dig 0 (Config.db u) = (rawBytes h).map some := by
  have hlen : (rawBytes h).length = Config.db u := by rw [length_rawBytes, db_eq_four_mul_ns]
  rw [← hlen]
  refine Memory.readBytes_eq_map fun j hj => ?_
  rw [Nat.zero_add, UnitState.serialized, hh, cellBytes_full, Memory.read_putBytes_map_some _ _ hj]

/-- The two digest spaces after the finalizer's steps are `RAW_u` and `TEXT_u` of the State (R175). -/
theorem holdsDigest_finalized (hh : x.h = Cells.full h) : HoldsDigest x.serialized.hexencoded (finalize h) := by
  refine ⟨fun j hj => ?_, fun j hj => ?_⟩
  · rw [db_eq_four_mul_ns, ← length_rawBytes h] at hj
    rw [UnitState.hexencoded, UnitState.serialized, hh, cellBytes_full, Memory.read_putBytes_map_some _ _ hj, finalize]
  · rw [hx_eq_two_mul_db, db_eq_four_mul_ns, ← length_rawBytes h, ← length_hexText] at hj
    rw [UnitState.hexencoded, readBytes_dig_serialized hh, hexCells_map_some, Memory.read_putBytes_map_some _ _ hj, finalize]

/-- At step 0 of `Finalizing` a unit executes `SERIALIZE` (R200). -/
theorem runsTo_serialize (hh : x.h = Cells.full h) (hph : x.pos.phase = .finalizing) (hst : x.pos.step = 0) :
    RunsTo u 1 x x.serialized := by
  have hpos : some (Phase.finalizing, 0) = some (x.pos.phase, x.pos.step) := by rw [hph, hst]
  have hy := serializeUnit_of_words hph hst hh
  cases u with
  | s1 => exact .of_meaning (i := .sha1Serialize) rfl hpos hy
  | s256 => exact .of_meaning (i := .sha256Serialize) rfl hpos hy

/-- At step 1 of `Finalizing` a unit executes `HEXENC` (R200), here of the digest `SERIALIZE` left. -/
theorem runsTo_hexenc (hh : x.h = Cells.full h) : RunsTo u 1 x.serialized x.serialized.hexencoded := by
  have hy : hexencUnit x.serialized = .next x.serialized.hexencoded := hexencUnit_of_bytes rfl rfl (readBytes_dig_serialized hh)
  cases u with
  | s1 => exact .of_meaning (i := .sha1Hexenc) rfl rfl hy
  | s256 => exact .of_meaning (i := .sha256Hexenc) rfl rfl hy

end

/-- Settles O56: `SERIALIZE` leaves `RAW_u` of the State in `DIG_u`, and `HEXENC` spells that out. -/
theorem finalizerStepsComputeFinalize : Obligations.FinalizerStepsComputeFinalize := by
  intro u s h rest hh hph hst hs
  have hrun : RunsTo u (1 + 1) (s.unit u) (s.unit u).serialized.hexencoded :=
    (runsTo_serialize hh hph hst).trans (runsTo_hexenc hh)
  exact ⟨_, _, holdsDigest_finalized hh, hrun s rest rfl hs⟩

end Sys2Proof.Machine
end

section
/-! PROOFS. `START`, `CHECKLEN` and `NEXTBLK`, the sequencer's own operations (spec/44_sequencer.md R186, R188, R192). -/

namespace Sys2Proof.Machine

section
variable {u : UnitId} {x : UnitState u} {n : Nat}

theorem checklenUnit_of_legal (hph : x.pos.phase = .start) (hst : x.pos.step = 0) (hm : x.mlen = some n) (hn : 8 * n < 2 ^ 64) :
    checklenUnit x = .next { x with pos := ⟨.start, x.pos.blk, 1⟩ } := by
  refine checklenUnit_next.mpr ⟨⟨hph, hst⟩, .inl ⟨n, hm, .inr ⟨hn, ?_⟩⟩⟩
  simp [UnitState.advance, hph, hst]

theorem checklenUnit_of_large (hph : x.pos.phase = .start) (hst : x.pos.step = 0) (hm : x.mlen = some n) (hn : 2 ^ 64 ≤ 8 * n) :
    checklenUnit x = .next { x with err := 1, pos := ⟨.failed, 0, 0⟩ } :=
  checklenUnit_next.mpr ⟨⟨hph, hst⟩, .inl ⟨n, hm, .inl ⟨hn, rfl⟩⟩⟩

/-- The position at the beginning of block `i` of `n`, or of the finalizer after the last one (R191, R192). -/
def blockPos (n i : Nat) : Pos := if i < n then ⟨.processingBlock, i, 0⟩ else ⟨.finalizing, 0, 0⟩

theorem blockPos_of_lt {i : Nat} (h : i < n) : blockPos n i = ⟨.processingBlock, i, 0⟩ := if_pos h

theorem blockPos_of_ge {i : Nat} (h : n ≤ i) : blockPos n i = ⟨.finalizing, 0, 0⟩ := if_neg (Nat.not_lt.mpr h)

theorem nextblkUnit_of_count (hph : x.pos.phase = .processingBlock) (hst : x.pos.step = Config.nw u + Config.nr u + 2)
    (hn : x.nblk = some n) :
    nextblkUnit x = .next { x with w := Cells.noval _, v := Cells.noval _, pos := blockPos n (x.pos.blk + 1) } := by
  refine nextblkUnit_next.mpr ⟨⟨hph, hst⟩, .inl ⟨n, hn, ?_⟩⟩
  obtain hlt | hle := Nat.lt_or_ge (x.pos.blk + 1) n
  · exact .inl ⟨hlt, by rw [blockPos_of_lt hlt]; rfl⟩
  · exact .inr ⟨hle, by rw [blockPos_of_ge hle]; rfl⟩

end

/-- Settles O11: a ready unit's `START` begins a computation; the same on both units. -/
theorem startBeginsAComputation : Obligations.StartBeginsAComputation :=
  ⟨⟨by decide, fun _ hb => (exec_start_next (u := .s1)).mpr ⟨hb, rfl⟩⟩,
    ⟨by decide, fun _ hb => (exec_start_next (u := .s256)).mpr ⟨hb, rfl⟩⟩⟩

/-- Settles O12: the bits of a message of at most `2^61 - 1` bytes fit. -/
theorem checklenPassesLegalLength : Obligations.ChecklenPassesLegalLength :=
  ⟨by decide, by decide,
    fun _ n hph hst hm hn => onUnit_of_next (u := .s1) (checklenUnit_of_legal hph hst hm (show 8 * n < 2 ^ 64 by omega)),
    fun _ n hph hst hm hn => onUnit_of_next (u := .s256) (checklenUnit_of_legal hph hst hm (show 8 * n < 2 ^ 64 by omega))⟩

/-- Settles O13: the exception entry on both units, and its status byte. -/
theorem checklenRaisesMessageTooLarge : Obligations.ChecklenRaisesMessageTooLarge :=
  ⟨fun _ _ hph hst hm hn => ⟨onUnit_of_next (u := .s1) (checklenUnit_of_large hph hst hm hn), by decide⟩,
    fun _ _ hph hst hm hn => onUnit_of_next (u := .s256) (checklenUnit_of_large hph hst hm hn)⟩

/-- Settles O23: the next position is the next block's beginning or the finalizer's; the same on both units. -/
theorem nextblkLoopsWhileBlocksRemain : Obligations.NextblkLoopsWhileBlocksRemain :=
  ⟨⟨by decide, fun _ _ hph hst hn => onUnit_of_next (u := .s1) (nextblkUnit_of_count hph hst hn)⟩,
    ⟨by decide, fun _ _ hph hst hn => onUnit_of_next (u := .s256) (nextblkUnit_of_count hph hst hn)⟩⟩

end Sys2Proof.Machine
end

section
/-! PROOFS. The whole computation (spec/44_sequencer.md R202, R205): from the beginning a unit checks the length, loads the initial State and
pads the message, runs its blocks one after the other, and finalizes. -/

namespace Sys2Proof.Machine

/-! ### The message and its blocks -/

/-- Byte `j` of the padded message is the byte `PAD` writes for it (R103, R107). -/
theorem pmByte_eq_padmsg {u : UnitId} {x : UnitState u} {m : List Byte} (hm : HasMessage x m) {j : Nat}
    (hj : j < 64 * blockCount m.length) : pmByte x.msg m.length j = (padmsg m)[j]? := by
  have hbyte : (padmsg m)[j]? = some ((m[j]?).getD (padByte m.length j)) := by simp [padmsg, hj]
  rw [hbyte, pmByte]
  split
  next hlt => rw [hm.2 j hlt, List.getElem?_eq_getElem hlt, Option.getD_some]
  next hge => rw [List.getElem?_eq_none (Nat.le_of_not_lt hge), Option.getD_none]

theorem length_blockOf {p : List Byte} {n i : Nat} (hp : p.length = 64 * n) (hi : i < n) : (blockOf p i).length = 64 := by
  rw [blockOf, List.length_take, List.length_drop]
  omega

theorem getElem?_blockOf (p : List Byte) (i : Nat) {k : Nat} (hk : k < 64) : (blockOf p i)[k]? = p[64 * i + k]? := by
  rw [blockOf, List.getElem?_take_of_lt hk, List.getElem?_drop]

/-- A message with a digest has a legal length (R205). -/
theorem digest_eq_some {u : UnitId} {m : List Byte} {d : List Byte × List Byte} (h : digest u m = some d) :
    8 * m.length < 2 ^ 64 ∧ d = finalize (stateAfter u (padmsg m) (blockCount m.length)) := by
  unfold digest at h
  split at h
  next => nomatch h
  next hl => exact ⟨Nat.lt_of_not_le hl, (Option.some.inj h).symm⟩

/-! ### The steps before the first block -/

section
variable {u : UnitId} {x : UnitState u} {m : List Byte}

/-- The unit `x` with `PM_u` and `NBLK_u` as `PAD` of the message `m` leaves them and the State after `i` blocks in `H_u` (R104, R156), at a
position and with some content of the registers a block works in. -/
def UnitState.processing (x : UnitState u) (m : List Byte) (i : Nat) (w : Cells (Config.nw u)) (v : Cells (Config.ns u)) (pos : Pos) :
    UnitState u :=
  { x with
    pos := pos
    nblk := some (blockCount m.length)
    pm := Memory.putBytes x.pm 0 (pmBytes x.msg m.length)
    w := w
    v := v
    h := Cells.full (stateAfter u (padmsg m) i) }

/-- At step 0 of `Start` a unit executes `CHECKLEN` (R200), which a legal length passes (R188). -/
theorem runsTo_checklen (hm : HasMessage x m) (hl : 8 * m.length < 2 ^ 64) (hpos : x.pos = ⟨.start, 0, 0⟩) :
    RunsTo u 1 x { x with pos := ⟨.start, 0, 1⟩ } := by
  have hy : checklenUnit x = .next { x with pos := ⟨.start, 0, 1⟩ } := by
    simpa [hpos] using checklenUnit_of_legal (x := x) (by rw [hpos]) (by rw [hpos]) hm.1 hl
  cases u with
  | s1 => exact .of_meaning (i := .sha1Checklen) rfl (by rw [hpos]; rfl) hy
  | s256 => exact .of_meaning (i := .sha256Checklen) rfl (by rw [hpos]; rfl) hy

/-- At step 1 of `Start` a unit executes `INIT` (R200). -/
theorem runsTo_init : RunsTo u 1 { x with pos := ⟨.start, 0, 1⟩ } { x with h := Cells.full (Config.iv u), pos := ⟨.padding, 0, 0⟩ } := by
  have hy := initUnit_at_position (x := { x with pos := ⟨.start, 0, 1⟩ }) rfl rfl
  cases u with
  | s1 => exact .of_meaning (i := .sha1Init) rfl rfl hy
  | s256 => exact .of_meaning (i := .sha256Init) rfl rfl hy

/-- In `Padding` a unit executes `PAD` (R200), and then stands before its first block with the initial State (R156). -/
theorem runsTo_pad (hm : HasMessage x m) (hl : 8 * m.length < 2 ^ 64) :
    RunsTo u 1 { x with h := Cells.full (Config.iv u), pos := ⟨.padding, 0, 0⟩ }
      (x.processing m 0 x.w x.v ⟨.processingBlock, 0, 0⟩) := by
  have hmsg : ∀ j, j < m.length → (Memory.read x.msg j).isSome = true := fun j hj => by
    rw [hm.2 j hj, List.getElem?_eq_getElem hj, Option.isSome_some]
  have hy := padUnit_of_message (x := { x with h := Cells.full (Config.iv u), pos := ⟨.padding, 0, 0⟩ }) rfl rfl hm.1 hl hmsg
  cases u with
  | s1 => exact .of_meaning (i := .sha1Pad) rfl rfl hy
  | s256 => exact .of_meaning (i := .sha256Pad) rfl rfl hy

/-! ### One block -/

/-- The scheduler's steps as a run of one unit (R129). -/
theorem Scheduling.runsTo {b : List Byte} (h : Scheduling x b 0) :
    RunsTo u (Config.nw u) x
      { x with w := Cells.full (expand u b), pos := ⟨.processingBlock, x.pos.blk, Config.nw u⟩ } := by
  rintro s rest rfl hs
  exact h.run_eq (Nat.zero_add _) hs

/-- The compressor's steps as a run of one unit (R155). -/
theorem runsTo_compress {h : Vector Word (Config.ns u)} {w : Vector Word (Config.nw u)} (hh : x.h = Cells.full h)
    (hw : x.w = Cells.full w) (hph : x.pos.phase = .processingBlock) (hst : x.pos.step = Config.nw u) :
    RunsTo u (1 + Config.nr u + 1) x (x.compressed h w) :=
  ((runsTo_loadv w hh hph hst).trans (runsTo_rounds le_rfl hw)).trans (runsTo_addh hh)

/-- At the last step of a block a unit executes `NEXTBLK` (R200). -/
theorem runsTo_nextblk {n : Nat} (hph : x.pos.phase = .processingBlock) (hst : x.pos.step = Config.nw u + Config.nr u + 2)
    (hn : x.nblk = some n) :
    RunsTo u 1 x { x with w := Cells.noval _, v := Cells.noval _, pos := blockPos n (x.pos.blk + 1) } := by
  have hpos : some (Phase.processingBlock, Config.nw u + Config.nr u + 2) = some (x.pos.phase, x.pos.step) := by rw [hph, hst]
  have hy := nextblkUnit_of_count hph hst hn
  cases u with
  | s1 => exact .of_meaning (i := .sha1Nextblk) rfl hpos hy
  | s256 => exact .of_meaning (i := .sha256Nextblk) rfl hpos hy

/-- Before block `i` its bytes of the padded message stand in `PM_u`, and no entry of the schedule is made yet (R52). -/
theorem scheduling_processing (hm : HasMessage x m) {i : Nat} (hi : i < blockCount m.length) (w : Cells (Config.nw u))
    (v : Cells (Config.ns u)) : Scheduling (x.processing m i w v ⟨.processingBlock, i, 0⟩) (blockOf (padmsg m) i) 0 where
  phase := rfl
  step := rfl
  size := length_blockOf (length_padmsg m) hi
  block k hk := by
    have hlt : 64 * i + k < 64 * blockCount m.length := by omega
    rw [getElem?_blockOf _ _ hk, ← pmByte_eq_padmsg hm hlt]
    exact (read_putBytes_pmBytes ..).trans (if_pos hlt)
  entries := nofun

/-- The `NW(u) + NR(u) + 3` steps of block `i` compress it into the State (R156, R202). -/
theorem runsTo_block (hm : HasMessage x m) {i : Nat} (hi : i < blockCount m.length) (w : Cells (Config.nw u))
    (v : Cells (Config.ns u)) :
    RunsTo u (Config.nw u + (1 + Config.nr u + 1) + 1) (x.processing m i w v ⟨.processingBlock, i, 0⟩)
      (x.processing m (i + 1) (Cells.noval _) (Cells.noval _) (blockPos (blockCount m.length) (i + 1))) :=
  ((scheduling_processing hm hi w v).runsTo.trans (runsTo_compress rfl rfl rfl rfl)).trans (runsTo_nextblk rfl rfl rfl)

/-! ### All blocks -/

/-- The steps of the first `i` blocks, from the beginning of block 0 (R156, R202). -/
theorem runsTo_blocks (hm : HasMessage x m) {i : Nat} (hi : i ≤ blockCount m.length) :
    ∃ w v, RunsTo u ((Config.nw u + (1 + Config.nr u + 1) + 1) * i) (x.processing m 0 x.w x.v ⟨.processingBlock, 0, 0⟩)
      (x.processing m i w v (blockPos (blockCount m.length) i)) := by
  induction i with
  | zero => exact ⟨x.w, x.v, .refl _⟩
  | succ i ih =>
    obtain ⟨w, v, hrun⟩ := ih (Nat.le_of_succ_le hi)
    rw [blockPos_of_lt hi] at hrun
    exact ⟨_, _, hrun.trans (runsTo_block hm hi w v)⟩

/-- The whole computation of a legal message, from the beginning to `Finalized` (R202): the State after the last block is finalized. -/
theorem runsTo_finalized (hm : HasMessage x m) (hl : 8 * m.length < 2 ^ 64) (hpos : x.pos = ⟨.start, 0, 0⟩) :
    ∃ w v, RunsTo u (5 + (Config.nw u + Config.nr u + 3) * blockCount m.length) x
      (x.processing m (blockCount m.length) w v ⟨.finalizing, 0, 0⟩).serialized.hexencoded := by
  obtain ⟨w, v, hblocks⟩ := runsTo_blocks hm le_rfl
  rw [blockPos_of_ge le_rfl] at hblocks
  have hstart := ((runsTo_checklen hm hl hpos).trans runsTo_init).trans (runsTo_pad hm hl)
  have hend := (runsTo_serialize (x := x.processing m (blockCount m.length) w v ⟨.finalizing, 0, 0⟩) rfl rfl rfl).trans
    (runsTo_hexenc rfl)
  refine ⟨w, v, ?_⟩
  have hcount : 5 + (Config.nw u + Config.nr u + 3) * blockCount m.length =
      1 + 1 + 1 + (Config.nw u + (1 + Config.nr u + 1) + 1) * blockCount m.length + (1 + 1) := by ring
  rw [hcount]
  exact (hstart.trans hblocks).trans hend

end

/-- Settles O57: the run of the unit alone, whose State at the end is that after the last block. -/
theorem unitComputesTheDigest : Obligations.UnitComputesTheDigest := by
  intro u s m d rest hpos hm hd hs
  obtain ⟨hl, rfl⟩ := digest_eq_some hd
  obtain ⟨w, v, hrun⟩ := runsTo_finalized hm hl hpos
  refine ⟨_, hrun s rest rfl hs, ?_⟩
  rw [State.unit_setUnit]
  refine ⟨rfl, holdsDigest_finalized rfl, rfl, rfl, rfl, rfl, fun v hv => ?_, State.sched_setUnit ..⟩
  rw [State.unit_setUnit_of_ne _ hv, State.unit_withSched]

end Sys2Proof.Machine
end

section
/-! PROOFS. Two computations on one message (spec/44_sequencer.md R203): every micro-operation answers alike on two units that agree in all it
can depend on, and so does every number of steps. -/

namespace Sys2Proof.Machine

/-! ### Outcomes that agree -/

/-- Two outcomes that are of one kind: next states that `R` relates, or one refusal. -/
inductive Agrees {σ τ : Type} (R : σ → τ → Prop) : Host.Outcome σ Fault Refusal → Host.Outcome τ Fault Refusal → Prop where
  | next {a : σ} {b : τ} (h : R a b) : Agrees R (.next a) (.next b)
  | refused (r : Refusal) : Agrees R (.refused r) (.refused r)

theorem Agrees.exists_next {σ τ : Type} {R : σ → τ → Prop} {o : Host.Outcome σ Fault Refusal} {o' : Host.Outcome τ Fault Refusal}
    {a : σ} (h : Agrees R o o') (ho : o = .next a) : ∃ b, o' = .next b ∧ R a b := by
  subst ho
  cases h with
  | next hab => exact ⟨_, rfl, hab⟩

theorem Agrees.eq_refused {σ τ : Type} {R : σ → τ → Prop} {o : Host.Outcome σ Fault Refusal} {o' : Host.Outcome τ Fault Refusal}
    {r : Refusal} (h : Agrees R o o') (ho : o = .refused r) : o' = .refused r := by
  subst ho
  cases h with
  | refused => rfl

/-- A condition that holds of both or of neither, and refuses where it does not hold. -/
theorem Agrees.guard {σ τ : Type} {R : σ → τ → Prop} {o : Host.Outcome σ Fault Refusal} {o' : Host.Outcome τ Fault Refusal}
    {r : Refusal} {c : Prop} [Decidable c] (h : c → Agrees R o o') :
    Agrees R (if c then o else .refused r) (if c then o' else .refused r) := by
  split
  next hc => exact h hc
  next => exact .refused r

/-! ### Two units in one computation -/

/-- Two units in the same state of computations on one message: they agree in all that a micro-operation's effect can depend on, no write is
held, and where a number has no value they have used the same free values (R203; log entry 23). -/
structure Twin {u : UnitId} (x y : UnitState u) : Prop where
  same : SameComputation x y
  notHeld : x.held = none
  message : ∀ n j, x.mlen = some n → j < n → Memory.read x.msg j = Memory.read y.msg j
  draws : x.mlen = none → x.draws = y.draws
  /-- `PAD` of a length leaves a block count (R104) -/
  count : x.pos.phase = .processingBlock → x.nblk = none → x.mlen = none

/-- `START` on the same length and the same message bytes begins twin computations (R186). -/
theorem Twin.beginComputation {u : UnitId} {x y : UnitState u} (hlen : x.mlen = y.mlen)
    (hmsg : ∀ n j, x.mlen = some n → j < n → Memory.read x.msg j = Memory.read y.msg j) (hx : x.held = none) (hy : y.held = none)
    (hd : x.mlen = none → x.draws = y.draws) : Twin x.beginComputation y.beginComputation where
  same := by
    simp only [SameComputation, UnitState.beginComputation, UnitState.goto, hlen, hx, hy]
  notHeld := hx
  message := hmsg
  draws := hd
  count := nofun

/-- A twin is the same unit but for the message and the model's own fields. -/
theorem Twin.exists_eq {u : UnitId} {x y : UnitState u} (h : Twin x y) :
    ∃ msg inbox reply rec draws,
      y = { x with msg := msg, inbox := inbox, reply := reply, noValueRead := rec, draws := draws } := ⟨_, _, _, _, _, h.same⟩

section
variable {u : UnitId} {x y : UnitState u}

theorem Twin.pos_eq (h : Twin x y) : x.pos = y.pos := (congrArg (·.pos) h.same).symm

theorem Twin.mlen_eq (h : Twin x y) : x.mlen = y.mlen := (congrArg (·.mlen) h.same).symm

theorem Twin.nblk_eq (h : Twin x y) : x.nblk = y.nblk := (congrArg (·.nblk) h.same).symm

theorem Twin.held_eq (h : Twin x y) : x.held = y.held := (congrArg (·.held) h.same).symm

/-- The precondition on the position holds of both twins or of neither. -/
theorem Twin.atPosition (h : Twin x y) {ph : Phase} {st : Nat} {k k' : UnitOutcome u} (hk : x.pos.phase = ph → Agrees Twin k k') :
    Agrees Twin (atPosition x ph st k) (atPosition y ph st k') := by
  unfold Machine.atPosition
  rw [← h.pos_eq]
  exact .guard fun hp => hk hp.1

/-- The twins' padded messages are the same bytes (R103). -/
theorem Twin.pmBytes_eq (h : Twin x y) {n : Nat} (hn : x.mlen = some n) : pmBytes x.msg n = pmBytes y.msg n := by
  refine List.map_congr_left fun j _ => ?_
  unfold pmByte
  split
  next hj => exact h.message n j hn hj
  next => rfl

/-! ### Every micro-operation on twins -/

theorem Twin.startUnit (h : Twin x y) : Agrees Twin (startUnit x) (startUnit y) := by
  obtain ⟨_, _, _, _, _, rfl⟩ := h.exists_eq
  unfold Machine.startUnit
  split
  next => exact .refused _
  next => exact .next ⟨rfl, h.notHeld, h.message, h.draws, nofun⟩

theorem Twin.checklenUnit (h : Twin x y) : Agrees Twin (checklenUnit x) (checklenUnit y) := by
  refine h.atPosition fun hph => .next ?_
  have hblock : x.pos.phase ≠ .processingBlock := by simp [hph]
  rw [← h.mlen_eq]
  cases hm : x.mlen with
  | some n =>
    obtain ⟨_, _, _, _, _, rfl⟩ := h.exists_eq
    dsimp only
    split
    next => exact ⟨rfl, h.notHeld, h.message, h.draws, nofun⟩
    next => exact ⟨rfl, h.notHeld, h.message, h.draws, fun hp => absurd hp hblock⟩
  | none =>
    obtain ⟨_, _, _, _, draws, rfl⟩ := h.exists_eq
    obtain rfl : x.draws = draws := h.draws hm
    dsimp only
    split
    next => exact ⟨rfl, h.notHeld, h.message, fun _ => rfl, nofun⟩
    next => exact ⟨rfl, h.notHeld, h.message, fun _ => rfl, fun hp => absurd hp hblock⟩

theorem Twin.initUnit (h : Twin x y) : Agrees Twin (initUnit x) (initUnit y) := by
  refine h.atPosition fun _ => .next ?_
  obtain ⟨_, _, _, _, _, rfl⟩ := h.exists_eq
  exact ⟨rfl, h.notHeld, h.message, h.draws, nofun⟩

theorem Twin.padUnit (h : Twin x y) : Agrees Twin (padUnit x) (padUnit y) := by
  refine h.atPosition fun _ => ?_
  rw [← h.mlen_eq]
  cases hm : x.mlen with
  | some n =>
    dsimp only
    rw [← h.pmBytes_eq hm]
    obtain ⟨_, _, _, _, _, rfl⟩ := h.exists_eq
    split
    next => exact .refused _
    next => exact .next ⟨rfl, h.notHeld, h.message, h.draws, nofun⟩
  | none =>
    obtain ⟨_, _, _, _, _, rfl⟩ := h.exists_eq
    exact .next ⟨rfl, h.notHeld, h.message, h.draws, fun _ _ => hm⟩

/-- A micro-operation that stays in the block and writes the same registers on both twins. -/
theorem Twin.block (h : Twin x y) {st : Nat} {w : Cells (Config.nw u)} {v hs : Cells (Config.ns u)} {rec rec' : Option Store} :
    Agrees Twin
      (Machine.atPosition x .processingBlock st (.next ({ x with w := w, v := v, h := hs, noValueRead := rec }).advance))
      (Machine.atPosition y .processingBlock st (.next ({ y with w := w, v := v, h := hs, noValueRead := rec' }).advance)) := by
  refine h.atPosition fun hph => .next ?_
  obtain ⟨_, _, _, _, _, rfl⟩ := h.exists_eq
  exact ⟨rfl, h.notHeld, h.message, h.draws, fun _ => h.count hph⟩

theorem Twin.wloadUnit (h : Twin x y) (j : Nat) : Agrees Twin (wloadUnit j x) (wloadUnit j y) := by
  obtain ⟨_, _, _, _, _, rfl⟩ := h.exists_eq
  exact .guard fun _ => h.block

theorem Twin.wexpS1 {x y : UnitState .s1} (h : Twin x y) (i : Nat) : Agrees Twin (wexpS1 i x) (wexpS1 i y) := by
  obtain ⟨_, _, _, _, _, rfl⟩ := h.exists_eq
  exact .guard fun _ => h.block

theorem Twin.wexpS256 {x y : UnitState .s256} (h : Twin x y) (i : Nat) : Agrees Twin (wexpS256 i x) (wexpS256 i y) := by
  obtain ⟨_, _, _, _, _, rfl⟩ := h.exists_eq
  exact .guard fun _ => h.block

theorem Twin.loadvUnit (h : Twin x y) : Agrees Twin (loadvUnit x) (loadvUnit y) := by
  obtain ⟨_, _, _, _, _, rfl⟩ := h.exists_eq
  exact h.block

theorem Twin.roundUnit (h : Twin x y) (t : Nat) : Agrees Twin (roundUnit t x) (roundUnit t y) := by
  obtain ⟨_, _, _, _, _, rfl⟩ := h.exists_eq
  exact .guard fun _ => h.block

theorem Twin.addhUnit (h : Twin x y) : Agrees Twin (addhUnit x) (addhUnit y) := by
  obtain ⟨_, _, _, _, _, rfl⟩ := h.exists_eq
  exact h.block

theorem Twin.nextblkUnit (h : Twin x y) : Agrees Twin (nextblkUnit x) (nextblkUnit y) := by
  refine h.atPosition fun hph => .next ?_
  dsimp only
  rw [← h.nblk_eq]
  cases hn : x.nblk with
  | some n =>
    obtain ⟨_, _, _, _, _, rfl⟩ := h.exists_eq
    dsimp only
    split
    next => exact ⟨rfl, h.notHeld, h.message, h.draws, fun _ => nofun⟩
    next => exact ⟨rfl, h.notHeld, h.message, h.draws, nofun⟩
  | none =>
    obtain ⟨_, _, _, _, draws, rfl⟩ := h.exists_eq
    obtain rfl : x.draws = draws := h.draws (h.count hph hn)
    dsimp only
    split
    next => exact ⟨rfl, h.notHeld, h.message, fun _ => rfl, fun _ _ => h.count hph hn⟩
    next => exact ⟨rfl, h.notHeld, h.message, fun _ => rfl, nofun⟩

theorem Twin.serializeUnit (h : Twin x y) : Agrees Twin (serializeUnit x) (serializeUnit y) := by
  refine h.atPosition fun hph => .next ?_
  obtain ⟨_, _, _, _, _, rfl⟩ := h.exists_eq
  exact ⟨rfl, h.notHeld, h.message, h.draws, fun hp => absurd (hph.symm.trans hp) nofun⟩

theorem Twin.hexencUnit (h : Twin x y) : Agrees Twin (hexencUnit x) (hexencUnit y) := by
  refine h.atPosition fun _ => .next ?_
  obtain ⟨_, _, _, _, _, rfl⟩ := h.exists_eq
  exact ⟨rfl, h.notHeld, h.message, h.draws, nofun⟩

end

/-- Every operation answers alike on twins. -/
theorem Twin.meaning {i : Instr} {x y : UnitState i.unit} (h : Twin x y) : Agrees Twin (meaning i x) (meaning i y) := by
  cases i with
  | sha1Start | sha256Start => exact h.startUnit
  | sha1Checklen | sha256Checklen => exact h.checklenUnit
  | sha1Init | sha256Init => exact h.initUnit
  | sha1Pad | sha256Pad => exact h.padUnit
  | sha1Wload j | sha256Wload j => exact h.wloadUnit j
  | sha1Wexp i => exact h.wexpS1 i
  | sha256Wexp i => exact h.wexpS256 i
  | sha1Loadv | sha256Loadv => exact h.loadvUnit
  | sha1Round t | sha256Round t => exact h.roundUnit t
  | sha1Addh | sha256Addh => exact h.addhUnit
  | sha1Nextblk | sha256Nextblk => exact h.nextblkUnit
  | sha1Serialize | sha256Serialize => exact h.serializeUnit
  | sha1Hexenc | sha256Hexenc => exact h.hexencUnit

/-! ### Every step of the unit on twins -/

/-- Two states of the CORE whose units `u` are twins, whatever the other unit and the schedule. -/
def TwinAt (u : UnitId) (s s' : State) : Prop := Twin (s.unit u) (s'.unit u)

theorem Agrees.onUnit {u : UnitId} {s s' : State} {f : UnitState u → UnitOutcome u} (h : Agrees Twin (f (s.unit u)) (f (s'.unit u))) :
    Agrees (TwinAt u) (s.onUnit u f) (s'.onUnit u f) := by
  unfold State.onUnit
  generalize f (s.unit u) = o, f (s'.unit u) = o' at h ⊢
  cases h with
  | next hab => exact .next (by simpa [TwinAt] using hab)
  | refused r => exact .refused r

theorem TwinAt.sequencerStep {u : UnitId} {s s' : State} (h : TwinAt u s s') :
    Agrees (TwinAt u) (sequencerStep u s) (sequencerStep u s') := by
  have hpos : (s.unit u).pos = (s'.unit u).pos := h.pos_eq
  cases hu : uop u (s.unit u).pos.phase (s.unit u).pos.step with
  | none =>
    have hu' := hpos ▸ hu
    simp only [Machine.sequencerStep, hu, hu']
    exact .refused _
  | some w =>
    obtain ⟨i, rfl, hw, hp⟩ := exists_positionOf_of_uop hu
    rw [sequencerStep_eq_exec hw hp, sequencerStep_eq_exec hw (hpos ▸ hp), exec_eq_onUnit, exec_eq_onUnit]
    exact .onUnit h.meaning

/-- A unit's own step: a busy one's micro-operation; a ready one has none, as it holds no write. -/
theorem TwinAt.unitMove {u : UnitId} {s s' : State} (h : TwinAt u s s') : Agrees (TwinAt u) (unitMove u s) (unitMove u s') := by
  have hpos : (s.unit u).pos = (s'.unit u).pos := h.pos_eq
  have hheld : (s'.unit u).held = none := h.held_eq ▸ h.notHeld
  simp only [Machine.unitMove, ← hpos, hheld, h.notHeld]
  split
  next => exact h.sequencerStep
  next => exact .refused _

theorem TwinAt.unitSteps {u : UnitId} (k : Nat) {s s' : State} (h : TwinAt u s s') :
    Agrees (TwinAt u) (unitSteps u k s) (unitSteps u k s') := by
  induction k generalizing s s' with
  | zero => exact .next h
  | succ k ih =>
    simp only [Machine.unitSteps]
    have hmove := h.unitMove
    generalize Machine.unitMove u s = o, Machine.unitMove u s' = o' at hmove ⊢
    cases hmove with
    | next h' => exact ih h'
    | refused r => exact .refused r

/-- Settles O58: `START` makes the two units twins, and every step leaves them so or stops alike on both. -/
theorem computationDependsOnTheMessageOnly : Obligations.ComputationDependsOnTheMessageOnly := by
  intro u k s s' a a' hlen hmsg hheld hheld' hdraws ha ha'
  obtain ⟨-, rfl⟩ := exec_start_next.mp ha
  obtain ⟨-, rfl⟩ := exec_start_next.mp ha'
  have htwin : TwinAt u (s.setUnit u (s.unit u).beginComputation) (s'.setUnit u (s'.unit u).beginComputation) := by
    rw [TwinAt, State.unit_setUnit, State.unit_setUnit]
    exact .beginComputation hlen hmsg hheld hheld' hdraws
  have hagree := htwin.unitSteps k
  refine ⟨fun t ht => ?_, fun r hr => hagree.eq_refused hr⟩
  obtain ⟨t', ht', h⟩ := hagree.exists_next ht
  exact ⟨t', ht', h.same⟩

end Sys2Proof.Machine
end

section
/-! PROOFS. The microprogram and the operation a step runs (spec/44_sequencer.md R200, R201), at a position, at `CMD_u` and where a word is
placed (log entry 16). -/

namespace Sys2Proof.Machine

/-! ### The operation a step runs -/

/-- Settles O32: at a position the microprogram gives one word, that of the operation which stands there. -/
theorem microprogramIssuesEachOperationAtItsPosition : Obligations.MicroprogramIssuesEachOperationAtItsPosition := by
  refine ⟨fun i ph st => uop_positionOf, fun u ph st w hw => ?_⟩
  obtain ⟨i, rfl, hwf, hp⟩ := exists_positionOf_of_uop hw
  obtain rfl : w = encode i := Option.some.inj (hw.symm.trans (uop_positionOf hwf hp))
  exact ⟨i, decode_encode hwf, rfl, hwf, hp, (legalPos_of_uop hw).1⟩

/-- The host's move where its access is the unit's `START` to a ready unit (R86, R186). -/
theorem hostMove_start {u : UnitId} {s : State} {w : OpWord} {rest : List HostOp} (hb : busy (s.unit u).pos.phase = false)
    (hi : (s.unit u).inbox = .write (.cmd w) :: rest) (hd : decode w = .op (Instr.start u)) :
    hostMove u s =
      exec (Instr.start u) (s.setUnit u { s.unit u with inbox := rest, reply := some .accepted }) := by
  have hready : busy ((s.setUnit u { s.unit u with inbox := rest }).unit u).pos.phase = false := by rwa [State.unit_setUnit]
  simp only [hostMove, hi, hostAccess]
  rw [hostWrite_of_ready hready, writeEffect, command, if_pos hd, State.unit_setUnit, State.setUnit_setUnit]
  rfl

/-- Settles O33: the unit's move runs the word at its position, and the host's the word it writes to `CMD_u`. -/
theorem stepRunsTheDecodedOperation : Obligations.StepRunsTheDecodedOperation := by
  refine ⟨fun s u w i hm hb hu hd => ?_, fun s u w rest hm hb hi hd => ?_⟩
  · rw [step_of_nextMove hm]
    simp only [perform, unitMove, sequencerStep, execWord, State.unit_withSched, hb, hu, hd, if_true]
  · rw [step_of_nextMove hm, perform]
    simpa only [State.unit_withSched] using hostMove_start (s := { s with sched := s.sched.tail })
      (by rwa [State.unit_withSched]) (by rwa [State.unit_withSched]) hd

/-! ### Placing a word -/

/-- The table word of a well-formed operation (R80). -/
theorem decodeTableWord_encode {i : Instr} (hw : WellFormed i = true) : decodeTableWord 16 (encode i).toNat = some i := by
  have hlt : (encode i).toNat < 2 ^ 16 := (encode i).isLt
  rw [decodeTableWord, if_pos ⟨hlt, hlt⟩, BitVec.ofNat_toNat, BitVec.setWidth_eq, decode_encode hw]

/-- An operation without a position is its unit's `START` (R86, R200). -/
theorem eq_start_of_positionOf_none {i : Instr} (h : positionOf i = none) : i = Instr.start i.unit := by
  cases i with
  | sha1Start | sha256Start => rfl
  | _ => nomatch h

/-- Where a micro-operation's word is placed: its unit at its position, the move next (log entry 16). -/
theorem placeWord_of_position {i : Instr} (s : State) (hw : WellFormed i = true) {ph : Phase} {st : Nat}
    (hp : positionOf i = some (ph, st)) : placeWord s 16 (encode i).toNat = placeMicroOp s i.unit ph st := by
  simp only [placeWord, decodeTableWord_encode hw, hp]

/-- Where a `START` word is placed: at `CMD_u` (log entry 16). -/
theorem placeWord_of_start {i : Instr} (s : State) (hw : WellFormed i = true) (hp : positionOf i = none) :
    placeWord s 16 (encode i).toNat = placeCommand s i.unit (encode i) := by
  have hmod : (encode i).toNat % 2 ^ 16 = (encode i).toNat := Nat.mod_eq_of_lt (encode i).isLt
  simp only [placeWord, decodeTableWord_encode hw, hp, hmod, BitVec.ofNat_toNat, BitVec.setWidth_eq]

/-- A schedule put before a state's own one and used up leaves the state's own. -/
theorem State.withSched_of_setUnit (s : State) (u : UnitId) (x : UnitState u) (l : List Move) :
    { { s.setUnit u x with sched := l } with sched := s.sched } = s.setUnit u x := by
  cases u <;> rfl

/-- A placed micro-operation runs next, at a position of its phase and step. -/
theorem step_placeMicroOp {i : Instr} (s : State) (hw : WellFormed i = true) {ph : Phase} {st : Nat} (hp : positionOf i = some (ph, st)) :
    ∃ blk, step (placeMicroOp s i.unit ph st) = exec i (s.setUnit i.unit { s.unit i.unit with pos := ⟨ph, blk, st⟩ }) := by
  obtain ⟨blk, hplace⟩ : ∃ blk, placeMicroOp s i.unit ph st = { s.setUnit i.unit { s.unit i.unit with pos := ⟨ph, blk, st⟩ } with
    sched := .unit i.unit :: s.sched } := ⟨_, rfl⟩
  refine ⟨blk, ?_⟩
  rw [hplace, step_of_sched_unit (u := i.unit) (rest := s.sched) rfl, State.withSched_of_setUnit, sequencerStep_eq_exec hw]
  · rw [State.unit_setUnit, hp]
  · rw [State.unit_withSched, State.unit_setUnit]
    exact (legalPos_of_uop (uop_positionOf hw hp)).1

/-- A placed `START` runs next, in a ready phase. -/
theorem step_placeCommand (s : State) (u : UnitId) {w : OpWord} (hd : decode w = .op (Instr.start u)) :
    ∃ pos : Pos, busy pos.phase = false ∧ step (placeCommand s u w) =
      exec (Instr.start u) (s.setUnit u { s.unit u with pos := pos, held := none, reply := some .accepted }) := by
  obtain ⟨pos, hb, hplace⟩ : ∃ pos : Pos, busy pos.phase = false ∧ placeCommand s u w = { s.setUnit u { s.unit u with
      pos := pos, held := none, inbox := .write (.cmd w) :: (s.unit u).inbox } with sched := .host u :: s.sched } := by
    refine ⟨_, ?_, rfl⟩
    split
    next => rfl
    next hb => exact Bool.eq_false_of_not_eq_true hb
  refine ⟨pos, hb, ?_⟩
  have hnext : nextMove (placeCommand s u w) = some (.host u) :=
    nextMove_of_sched (l := s.sched) rfl (by simp [enabled, hostEnabled, placeCommand])
  rw [step_of_nextMove hnext, hplace, perform, List.tail_cons, State.withSched_of_setUnit,
    hostMove_start (w := w) (rest := (s.unit u).inbox) (by rwa [State.unit_setUnit]) (by rw [State.unit_setUnit]) hd,
    State.setUnit_setUnit, State.unit_setUnit]

/-- Settles O34: a micro-operation is placed at its position, a `START` at `CMD_u` of a ready unit. -/
theorem placedWordRunsNext : Obligations.PlacedWordRunsNext := by
  intro i s hw
  have hother (y : UnitState i.unit) (u : UnitId) (hu : u ≠ i.unit) := State.unit_setUnit_of_ne s hu y
  cases hp : positionOf i with
  | some p =>
    obtain ⟨blk, hstep⟩ := step_placeMicroOp s hw hp
    refine ⟨_, (congrArg step (placeWord_of_position s hw hp)).trans hstep, State.sched_setUnit .., hother _, ⟨p.1, blk, p.2⟩, _, _,
      State.unit_setUnit .., ?_, nofun⟩
    rintro _ ⟨⟩
    rfl
  | none =>
    have hstart := eq_start_of_positionOf_none hp
    obtain ⟨pos, hb, hstep⟩ := step_placeCommand s i.unit (w := encode i) (hstart ▸ decode_encode hw)
    rw [← hstart] at hstep
    exact ⟨_, (congrArg step (placeWord_of_start s hw hp)).trans hstep, State.sched_setUnit .., hother _, pos, _, _,
      State.unit_setUnit .., nofun, fun _ => hb⟩

end Sys2Proof.Machine
end

section
/-! PROOFS. What a step can do to a unit: the edges of the state machine (spec/44_sequencer.md R185), the digest that stays (R194), the
message too large (R202, R227), and where a step is refused (R201). -/

namespace Sys2Proof.Machine

/-! ### The edges an operation takes -/

/-- The edges of the state machine a step other than a reset takes, and staying (R185). -/
inductive Edge : Phase → Phase → Prop where
  | stay (p : Phase) : Edge p p
  | start {p : Phase} (h : busy p = false) : Edge p .start
  | raise : Edge .start .failed
  | init : Edge .start .padding
  | pad : Edge .padding .processingBlock
  | lastBlock : Edge .processingBlock .finalizing
  | hexenc : Edge .finalizing .finalized

/-- Every operation takes an edge of R185, or stays in its phase. -/
theorem meaning_edge {i : Instr} {x y : UnitState i.unit} (h : meaning i x = .next y) : Edge x.pos.phase y.pos.phase := by
  cases i with
  | sha1Start | sha256Start =>
    obtain ⟨hb, rfl⟩ := startUnit_next.mp h
    exact .start hb
  | sha1Checklen | sha256Checklen =>
    obtain ⟨⟨hph, -⟩, ⟨-, -, ⟨-, rfl⟩ | ⟨-, rfl⟩⟩ | ⟨-, ⟨-, rfl⟩ | ⟨-, rfl⟩⟩⟩ := checklenUnit_next.mp h
    · exact hph ▸ .raise
    · exact .stay _
    · exact hph ▸ .raise
    · exact .stay _
  | sha1Init | sha256Init =>
    obtain ⟨⟨hph, -⟩, rfl⟩ := initUnit_next.mp h
    exact hph ▸ .init
  | sha1Pad | sha256Pad =>
    obtain ⟨⟨hph, -⟩, ⟨-, -, -, rfl⟩ | ⟨-, rfl⟩⟩ := padUnit_next.mp h
    · exact hph ▸ .pad
    · exact hph ▸ .pad
  | sha1Wload j | sha256Wload j =>
    obtain ⟨-, -, rfl⟩ := wloadUnit_next.mp h
    exact .stay _
  | sha1Wexp k =>
    obtain ⟨-, -, rfl⟩ := wexpS1_next.mp h
    exact .stay _
  | sha256Wexp k =>
    obtain ⟨-, -, rfl⟩ := wexpS256_next.mp h
    exact .stay _
  | sha1Loadv | sha256Loadv =>
    obtain ⟨-, rfl⟩ := loadvUnit_next.mp h
    exact .stay _
  | sha1Round t | sha256Round t =>
    obtain ⟨-, -, rfl⟩ := roundUnit_next.mp h
    exact .stay _
  | sha1Addh | sha256Addh =>
    obtain ⟨-, rfl⟩ := addhUnit_next.mp h
    exact .stay _
  | sha1Nextblk | sha256Nextblk =>
    obtain ⟨⟨hph, -⟩, ⟨-, -, ⟨-, rfl⟩ | ⟨-, rfl⟩⟩ | ⟨-, ⟨-, rfl⟩ | ⟨-, rfl⟩⟩⟩ := nextblkUnit_next.mp h
    · exact hph ▸ .stay _
    · exact hph ▸ .lastBlock
    · exact hph ▸ .stay _
    · exact hph ▸ .lastBlock
  | sha1Serialize | sha256Serialize =>
    obtain ⟨-, rfl⟩ := serializeUnit_next.mp h
    exact .stay _
  | sha1Hexenc | sha256Hexenc =>
    obtain ⟨⟨hph, -⟩, rfl⟩ := hexencUnit_next.mp h
    exact hph ▸ .hexenc

theorem exec_edge {i : Instr} {s t : State} (h : exec i s = .next t) : Edge (s.unit i.unit).pos.phase (t.unit i.unit).pos.phase := by
  rw [exec_eq_onUnit, onUnit_next] at h
  obtain ⟨y, hy, rfl⟩ := h
  rw [State.unit_setUnit]
  exact meaning_edge hy

/-! ### What a step can do to a unit -/

/-- From `x` to `y` the host was served (R71): the message, the length, the error, the host port and the record may have changed, or a ready
unit's `START` was accepted. -/
def Served {u : UnitId} (x y : UnitState u) : Prop :=
  (∃ msg mlen err held inbox reply rec,
    y = { x with msg := msg, mlen := mlen, err := err, held := held, inbox := inbox, reply := reply, noValueRead := rec }) ∨
  (busy x.pos.phase = false ∧ y.pos = ⟨.start, 0, 0⟩)

theorem Served.kept {u : UnitId} {x : UnitState u} {msg : Memory} {mlen : Option Nat} {err : BitVec 2} {held : Option HostWrite}
    {inbox : List HostOp} {reply : Option HostReply} {rec : Option Store} :
    Served x { x with msg := msg, mlen := mlen, err := err, held := held, inbox := inbox, reply := reply, noValueRead := rec } :=
  .inl ⟨_, _, _, _, _, _, _, rfl⟩

theorem Served.refl {u : UnitId} (x : UnitState u) : Served x x := .kept

/-- The host port may have changed before. -/
theorem Served.of_port {u : UnitId} {x y : UnitState u} {held : Option HostWrite} {inbox : List HostOp}
    (h : Served { x with held := held, inbox := inbox } y) : Served x y := h

theorem writeEffect_served {u : UnitId} {w : HostWrite} {s t : State} (h : writeEffect u w s = .next t) :
    Served (s.unit u) (t.unit u) := by
  obtain ⟨j, b, -, -, rfl⟩ | ⟨n, -, rfl⟩ | ⟨c, -, hcmd⟩ | rfl := writeEffect_next h
  · rw [State.unit_setUnit]
    exact .kept
  · rw [State.unit_setUnit]
    exact .kept
  · obtain ⟨-, hexec⟩ | ⟨-, rfl⟩ := command_next hcmd
    · obtain ⟨hb, rfl⟩ := exec_start_next.mp hexec
      rw [State.unit_setUnit] at hb
      rw [State.unit_setUnit]
      exact .inr ⟨hb, rfl⟩
    · rw [State.unit_setUnit]
      exact .kept
  · rw [State.unit_setUnit]
    exact .kept

theorem hostAccess_served {u : UnitId} {op : HostOp} {s t : State} (h : hostAccess u op s = .next t) :
    Served (s.unit u) (t.unit u) := by
  cases hb : busy (s.unit u).pos.phase with
  | true =>
    obtain ⟨held, reply, rec, heq⟩ := hostAccess_of_busy op hb
    obtain rfl := next_eq.mp (heq.symm.trans h)
    rw [State.unit_setUnit]
    exact .kept
  | false =>
    cases op with
    | write w => exact writeEffect_served ((hostWrite_of_ready hb).symm.trans h)
    | read r =>
      obtain rfl := next_eq.mp h
      rw [State.unit_setUnit]
      obtain ⟨a, -, hr⟩ | ⟨what, hr⟩ := hostRead_cases r (s.unit u) <;> rw [hr]
      · exact .kept
      · exact .kept

/-- The host's move serves it at the unit accessed and leaves the other. -/
theorem hostMove_served {v : UnitId} {s t : State} (h : hostMove v s = .next t) (u : UnitId) : Served (s.unit u) (t.unit u) := by
  by_cases hu : u = v
  · subst hu
    obtain ⟨op, rest, -, hop⟩ := hostMove_next h
    have hs := hostAccess_served hop
    rw [State.unit_setUnit] at hs
    exact hs.of_port
  · rw [(hostMove_frame h).1 u hu]
    exact .refl _

/-- A unit's own move is an operation of the busy unit, or serves the host by its held write; it leaves the other unit. -/
theorem unitMove_cases {v : UnitId} {s t : State} (h : unitMove v s = .next t) (u : UnitId) :
    Served (s.unit u) (t.unit u) ∨ (busy (s.unit u).pos.phase = true ∧ ∃ i : Instr, i.unit = u ∧ exec i s = .next t) := by
  by_cases hu : u = v
  · subst hu
    cases hb : busy (s.unit u).pos.phase with
    | true =>
      obtain ⟨w, i, hw, hi, hexec⟩ := unitMove_busy hb h
      obtain ⟨j, hj, hunit, -⟩ := microprogramIssuesEachOperationAtItsPosition.2 _ _ _ w hw
      obtain rfl : i = j := Decoded.op.inj (hi.symm.trans hj)
      exact .inr ⟨rfl, i, hunit, hexec⟩
    | false =>
      obtain ⟨w, -, hw⟩ := unitMove_ready hb h
      have hs := writeEffect_served hw
      rw [State.unit_setUnit] at hs
      exact .inl hs.of_port
  · rw [(unitMove_actsOn v).unit_eq_of_ne h hu]
    exact .inl (.refl _)

/-- What a step can do to a unit (R201): serve the host or leave the unit, run an operation of the busy unit, or reset it. -/
theorem step_unit_cases {s t : State} (h : step s = .next t) (u : UnitId) :
    Served (s.unit u) (t.unit u) ∨
      (busy (s.unit u).pos.phase = true ∧ ∃ i : Instr, i.unit = u ∧ exec i { s with sched := s.sched.tail } = .next t) ∨
      (nextMove s = some .reset ∧ t.unit u = (s.unit u).afterReset) := by
  obtain ⟨m, hm, -, hp⟩ := step_next h
  cases m with
  | unit v =>
    have hcases := unitMove_cases hp u
    rw [State.unit_withSched] at hcases
    exact hcases.imp_right .inl
  | host v =>
    have hs := hostMove_served hp u
    rw [State.unit_withSched] at hs
    exact .inl hs
  | reset =>
    obtain rfl := next_eq.mp hp
    exact .inr (.inr ⟨hm, by rw [resetMove_unit, State.unit_withSched]⟩)

/-- Settles O35: the host leaves the phase or begins a computation, an operation takes an edge, and a reset leads to `Idle`. -/
theorem phasesMoveAlongTheListedEdges : Obligations.PhasesMoveAlongTheListedEdges := by
  intro s t u h p q
  have hedge : Edge p q ∨ (nextMove s = some .reset ∧ q = .idle) := by
    obtain (⟨_, _, _, _, _, _, _, heq⟩ | ⟨hb, hpos⟩) | ⟨-, i, rfl, hexec⟩ | ⟨hm, heq⟩ := step_unit_cases h u
    · have hq : p = q := (congrArg (·.pos.phase) heq).symm
      exact .inl (hq ▸ .stay p)
    · have hq : .start = q := (congrArg Pos.phase hpos).symm
      exact .inl (hq ▸ .start hb)
    · have hexec := exec_edge hexec
      rw [State.unit_withSched] at hexec
      exact .inl hexec
    · exact .inr ⟨hm, congrArg (·.pos.phase) heq⟩
  obtain hedge | hreset := hedge
  · generalize p = p, q = q at hedge ⊢
    cases hedge with
    | stay => exact .inl rfl
    | start hb => exact .inr (.inl ⟨hb, rfl⟩)
    | raise | init | pad | lastBlock | hexenc => simp
  · simp [hreset]

/-- Settles O47: in `Finalized` no operation runs, and the host cannot change the digest but by a `START`. -/
theorem finishedDigestStays : Obligations.FinishedDigestStays := by
  intro s t u h hph
  obtain (⟨_, _, _, _, _, _, _, heq⟩ | ⟨-, hpos⟩) | ⟨hb, -⟩ | ⟨hm, -⟩ := step_unit_cases h u
  · rw [heq]
    exact .inl ⟨rfl, fun _ => ⟨rfl, rfl⟩⟩
  · exact .inr (.inl hpos)
  · rw [hph] at hb
    nomatch hb
  · exact .inr (.inr hm)

/-! ### The message too large -/

/-- At the beginning of a computation a unit executes `CHECKLEN` (R200). -/
theorem sequencerStep_checklen {u : UnitId} {s : State} (hpos : (s.unit u).pos = ⟨.start, 0, 0⟩) :
    sequencerStep u s = s.onUnit u checklenUnit := by
  cases u with
  | s1 => exact sequencerStep_eq_exec (i := .sha1Checklen) rfl (congrArg (fun p : Pos => some (p.phase, p.step)) hpos.symm)
  | s256 => exact sequencerStep_eq_exec (i := .sha256Checklen) rfl (congrArg (fun p : Pos => some (p.phase, p.step)) hpos.symm)

/-- Settles O45: `CHECKLEN` takes the exception in a unit that is blank since its `START`. -/
theorem oversizedMessageFailsInOneStep : Obligations.OversizedMessageFailsInOneStep := by
  intro s u n hs hm hpos hlen hn
  have hph : (s.unit u).pos.phase = .start := congrArg Pos.phase hpos
  have hblank := (hs u).blank (by rw [hph]; rfl)
  have hchain := (hs u).chain (by rw [hph]; rfl)
  have hstep : step s = .next (State.setUnit { s with sched := s.sched.tail } u
      { s.unit u with err := 1, pos := ⟨.failed, 0, 0⟩ }) := by
    rw [step_of_nextMove hm, perform, unitMove, State.unit_withSched, if_pos (by rw [hph]; rfl), sequencerStep_checklen]
    · refine onUnit_of_next ?_
      rw [State.unit_withSched]
      exact checklenUnit_of_large hph (congrArg Pos.step hpos) hlen hn
    · rwa [State.unit_withSched]
  refine ⟨_, hstep, ?_⟩
  rw [State.unit_setUnit]
  refine ⟨rfl, rfl, fun v hv => ?_, hblank.nblk, fun k => ⟨hchain k, hblank.v k⟩, hblank.w, fun a => ?_⟩
  · rw [State.unit_setUnit_of_ne _ hv, State.unit_withSched]
  · simp [hblank.pm, hblank.dig, hblank.hex, Memory.read]

/-! ### Where a step is refused -/

/-- A write in a ready phase has an effect (R71). -/
theorem writeEffect_completes {u : UnitId} {s : State} (w : HostWrite) (hb : busy (s.unit u).pos.phase = false) :
    ∃ t, writeEffect u w s = .next t := by
  cases w with
  | msg j b =>
    by_cases hj : j ≤ Config.maxMsgAddr
    · exact ⟨_, if_pos hj⟩
    · exact ⟨_, if_neg hj⟩
  | cmd c =>
    by_cases hd : decode c = .op (Instr.start u)
    · have hb' : busy ((s.setUnit u ((s.unit u).answer .accepted)).unit u).pos.phase = false := by rwa [State.unit_setUnit]
      exact ⟨_, (if_pos hd).trans (exec_start_next.mpr ⟨hb', rfl⟩)⟩
    · exact ⟨_, if_neg hd⟩
  | mlen | status | nblk | otherReg | dig | hex | internal => exact ⟨_, rfl⟩

theorem hostAccess_completes (u : UnitId) (op : HostOp) (s : State) : ∃ t, hostAccess u op s = .next t := by
  cases hb : busy (s.unit u).pos.phase with
  | true =>
    obtain ⟨_, _, _, heq⟩ := hostAccess_of_busy op hb
    exact ⟨_, heq⟩
  | false =>
    cases op with
    | write w =>
      obtain ⟨t, ht⟩ := writeEffect_completes w hb
      exact ⟨t, (hostWrite_of_ready hb).trans ht⟩
    | read r => exact ⟨_, rfl⟩

/-- A unit's own move that is enabled has a next state (R71, R201). -/
theorem unitMove_completes {u : UnitId} {s : State} (hx : UnitInv (s.unit u)) (he : unitEnabled (s.unit u) = true) :
    ∃ t, unitMove u s = .next t := by
  cases hb : busy (s.unit u).pos.phase with
  | true =>
    obtain ⟨t, ht, -⟩ := unitMove_busy_completes hx hb
    exact ⟨t, ht⟩
  | false =>
    rw [unitEnabled, hb, Bool.false_or, Option.isSome_iff_exists] at he
    obtain ⟨w, hw⟩ := he
    simp only [unitMove, hb, hw, Bool.false_eq_true, if_false]
    exact writeEffect_completes w (by rwa [State.unit_setUnit])

/-- A host's move that is enabled has a next state: an access waits (R71). -/
theorem hostMove_completes {u : UnitId} {s : State} (he : hostEnabled (s.unit u) = true) : ∃ t, hostMove u s = .next t := by
  cases hi : (s.unit u).inbox with
  | nil => simp [hostEnabled, hi] at he
  | cons op rest =>
    simp only [hostMove, hi]
    exact hostAccess_completes ..

theorem perform_completes {m : Move} {s : State} (hs : Inv s) (he : enabled s m = true) : ∃ t, perform m s = .next t := by
  cases m with
  | unit u => exact unitMove_completes (hs u) he
  | host u => exact hostMove_completes he
  | reset => exact ⟨_, rfl⟩

theorem enabled_withSched (s : State) (l : List Move) (m : Move) : enabled { s with sched := l } m = enabled s m := by
  cases m <;> simp only [enabled, State.unit_withSched]

/-- Where no move is next, both units are ready with no held write, and no access waits (R201). -/
theorem nothing_waits_of_nextMove_none {s : State} (h : nextMove s = none) (u : UnitId) :
    busy (s.unit u).pos.phase = false ∧ (s.unit u).held = none ∧ (s.unit u).inbox = [] := by
  have hoff (m : Move) (hm : m ∈ defaultMoves) : enabled s m = false :=
    Bool.eq_false_of_not_eq_true (List.find?_eq_none.mp h m (List.mem_append_right _ hm))
  have hunit : unitEnabled (s.unit u) = false := hoff (.unit u) (by cases u <;> decide)
  have hhost : hostEnabled (s.unit u) = false := hoff (.host u) (by cases u <;> decide)
  rw [unitEnabled, Bool.or_eq_false_iff, Option.isSome_eq_false_iff, Option.isNone_iff_eq_none] at hunit
  obtain ⟨hb, hheld⟩ := hunit
  exact ⟨hb, hheld, by simpa [hostEnabled, hheld] using hhost⟩

/-- Settles O52: a move that is next is enabled and has its next state, so a step is refused only where none is. -/
theorem stepRefusesOnlyAtTheEnd : Obligations.StepRefusesOnlyAtTheEnd := by
  intro s r hs h
  cases hm : nextMove s with
  | none =>
    simp only [step, stepMove, hm, Host.Outcome.refused.injEq] at h
    exact ⟨h.symm, nothing_waits_of_nextMove_none hm⟩
  | some m =>
    have he : enabled s m = true := List.find?_some hm
    rw [← enabled_withSched s s.sched.tail] at he
    obtain ⟨t, ht⟩ := perform_completes (hs.withSched _) he
    rw [step_of_nextMove hm, ht] at h
    nomatch h

end Sys2Proof.Machine
end

section
/-! PROOFS. Where an operation is refused and where it completes (spec/60_exceptions.md R235 b), whatever the registers and memories hold. -/

namespace Sys2Proof.Machine

/-! ### A micro-operation: out of place, and at its position -/

/-- An index out of range is refused (R84; log entry 12). -/
theorem meaning_refused_of_not_wellFormed {i : Instr} (x : UnitState i.unit) (hw : WellFormed i = false) :
    meaning i x = .refused .outOfSequence := by
  cases i with
  | sha1Wload k | sha256Wload k | sha1Wexp k | sha256Wexp k => exact if_neg (of_decide_eq_false hw)
  | sha1Round t | sha256Round t => exact if_neg fun ht => of_decide_eq_false hw (Nat.le_of_lt_succ ht)
  | sha1Start | sha1Checklen | sha1Init | sha1Pad | sha1Loadv | sha1Addh | sha1Nextblk | sha1Serialize | sha1Hexenc | sha256Start
  | sha256Checklen | sha256Init | sha256Pad | sha256Loadv | sha256Addh | sha256Nextblk | sha256Serialize | sha256Hexenc => nomatch hw

/-- `PAD` is guarded by its precondition on `pos_u`, and completes where that holds unless there is a length and it is illegal (R104). -/
theorem padUnit_eq_atPosition {u : UnitId} (x : UnitState u) :
    ∃ k, padUnit x = atPosition x .padding 0 k ∧ ((∀ n, x.mlen = some n → 8 * n < 2 ^ 64) → ∃ y, k = .next y) := by
  refine ⟨_, rfl, fun hlegal => ?_⟩
  cases hm : x.mlen with
  | none => exact ⟨_, rfl⟩
  | some n => exact ⟨_, if_neg (Nat.not_le.mpr (hlegal n hm))⟩

/-- A well-formed micro-operation is guarded by its precondition on `pos_u` alone, and completes where that holds; `PAD` unless its
length is illegal (R104, R235 b). -/
theorem meaning_eq_atPosition {i : Instr} (x : UnitState i.unit) (hw : WellFormed i = true) {ph : Phase} {st : Nat}
    (hp : positionOf i = some (ph, st)) :
    ∃ k, meaning i x = atPosition x ph st k ∧
      ((i ∈ [.sha1Pad, .sha256Pad] → ∀ n, x.mlen = some n → 8 * n < 2 ^ 64) → ∃ y, k = .next y) := by
  cases i with
  | sha1Start | sha256Start => nomatch hp
  | sha1Pad | sha256Pad =>
    cases hp
    obtain ⟨k, hk, hnext⟩ := padUnit_eq_atPosition x
    exact ⟨k, hk, fun hlegal => hnext (hlegal (by decide))⟩
  | sha1Checklen | sha1Init | sha1Loadv | sha1Addh | sha1Nextblk | sha1Serialize | sha1Hexenc | sha256Checklen | sha256Init
  | sha256Loadv | sha256Addh | sha256Nextblk | sha256Serialize | sha256Hexenc => cases hp; exact ⟨_, rfl, fun _ => ⟨_, rfl⟩⟩
  | sha1Wload k | sha256Wload k | sha1Wexp k | sha256Wexp k =>
    cases hp; exact ⟨_, if_pos (of_decide_eq_true hw), fun _ => ⟨_, rfl⟩⟩
  | sha1Round t | sha256Round t =>
    cases hp; exact ⟨_, if_pos (Nat.lt_succ_of_le (of_decide_eq_true hw)), fun _ => ⟨_, rfl⟩⟩

/-- Anywhere but at its position a micro-operation is refused (R235 b). -/
theorem meaning_refused_of_ne_position {i : Instr} {x : UnitState i.unit} {p : Phase × Nat} (hp : positionOf i = some p)
    (hne : (x.pos.phase, x.pos.step) ≠ p) : meaning i x = .refused .outOfSequence := by
  cases hw : WellFormed i with
  | false => exact meaning_refused_of_not_wellFormed x hw
  | true =>
    obtain ⟨k, hk, -⟩ := meaning_eq_atPosition x hw hp
    exact hk.trans (if_neg fun h => hne (Prod.ext h.1 h.2))

/-- At its position a well-formed micro-operation completes, `PAD` unless its length is illegal (R104). -/
theorem meaning_next_of_position {i : Instr} {x : UnitState i.unit} (hw : WellFormed i = true)
    (hp : positionOf i = some (x.pos.phase, x.pos.step))
    (hlegal : i ∈ [.sha1Pad, .sha256Pad] → ∀ n, x.mlen = some n → 8 * n < 2 ^ 64) : ∃ y, meaning i x = .next y := by
  obtain ⟨k, hk, hnext⟩ := meaning_eq_atPosition x hw hp
  obtain ⟨y, rfl⟩ := hnext hlegal
  exact ⟨y, hk.trans (if_pos ⟨rfl, rfl⟩)⟩

/-- A `START` in a busy phase is refused (R187; log entry 12). -/
theorem exec_start_of_busy {u : UnitId} {s : State} (hb : busy (s.unit u).pos.phase = true) :
    exec (Instr.start u) s = .refused .outOfSequence := by
  have hstart : startUnit (s.unit u) = .refused .outOfSequence := if_pos hb
  cases u <;> exact onUnit_refused.mpr hstart

/-- Settles O29: an operation is its index check, its precondition on `pos_u` and an effect that always has a next state, but for the length
of `PAD`; only a `START` has no position, and it asks for a ready phase instead. -/
theorem outOfSequenceIsRefused : Obligations.OutOfSequenceIsRefused := by
  refine ⟨fun i s h => ?_, fun i s hw hat hready hlegal => ?_⟩
  · obtain hw | ⟨p, hp, hne⟩ | ⟨hp, hb⟩ := h
    · exact (exec_eq_onUnit i s).trans (onUnit_refused.mpr (meaning_refused_of_not_wellFormed _ hw))
    · exact (exec_eq_onUnit i s).trans (onUnit_refused.mpr (meaning_refused_of_ne_position hp hne))
    · exact (congrArg (exec · s) (eq_start_of_positionOf_none hp)).trans (exec_start_of_busy hb)
  · cases hp : positionOf i with
    | none =>
      exact ⟨_, (congrArg (exec · s) (eq_start_of_positionOf_none hp)).trans (exec_start_next.mpr ⟨hready hp, rfl⟩)⟩
    | some p =>
      obtain ⟨y, hy⟩ := meaning_next_of_position hw (hp.trans (congrArg some (hat p hp).symm)) hlegal
      exact ⟨_, (exec_eq_onUnit i s).trans (onUnit_of_next hy)⟩

end Sys2Proof.Machine
end

section
/-! PROOFS. The error flag (spec/10_state.md R30; spec/60_exceptions.md R228): what sets or clears `ERR_u`. -/

namespace Sys2Proof.Machine

/-- From `x` to `y` the error is kept, or cleared by an accepted `START`, or set by a refused command or by the raise of `CHECKLEN` (R228). -/
def ErrorStep {u : UnitId} (x y : UnitState u) : Prop :=
  y.err = x.err ∨
  (y.err = 0 ∧ busy x.pos.phase = false ∧ y.pos = ⟨.start, 0, 0⟩) ∨
  (y.err = 2 ∧ busy x.pos.phase = false ∧ y.pos = x.pos) ∨
  (y.err = 1 ∧ x.pos.phase = .start ∧ y.pos = ⟨.failed, 0, 0⟩)

theorem ErrorStep.kept {u : UnitId} {x y z : UnitState u} (hz : z = y) (herr : y.err = x.err) : ErrorStep x z :=
  .inl ((congrArg UnitState.err hz).trans herr)

/-- The host port may have changed before. -/
theorem ErrorStep.of_port {u : UnitId} {x y : UnitState u} {held : Option HostWrite} {inbox : List HostOp} {reply : Option HostReply}
    (h : ErrorStep { x with held := held, inbox := inbox, reply := reply } y) : ErrorStep x y := h

theorem startUnit_errorStep {u : UnitId} {x y : UnitState u} (h : startUnit x = .next y) : ErrorStep x y := by
  obtain ⟨hb, rfl⟩ := startUnit_next.mp h
  exact .inr (.inl ⟨rfl, hb, rfl⟩)

/-- `CHECKLEN` sets the error where it raises, with a length and without one, and keeps it where it passes (R188). -/
theorem checklenUnit_errorStep {u : UnitId} {x y : UnitState u} (h : checklenUnit x = .next y) : ErrorStep x y := by
  obtain ⟨⟨hph, -⟩, ⟨-, -, ⟨-, rfl⟩ | ⟨-, rfl⟩⟩ | ⟨-, ⟨-, rfl⟩ | ⟨-, rfl⟩⟩⟩ := checklenUnit_next.mp h
  · exact .inr (.inr (.inr ⟨rfl, hph, rfl⟩))
  · exact .inl rfl
  · exact .inr (.inr (.inr ⟨rfl, hph, rfl⟩))
  · exact .inl rfl

/-- Of the operations only `START` and `CHECKLEN` write the error (R37): the first clears it, the second sets it by its raise. -/
theorem meaning_errorStep {i : Instr} {x y : UnitState i.unit} (h : meaning i x = .next y) : ErrorStep x y := by
  by_cases herr : y.err = x.err
  · exact .inl herr
  · have hi := mem_of_writes_err ((meaning_changesOnly i h).err herr)
    simp only [List.mem_cons, List.not_mem_nil, or_false] at hi
    obtain rfl | rfl | rfl | rfl := hi
    · exact startUnit_errorStep h
    · exact startUnit_errorStep h
    · exact checklenUnit_errorStep h
    · exact checklenUnit_errorStep h

/-- What leaves the other unit alone can be checked at its own. -/
theorem ErrorStep.of_frame {v : UnitId} {s t : State} (hother : ∀ w, w ≠ v → t.unit w = s.unit w)
    (hv : ErrorStep (s.unit v) (t.unit v)) (u : UnitId) : ErrorStep (s.unit u) (t.unit u) := by
  by_cases hu : u = v
  · exact hu ▸ hv
  · exact .kept (hother u hu) rfl

theorem exec_errorStep {i : Instr} {s t : State} (h : exec i s = .next t) : ∀ u, ErrorStep (s.unit u) (t.unit u) := by
  refine .of_frame (v := i.unit) (fun w hw => (exec_actsOn i).unit_eq_of_ne h hw) ?_
  rw [exec_eq_onUnit, onUnit_next] at h
  obtain ⟨y, hy, rfl⟩ := h
  rw [State.unit_setUnit]
  exact meaning_errorStep hy

/-- A write to a ready unit changes the error by a command only: an accepted `START`, or one refused (R223, R228). -/
theorem writeEffect_errorStep {u : UnitId} {w : HostWrite} {s t : State} (hb : busy (s.unit u).pos.phase = false)
    (h : writeEffect u w s = .next t) : ErrorStep (s.unit u) (t.unit u) := by
  obtain ⟨j, b, -, -, rfl⟩ | ⟨n, -, rfl⟩ | ⟨c, -, hcmd⟩ | rfl := writeEffect_next h
  · exact .kept (State.unit_setUnit ..) rfl
  · exact .kept (State.unit_setUnit ..) rfl
  · obtain ⟨-, hexec⟩ | ⟨-, rfl⟩ := command_next hcmd
    · have hstart := exec_errorStep hexec u
      rw [State.unit_setUnit] at hstart
      exact hstart.of_port
    · rw [State.unit_setUnit]
      exact .inr (.inr (.inl ⟨rfl, hb, rfl⟩))
  · exact .kept (State.unit_setUnit ..) rfl

/-- A busy unit's error is out of the host's reach (R67), and a read changes no error (R63). -/
theorem hostAccess_errorStep {u : UnitId} {op : HostOp} {s t : State} (h : hostAccess u op s = .next t) :
    ErrorStep (s.unit u) (t.unit u) := by
  cases hb : busy (s.unit u).pos.phase with
  | true =>
    obtain ⟨held, reply, rec, heq⟩ := hostAccess_of_busy op hb
    obtain rfl := next_eq.mp (heq.symm.trans h)
    exact .kept (State.unit_setUnit ..) rfl
  | false =>
    cases op with
    | write w => exact writeEffect_errorStep hb ((hostWrite_of_ready hb).symm.trans h)
    | read r =>
      obtain rfl := next_eq.mp h
      rw [State.unit_setUnit]
      obtain ⟨a, -, hr⟩ | ⟨what, hr⟩ := hostRead_cases r (s.unit u)
      · exact .kept hr rfl
      · exact .kept hr rfl

theorem hostMove_errorStep {v : UnitId} {s t : State} (h : hostMove v s = .next t) : ∀ u, ErrorStep (s.unit u) (t.unit u) := by
  refine .of_frame (hostMove_frame h).1 ?_
  obtain ⟨op, rest, -, hop⟩ := hostMove_next h
  have herr := hostAccess_errorStep hop
  rw [State.unit_setUnit] at herr
  exact herr.of_port

/-- A busy unit moves by an operation, a ready one by its held write. -/
theorem unitMove_errorStep {v : UnitId} {s t : State} (h : unitMove v s = .next t) : ∀ u, ErrorStep (s.unit u) (t.unit u) := by
  cases hb : busy (s.unit v).pos.phase with
  | true =>
    obtain ⟨-, i, -, -, hexec⟩ := unitMove_busy hb h
    exact exec_errorStep hexec
  | false =>
    refine .of_frame (fun w hw => (unitMove_actsOn v).unit_eq_of_ne h hw) ?_
    obtain ⟨w, -, hw⟩ := unitMove_ready hb h
    have herr := writeEffect_errorStep (by rwa [State.unit_setUnit]) hw
    rw [State.unit_setUnit] at herr
    exact herr.of_port

/-- Settles O46: the move made is a reset, or one whose unit's error takes one of the ways of R228. -/
theorem errorFlagIsSticky : Obligations.ErrorFlagIsSticky := by
  intro s t u h hne
  have herr : ErrorStep (s.unit u) (t.unit u) ∨ nextMove s = some .reset := by
    obtain ⟨m, hm, -, hp⟩ := step_next h
    rw [← State.unit_withSched s s.sched.tail]
    cases m with
    | unit v => exact .inl (unitMove_errorStep hp u)
    | host v => exact .inl (hostMove_errorStep hp u)
    | reset => exact .inr hm
  obtain (hkept | hstart | hrefused | hraise) | hreset := herr
  · exact absurd hkept hne
  · exact .inl hstart
  · exact .inr (.inl hrefused)
  · exact .inr (.inr (.inl hraise))
  · exact .inr (.inr (.inr hreset))

end Sys2Proof.Machine
end
